-- ==== Sys2Proof/Word.lean ====
section
/-! DEFINITION. The word types of the vxm86 core: bytes of the store, 32-bit slots and addresses. -/

namespace Sys2Proof

/-- One byte of the store (20_memory.md R50). -/
abbrev Byte := BitVec 8

/-- A 32-bit register slot, address or zero-extended operand value (R20, R23, R50). -/
abbrev Word := BitVec 32

end Sys2Proof
end

