-- ==== Sys2Proof/Syntax.lean ====
section
/-! DEFINITION. The instructions of the core: one constructor per row of spec/opcode_table.json. -/

namespace Sys2Proof

/-- The eight general-purpose slots in index order (10_state.md R21); with the operand-size latch the same names
stand for the low 16 bits (R22). -/
inductive Reg where
  | eax | ecx | edx | ebx | esp | ebp | esi | edi
deriving DecidableEq, Repr

/-- The eight 8-bit sub-registers in selector order (R22, D36). -/
inductive Reg8 where
  | al | cl | dl | bl | ah | ch | dh | bh
deriving DecidableEq, Repr

/-- The widths an operand or a memory access can have (R7, R13). -/
inductive Width where
  | w8 | w16 | w32
deriving DecidableEq, Repr

/-- What ModRM `mod` 00, 01 and 10 put after the ModRM (and SIB) byte (30_encoding.md R89, R90). -/
inductive Disp where
  | none
  | d8 (d : Byte)
  | d32 (d : Word)
deriving DecidableEq, Repr

/-- A memory operand as ModRM and SIB encode it (R89), one constructor per shape of the table of R102.
In the SIB shapes `index = esp` is the "no index" escape (R88). -/
inductive Addr where
  /-- `mod` 00, 01, 10 without SIB: base register plus displacement. -/
  | base (d : Disp) (b : Reg)
  /-- `mod` 00, `rm` 101: disp32, no base. -/
  | abs (d : Word)
  /-- `rm` 100: base plus scaled index plus displacement. -/
  | sib (d : Disp) (scale : BitVec 2) (index : Reg) (b : Reg)
  /-- `mod` 00, `rm` 100, SIB base 101: scaled index plus disp32, no base (D12). -/
  | sibAbs (scale : BitVec 2) (index : Reg) (d : Word)
deriving DecidableEq, Repr

/-- The r/m operand: a register when `mod` is 11, memory otherwise (R69, R91). -/
inductive RM (ρ : Type) where
  | reg (r : ρ)
  | mem (a : Addr)
deriving DecidableEq, Repr

/-- The instructions (R96). An immediate or displacement of "16/32" bits is held as the value its fetch returns:
zero-extended, so below 2^16 under the operand-size prefix. -/
inductive Instr where
  /-- 66: the operand-size prefix before instruction `i` (R83). -/
  | o16 (i : Instr)
  /-- 00 /r (R143). -/
  | addRm8R8 (rm : RM Reg8) (r : Reg8)
  /-- 01 /r (R144). -/
  | addRmR (rm : RM Reg) (r : Reg)
  /-- 02 /r (R145). -/
  | addR8Rm8 (r : Reg8) (rm : RM Reg8)
  /-- 03 /r (R146). -/
  | addRRm (r : Reg) (rm : RM Reg)
  /-- 40+r (R161). -/
  | incR (r : Reg)
  /-- 48+r (R162). -/
  | decR (r : Reg)
  /-- 50+r (R202). -/
  | pushR (r : Reg)
  /-- 58+r (R203). -/
  | popR (r : Reg)
  /-- 60 (R206). -/
  | pusha
  /-- 61 (R207). -/
  | popa
  /-- 68 (R204). -/
  | pushImm (imm : Word)
  /-- 6A (R205). -/
  | pushImm8 (imm : Byte)
  /-- 74 (R181). -/
  | jz (rel : Byte)
  /-- 75 (R182). -/
  | jnz (rel : Byte)
  /-- 80 /0 (R148). -/
  | addRm8Imm8 (rm : RM Reg8) (imm : Byte)
  /-- 80 /5 (R149). -/
  | subRm8Imm8 (rm : RM Reg8) (imm : Byte)
  /-- 80 /7 (R150). -/
  | sub7Rm8Imm8 (rm : RM Reg8) (imm : Byte)
  /-- 81 /0 (R151). -/
  | addRmImm (rm : RM Reg) (imm : Word)
  /-- 81 /5 (R152). -/
  | subRmImm (rm : RM Reg) (imm : Word)
  /-- 81 /7 (R153). -/
  | sub7RmImm (rm : RM Reg) (imm : Word)
  /-- 82 /0 (R154). -/
  | addRm8Imm8s (rm : RM Reg8) (imm : Byte)
  /-- 82 /5 (R155). -/
  | subRm8Imm8s (rm : RM Reg8) (imm : Byte)
  /-- 82 /7 (R156). -/
  | sub7Rm8Imm8s (rm : RM Reg8) (imm : Byte)
  /-- 83 /0 (R157). -/
  | addRmImm8 (rm : RM Reg) (imm : Byte)
  /-- 83 /5 (R158). -/
  | subRmImm8 (rm : RM Reg) (imm : Byte)
  /-- 83 /7 (R159). -/
  | sub7RmImm8 (rm : RM Reg) (imm : Byte)
  /-- 88 /r (R124). -/
  | movRm8R8 (rm : RM Reg8) (r : Reg8)
  /-- 89 /r (R125). -/
  | movRmR (rm : RM Reg) (r : Reg)
  /-- 8A /r (R126). -/
  | movR8Rm8 (r : Reg8) (rm : RM Reg8)
  /-- 8B /r (R127). -/
  | movRRm (r : Reg) (rm : RM Reg)
  /-- 90 (R220). -/
  | nop
  /-- B0+r (R120). -/
  | movR8Imm8 (r : Reg8) (imm : Byte)
  /-- B8+r (R121). -/
  | movRImm (r : Reg) (imm : Word)
  /-- C3 (R189). -/
  | ret
  /-- C6 /0 (R122). -/
  | movRm8Imm8 (rm : RM Reg8) (imm : Byte)
  /-- C7 /0 (R123). -/
  | movRmImm (rm : RM Reg) (imm : Word)
  /-- CD ib (R222). -/
  | intImm8 (id : Byte)
  /-- E2 (R183). -/
  | loopRel8 (rel : Byte)
  /-- E8 (R185). -/
  | callRel (rel : Word)
  /-- E9 (R186). -/
  | jmpRel (rel : Word)
  /-- EB (R187). -/
  | jmpRel8 (rel : Byte)
  /-- F4 (R221). -/
  | hlt
deriving DecidableEq, Repr

end Sys2Proof
end

