-- ==== Sys2Proof/WellFormed.lean ====
section
/-! DEFINITION. Which terms of Instr stand for an encoding: each has exactly one byte sequence (log 2). -/

namespace Sys2Proof

/-- An addressing shape is well formed unless its registers would select another shape: `rm` 100 is the SIB escape,
and base 101 under `mod` 00 the disp32 escape (30_encoding.md R88, R102). -/
def Addr.wf : Addr → Bool
  | .base d b => b != .esp && !(d == .none && b == .ebp)
  | .abs _ => true
  | .sib d _ _ b => !(d == .none && b == .ebp)
  | .sibAbs _ _ _ => true

def RM.wf {ρ : Type} : RM ρ → Bool
  | .reg _ => true
  | .mem a => a.wf

/-- A 16/32-bit immediate or displacement fits the bytes its fetch takes: 2 under the prefix, 4 without (R94, R95). -/
def immFits (o16 : Bool) (imm : Word) : Bool := !o16 || imm.toNat < 65536

/-- A prefixed instruction's body is well formed as the table's row gives it; a prefix is no body (R84). -/
def Instr.fits (o16 : Bool) : Instr → Bool
  | .o16 _ => false
  | .addRm8R8 rm _ => rm.wf
  | .addRmR rm _ => rm.wf
  | .addR8Rm8 _ rm => rm.wf
  | .addRRm _ rm => rm.wf
  | .incR _ => true
  | .decR _ => true
  | .pushR _ => true
  | .popR _ => true
  | .pusha => true
  | .popa => true
  | .pushImm imm => immFits o16 imm
  | .pushImm8 _ => true
  | .jz _ => true
  | .jnz _ => true
  | .addRm8Imm8 rm _ => rm.wf
  | .subRm8Imm8 rm _ => rm.wf
  | .sub7Rm8Imm8 rm _ => rm.wf
  | .addRmImm rm imm => rm.wf && immFits o16 imm
  | .subRmImm rm imm => rm.wf && immFits o16 imm
  | .sub7RmImm rm imm => rm.wf && immFits o16 imm
  | .addRm8Imm8s rm _ => rm.wf
  | .subRm8Imm8s rm _ => rm.wf
  | .sub7Rm8Imm8s rm _ => rm.wf
  | .addRmImm8 rm _ => rm.wf
  | .subRmImm8 rm _ => rm.wf
  | .sub7RmImm8 rm _ => rm.wf
  | .movRm8R8 rm _ => rm.wf
  | .movRmR rm _ => rm.wf
  | .movR8Rm8 _ rm => rm.wf
  | .movRRm _ rm => rm.wf
  | .nop => true
  | .movR8Imm8 _ _ => true
  | .movRImm _ imm => immFits o16 imm
  | .ret => true
  | .movRm8Imm8 rm _ => rm.wf
  | .movRmImm rm imm => rm.wf && immFits o16 imm
  | .intImm8 _ => true
  | .loopRel8 _ => true
  | .callRel rel => immFits o16 rel
  | .jmpRel rel => immFits o16 rel
  | .jmpRel8 _ => true
  | .hlt => true

/-- Well-formed instructions: an optional prefix before a body that fits its operand size (R81, R83, R84). -/
def Instr.wf : Instr → Bool
  | .o16 i => i.fits true
  | i => i.fits false

end Sys2Proof
end

