-- ==== Sys2Proof/Decode.lean ====
section
/-! DEFINITION. The decoder, written over the core's one way of reading instruction bytes (30_encoding.md R80), and
the encoder beside it, from the same tables (R86 to R96). -/

namespace Sys2Proof

/-! ### Byte order and field layouts -/

/-- Bytes an access of this width moves (R13). -/
def Width.bytes : Width → Nat
  | .w8 => 1
  | .w16 => 2
  | .w32 => 4

/-- The `n` little-endian bytes of `v` (20_memory.md R53, R54). -/
def leBytes : Nat → Nat → List Byte
  | 0, _ => []
  | n + 1, v => BitVec.ofNat 8 v :: leBytes n (v / 256)

/-- The unsigned value of little-endian bytes (R53). -/
def leNat : List Byte → Nat
  | [] => 0
  | b :: bs => b.toNat + 256 * leNat bs

/-- The little-endian value of one, two or four bytes as a word (R53). -/
def leWord (bs : List Byte) : Word := BitVec.ofNat 32 (leNat bs)

/-- The low byte of a fetched value. -/
def lowByte (v : Word) : Byte := v.setWidth 8

/-- The 3-bit index of a slot (10_state.md R21). -/
def Reg.sel : Reg → BitVec 3
  | .eax => 0 | .ecx => 1 | .edx => 2 | .ebx => 3 | .esp => 4 | .ebp => 5 | .esi => 6 | .edi => 7

/-- The slot a 3-bit selector names (R21). -/
def Reg.ofSel (i : BitVec 3) : Reg :=
  match i.toNat with
  | 0 => .eax | 1 => .ecx | 2 => .edx | 3 => .ebx | 4 => .esp | 5 => .ebp | 6 => .esi | _ => .edi

/-- The selector of an 8-bit sub-register (R22). -/
def Reg8.sel : Reg8 → BitVec 3
  | .al => 0 | .cl => 1 | .dl => 2 | .bl => 3 | .ah => 4 | .ch => 5 | .dh => 6 | .bh => 7

/-- The 8-bit sub-register a selector names (R22). -/
def Reg8.ofSel (i : BitVec 3) : Reg8 :=
  match i.toNat with
  | 0 => .al | 1 => .cl | 2 => .dl | 3 => .bl | 4 => .ah | 5 => .ch | 6 => .dh | _ => .bh

/-- A byte of fields 7:6, 5:3 and 2:0: the layout of ModRM (R87) and of SIB (R88). -/
def packByte (hi : BitVec 2) (mid low : BitVec 3) : Byte := (hi ++ mid ++ low : BitVec 8)

def fieldHi (m : Byte) : BitVec 2 := m.extractLsb' 6 2
def fieldMid (m : Byte) : BitVec 3 := m.extractLsb' 3 3
def fieldLow (m : Byte) : BitVec 3 := m.extractLsb' 0 3

/-! ### Fetching -/

/-- What `Fetch` reads at an address, or nothing where the read fails its bounds check (R80). -/
abbrev Fetch := Word → Width → Option Word

/-- Why no instruction could be decoded. -/
inductive DecodeError where
  /-- The fetch at `at_` fails its bounds check; `firstRead` is the memory operand that the 80-83 group reads before
  this fetch, whose own failure would come first (R147, R255). -/
  | outOfBounds (at_ : Word) (firstRead : Option (Addr × Width))
  /-- No row of R96 (R97); `b` is the opcode byte. -/
  | unimplemented (b : Byte)
deriving DecidableEq, Repr

/-- `Fetch(n)` (R80): the value at the cursor and the advanced cursor. -/
def fetchAt (f : Fetch) (w : Width) (ip : Word) (firstRead : Option (Addr × Width)) :
    Except DecodeError (Word × Word) :=
  match f ip w with
  | some v => .ok (v, ip + BitVec.ofNat 32 w.bytes)
  | none => .error (.outOfBounds ip firstRead)

/-- `Fetch(1)` as a byte. -/
def fetchByte (f : Fetch) (ip : Word) (firstRead : Option (Addr × Width)) : Except DecodeError (Byte × Word) := do
  let (v, ip) ← fetchAt f .w8 ip firstRead
  return (lowByte v, ip)

/-- The fetch width of a 16/32-bit immediate or displacement (R94, R95). -/
def immWidth (o16 : Bool) : Width := if o16 then .w16 else .w32

/-! ### The opcode byte (R85, R86) -/

/-- The handlers of the dispatch table with the sub-variant bits they consume. -/
inductive Op where
  | add (d w : Bool)
  | inc (r : Reg)
  | dec (r : Reg)
  | push (r : Reg)
  | pop (r : Reg)
  | pusha
  | popa
  | pushImm
  | pushImm8
  | jcc (n : Bool)
  | group1 (s w : Bool)
  | mov (d w : Bool)
  | nop
  | movImm8 (r : Reg8)
  | movImm (r : Reg)
  | ret
  | movRmImm (w : Bool)
  | int
  | loop
  | call
  | jmp
  | jmpShort
  | hlt
deriving DecidableEq, Repr

/-- The dispatch table: key `b[7:2]`, then the sub-variant `b[1:0]`; everything else has no handler (R86, R97). -/
def opOf (b : Byte) : Option Op :=
  let reg := fieldLow b
  let low := b.toNat % 4
  match b.toNat / 4 with
  | 0b000000 => some (.add (b.getLsbD 1) (b.getLsbD 0))
  | 0b010000 | 0b010001 => some (.inc (Reg.ofSel reg))
  | 0b010010 | 0b010011 => some (.dec (Reg.ofSel reg))
  | 0b010100 | 0b010101 => some (.push (Reg.ofSel reg))
  | 0b010110 | 0b010111 => some (.pop (Reg.ofSel reg))
  | 0b011000 => match low with
    | 0 => some .pusha
    | 1 => some .popa
    | _ => none
  | 0b011010 => match low with
    | 0 => some .pushImm
    | 2 => some .pushImm8
    | _ => none
  | 0b011101 => match low with
    | 0 => some (.jcc false)
    | 1 => some (.jcc true)
    | _ => none
  | 0b100000 => some (.group1 (b.getLsbD 1) (b.getLsbD 0))
  | 0b100010 => some (.mov (b.getLsbD 1) (b.getLsbD 0))
  | 0b100100 => match low with
    | 0 => some .nop
    | _ => none
  | 0b101100 | 0b101101 => some (.movImm8 (Reg8.ofSel reg))
  | 0b101110 | 0b101111 => some (.movImm (Reg.ofSel reg))
  | 0b110000 => match low with
    | 3 => some .ret
    | _ => none
  | 0b110001 => match low with
    | 2 => some (.movRmImm false)
    | 3 => some (.movRmImm true)
    | _ => none
  | 0b110011 => match low with
    | 1 => some .int
    | _ => none
  | 0b111000 => match low with
    | 2 => some .loop
    | _ => none
  | 0b111010 => match low with
    | 0 => some .call
    | 1 => some .jmp
    | 3 => some .jmpShort
    | _ => none
  | 0b111101 => match low with
    | 0 => some .hlt
    | _ => none
  | _ => none

/-! ### The r/m operand (R69, R87 to R93) -/

/-- The displacement `mod` 00, 01 or 10 asks for (R89 steps 2 to 4, R90). -/
def decodeDisp (f : Fetch) (mod : BitVec 2) (ip : Word) : Except DecodeError (Disp × Word) :=
  match mod.toNat with
  | 0 => .ok (.none, ip)
  | 1 => do
    let (d, ip) ← fetchByte f ip none
    return (.d8 d, ip)
  | _ => do
    let (d, ip) ← fetchAt f .w32 ip none
    return (.d32 d, ip)

/-- The memory operand of a `mod` other than 11: the bytes `ResolveEA` fetches, in its order (R89). -/
def decodeAddr (f : Fetch) (mod : BitVec 2) (rm : BitVec 3) (ip : Word) : Except DecodeError (Addr × Word) :=
  if rm = 4 then do
    let (sib, ip) ← fetchByte f ip none
    if mod = 0 ∧ fieldLow sib = 5 then do
      let (d, ip) ← fetchAt f .w32 ip none
      return (.sibAbs (fieldHi sib) (Reg.ofSel (fieldMid sib)) d, ip)
    else do
      let (d, ip) ← decodeDisp f mod ip
      return (.sib d (fieldHi sib) (Reg.ofSel (fieldMid sib)) (Reg.ofSel (fieldLow sib)), ip)
  else if mod = 0 ∧ rm = 5 then do
    let (d, ip) ← fetchAt f .w32 ip none
    return (.abs d, ip)
  else do
    let (d, ip) ← decodeDisp f mod ip
    return (.base d (Reg.ofSel rm), ip)

/-- The r/m operand after the ModRM byte `m` (R69, R91). -/
def decodeRm {ρ : Type} (ofSel : BitVec 3 → ρ) (f : Fetch) (m : Byte) (ip : Word) :
    Except DecodeError (RM ρ × Word) :=
  if fieldHi m = 3 then .ok (.reg (ofSel (fieldLow m)), ip)
  else do
    let (a, ip) ← decodeAddr f (fieldHi m) (fieldLow m) ip
    return (.mem a, ip)

/-- The memory operand, if the operand is one, with the width it is read at. -/
def RM.firstRead {ρ : Type} (rm : RM ρ) (w : Width) : Option (Addr × Width) :=
  match rm with
  | .reg _ => none
  | .mem a => some (a, w)

/-! ### Whole instructions -/

/-- The ModRM instructions that name a register in `reg` (R91). -/
def decodeModRM {ρ : Type} (ofSel : BitVec 3 → ρ) (f : Fetch) (ip : Word) :
    Except DecodeError (RM ρ × ρ × Word) := do
  let (m, ip) ← fetchByte f ip none
  let (rm, ip) ← decodeRm ofSel f m ip
  return (rm, ofSel (fieldMid m), ip)

/-- The three operations the 80-83 group selects by its sub-opcode (R99, R147). -/
inductive SubOp where
  | add | sub | sub7
deriving DecidableEq, Repr

def subOpOf (op : BitVec 3) : Option SubOp :=
  match op.toNat with
  | 0 => some .add
  | 5 => some .sub
  | 7 => some .sub7
  | _ => none

/-- The group 80-83 (R147): the sub-opcode is checked before the operand's bytes are fetched, and the operand is
read before the immediate is fetched. -/
def decodeGroup1 (o16 s w : Bool) (b : Byte) (f : Fetch) (ip : Word) : Except DecodeError (Instr × Word) := do
  let (m, ip) ← fetchByte f ip none
  match subOpOf (fieldMid m) with
  | none => .error (.unimplemented b)
  | some op =>
    if w then do
      let (rm, ip) ← decodeRm Reg.ofSel f m ip
      if s then do
        let (imm, ip) ← fetchByte f ip (rm.firstRead (immWidth o16))
        return (match op with
          | .add => .addRmImm8 rm imm
          | .sub => .subRmImm8 rm imm
          | .sub7 => .sub7RmImm8 rm imm, ip)
      else do
        let (imm, ip) ← fetchAt f (immWidth o16) ip (rm.firstRead (immWidth o16))
        return (match op with
          | .add => .addRmImm rm imm
          | .sub => .subRmImm rm imm
          | .sub7 => .sub7RmImm rm imm, ip)
    else do
      let (rm, ip) ← decodeRm Reg8.ofSel f m ip
      let (imm, ip) ← fetchByte f ip (rm.firstRead .w8)
      return (match op, s with
        | .add, false => .addRm8Imm8 rm imm
        | .sub, false => .subRm8Imm8 rm imm
        | .sub7, false => .sub7Rm8Imm8 rm imm
        | .add, true => .addRm8Imm8s rm imm
        | .sub, true => .subRm8Imm8s rm imm
        | .sub7, true => .sub7Rm8Imm8s rm imm, ip)

/-- MOV r/m, imm (R122, R123): ModRM `reg` must be 000, checked before the operand's bytes are fetched. -/
def decodeMovRmImm (o16 w : Bool) (b : Byte) (f : Fetch) (ip : Word) : Except DecodeError (Instr × Word) := do
  let (m, ip) ← fetchByte f ip none
  if fieldMid m = 0 then
    if w then do
      let (rm, ip) ← decodeRm Reg.ofSel f m ip
      let (imm, ip) ← fetchAt f (immWidth o16) ip none
      return (.movRmImm rm imm, ip)
    else do
      let (rm, ip) ← decodeRm Reg8.ofSel f m ip
      let (imm, ip) ← fetchByte f ip none
      return (.movRm8Imm8 rm imm, ip)
  else .error (.unimplemented b)

/-- An instruction that is its opcode and one byte. -/
def decodeByteForm (mk : Byte → Instr) (f : Fetch) (ip : Word) : Except DecodeError (Instr × Word) := do
  let (v, ip) ← fetchByte f ip none
  return (mk v, ip)

/-- An instruction that is its opcode and one 16/32-bit value (R94, R95). -/
def decodeWordForm (o16 : Bool) (mk : Word → Instr) (f : Fetch) (ip : Word) : Except DecodeError (Instr × Word) := do
  let (v, ip) ← fetchAt f (immWidth o16) ip none
  return (mk v, ip)

/-- The bytes after the opcode `b`, whose handler is `op`. -/
def decodeOp (o16 : Bool) (b : Byte) (op : Op) (f : Fetch) (ip : Word) : Except DecodeError (Instr × Word) :=
  match op with
  | .add false false => do
    let (rm, r, ip) ← decodeModRM Reg8.ofSel f ip
    return (.addRm8R8 rm r, ip)
  | .add false true => do
    let (rm, r, ip) ← decodeModRM Reg.ofSel f ip
    return (.addRmR rm r, ip)
  | .add true false => do
    let (rm, r, ip) ← decodeModRM Reg8.ofSel f ip
    return (.addR8Rm8 r rm, ip)
  | .add true true => do
    let (rm, r, ip) ← decodeModRM Reg.ofSel f ip
    return (.addRRm r rm, ip)
  | .inc r => .ok (.incR r, ip)
  | .dec r => .ok (.decR r, ip)
  | .push r => .ok (.pushR r, ip)
  | .pop r => .ok (.popR r, ip)
  | .pusha => .ok (.pusha, ip)
  | .popa => .ok (.popa, ip)
  | .pushImm => decodeWordForm o16 .pushImm f ip
  | .pushImm8 => decodeByteForm .pushImm8 f ip
  | .jcc false => decodeByteForm .jz f ip
  | .jcc true => decodeByteForm .jnz f ip
  | .group1 s w => decodeGroup1 o16 s w b f ip
  | .mov false false => do
    let (rm, r, ip) ← decodeModRM Reg8.ofSel f ip
    return (.movRm8R8 rm r, ip)
  | .mov false true => do
    let (rm, r, ip) ← decodeModRM Reg.ofSel f ip
    return (.movRmR rm r, ip)
  | .mov true false => do
    let (rm, r, ip) ← decodeModRM Reg8.ofSel f ip
    return (.movR8Rm8 r rm, ip)
  | .mov true true => do
    let (rm, r, ip) ← decodeModRM Reg.ofSel f ip
    return (.movRRm r rm, ip)
  | .nop => .ok (.nop, ip)
  | .movImm8 r => decodeByteForm (.movR8Imm8 r) f ip
  | .movImm r => decodeWordForm o16 (.movRImm r) f ip
  | .ret => .ok (.ret, ip)
  | .movRmImm w => decodeMovRmImm o16 w b f ip
  | .int => decodeByteForm .intImm8 f ip
  | .loop => decodeByteForm .loopRel8 f ip
  | .call => decodeWordForm o16 .callRel f ip
  | .jmp => decodeWordForm o16 .jmpRel f ip
  | .jmpShort => decodeByteForm .jmpRel8 f ip
  | .hlt => .ok (.hlt, ip)

/-- Dispatch on the opcode byte `b` (R83 `Handler[key](b, o16)`). -/
def decodeOpcode (o16 : Bool) (b : Byte) (f : Fetch) (ip : Word) : Except DecodeError (Instr × Word) :=
  match opOf b with
  | none => .error (.unimplemented b)
  | some op => decodeOp o16 b op f ip

/-- One instruction at the cursor (R83, R84): at most one prefix, then the opcode. Answers the instruction and the
address after its last byte. -/
def decode (f : Fetch) (ip : Word) : Except DecodeError (Instr × Word) := do
  let (b, ip) ← fetchByte f ip none
  if b = 0x66 then do
    let (b, ip) ← fetchByte f ip none
    let (i, ip) ← decodeOpcode true b f ip
    return (.o16 i, ip)
  else decodeOpcode false b f ip

/-! ### Decoding a list of bytes -/

/-- Fetching from the bytes `bs` laid out from address 0. -/
def fetchList (bs : List Byte) : Fetch := fun a w =>
  if a.toNat + w.bytes ≤ bs.length then some (leWord ((bs.drop a.toNat).take w.bytes)) else none

/-- The instruction the bytes begin with, and the bytes after it. -/
def decodeBytes (bs : List Byte) : Except DecodeError (Instr × List Byte) :=
  match decode (fetchList bs) 0 with
  | .ok (i, ip) => .ok (i, bs.drop ip.toNat)
  | .error e => .error e

/-! ### The encoder (R81, R86 to R96) -/

/-- A 16/32-bit immediate or displacement (R94, R95). -/
def encodeImm (o16 : Bool) (imm : Word) : List Byte := leBytes (immWidth o16).bytes imm.toNat

/-- `mod` for a displacement (R89). -/
def Disp.mod : Disp → BitVec 2
  | .none => 0
  | .d8 _ => 1
  | .d32 _ => 2

def Disp.encode : Disp → List Byte
  | .none => []
  | .d8 d => [d]
  | .d32 d => leBytes 4 d.toNat

/-- ModRM with `reg` in its middle field, then SIB and displacement (R81, R87, R88, R102). -/
def Addr.encode (reg : BitVec 3) : Addr → List Byte
  | .base d b => packByte d.mod reg b.sel :: d.encode
  | .abs d => packByte 0 reg 5 :: leBytes 4 d.toNat
  | .sib d scale index b => packByte d.mod reg 4 :: packByte scale index.sel b.sel :: d.encode
  | .sibAbs scale index d => packByte 0 reg 4 :: packByte scale index.sel 5 :: leBytes 4 d.toNat

def RM.encode {ρ : Type} (sel : ρ → BitVec 3) (reg : BitVec 3) : RM ρ → List Byte
  | .reg r => [packByte 3 reg (sel r)]
  | .mem a => a.encode reg

/-- `base + r`: an opcode that carries a register selector in its low three bits (R92). -/
def opcodeReg (base : Byte) (r : BitVec 3) : Byte := base ||| r.setWidth 8

/-- The bytes of an instruction's body, after any prefix (R96). -/
def encodeBody (o16 : Bool) : Instr → List Byte
  | .o16 _ => [0x66]
  | .addRm8R8 rm r => 0x00 :: rm.encode Reg8.sel r.sel
  | .addRmR rm r => 0x01 :: rm.encode Reg.sel r.sel
  | .addR8Rm8 r rm => 0x02 :: rm.encode Reg8.sel r.sel
  | .addRRm r rm => 0x03 :: rm.encode Reg.sel r.sel
  | .incR r => [opcodeReg 0x40 r.sel]
  | .decR r => [opcodeReg 0x48 r.sel]
  | .pushR r => [opcodeReg 0x50 r.sel]
  | .popR r => [opcodeReg 0x58 r.sel]
  | .pusha => [0x60]
  | .popa => [0x61]
  | .pushImm imm => 0x68 :: encodeImm o16 imm
  | .pushImm8 imm => [0x6A, imm]
  | .jz rel => [0x74, rel]
  | .jnz rel => [0x75, rel]
  | .addRm8Imm8 rm imm => 0x80 :: rm.encode Reg8.sel 0 ++ [imm]
  | .subRm8Imm8 rm imm => 0x80 :: rm.encode Reg8.sel 5 ++ [imm]
  | .sub7Rm8Imm8 rm imm => 0x80 :: rm.encode Reg8.sel 7 ++ [imm]
  | .addRmImm rm imm => 0x81 :: rm.encode Reg.sel 0 ++ encodeImm o16 imm
  | .subRmImm rm imm => 0x81 :: rm.encode Reg.sel 5 ++ encodeImm o16 imm
  | .sub7RmImm rm imm => 0x81 :: rm.encode Reg.sel 7 ++ encodeImm o16 imm
  | .addRm8Imm8s rm imm => 0x82 :: rm.encode Reg8.sel 0 ++ [imm]
  | .subRm8Imm8s rm imm => 0x82 :: rm.encode Reg8.sel 5 ++ [imm]
  | .sub7Rm8Imm8s rm imm => 0x82 :: rm.encode Reg8.sel 7 ++ [imm]
  | .addRmImm8 rm imm => 0x83 :: rm.encode Reg.sel 0 ++ [imm]
  | .subRmImm8 rm imm => 0x83 :: rm.encode Reg.sel 5 ++ [imm]
  | .sub7RmImm8 rm imm => 0x83 :: rm.encode Reg.sel 7 ++ [imm]
  | .movRm8R8 rm r => 0x88 :: rm.encode Reg8.sel r.sel
  | .movRmR rm r => 0x89 :: rm.encode Reg.sel r.sel
  | .movR8Rm8 r rm => 0x8A :: rm.encode Reg8.sel r.sel
  | .movRRm r rm => 0x8B :: rm.encode Reg.sel r.sel
  | .nop => [0x90]
  | .movR8Imm8 r imm => [opcodeReg 0xB0 r.sel, imm]
  | .movRImm r imm => opcodeReg 0xB8 r.sel :: encodeImm o16 imm
  | .ret => [0xC3]
  | .movRm8Imm8 rm imm => 0xC6 :: rm.encode Reg8.sel 0 ++ [imm]
  | .movRmImm rm imm => 0xC7 :: rm.encode Reg.sel 0 ++ encodeImm o16 imm
  | .intImm8 id => [0xCD, id]
  | .loopRel8 rel => [0xE2, rel]
  | .callRel rel => 0xE8 :: encodeImm o16 rel
  | .jmpRel rel => 0xE9 :: encodeImm o16 rel
  | .jmpRel8 rel => [0xEB, rel]
  | .hlt => [0xF4]

/-- The bytes of an instruction, lowest address first (R81). -/
def encode : Instr → List Byte
  | .o16 i => 0x66 :: encodeBody true i
  | i => encodeBody false i

/-! ### The opcode table's numbers -/

/-- The longest instruction, in bytes (R82). -/
def maxInstrBytes : Nat := 11

/-- The `n` bytes of a number whose most significant byte comes first in memory. -/
def beBytes : Nat → Nat → List Byte
  | 0, _ => []
  | n + 1, v => BitVec.ofNat 8 (v / 256 ^ n) :: beBytes n v

/-- The bytes of a table number: a two-byte row is numbered "opcode most significant" (R96), and the bytes after the
number's own are zero (log 1). -/
def tableBytes (nbits w : Nat) : List Byte :=
  (beBytes (nbits / 8) w ++ List.replicate maxInstrBytes 0).take maxInstrBytes

/-- The instruction the decoder reads from a table number. -/
def decodeTableWord (nbits w : Nat) : Option Instr :=
  match decodeBytes (tableBytes nbits w) with
  | .ok (i, _) => some i
  | .error _ => none

end Sys2Proof
end

