-- ==== Sys2Proof/Config.lean ====
section
/-! DEFINITION. What an implementation fixes for a run (00_scope.md R7) and the one free value the spec leaves open
(44_system.md R230). The parameters are plain data that State carries, so every statement over all states is a
statement over all of their values (log 6). -/

namespace Sys2Proof

/-- `ZF_MODE` (R7, R142): ZF from equality of the raw operands, or from a zero result. -/
inductive ZfMode where
  | operandEquality
  | resultZero
deriving DecidableEq, Repr

/-- `ESP_PUSH_VALUE` (R7, D17): the ESP value PUSH ESP and PUSHA push, before or after that push's decrement. -/
inductive EspPushValue where
  | before
  | after
deriving DecidableEq, Repr

/-- `POP_ESP_RESULT` (R7, D18): ESP after POP ESP, the popped value or that value plus the step. -/
inductive PopEspResult where
  | popped
  | poppedPlusStep
deriving DecidableEq, Repr

/-- The OPEN parameters of R7 that stay fixed during a run. -/
structure Config where
  /-- `MEM_SIZE`: the bytes of the store, with 0 < MEM_SIZE <= 2^32 (R7, R50). -/
  memSize : Nat
  zfMode : ZfMode
  /-- `HAS_READ_SYSCALL` (R7, D25). -/
  hasReadSyscall : Bool
  espPushValue : EspPushValue
  popEspResult : PopEspResult
deriving DecidableEq, Repr

/-- The range R7 gives `MEM_SIZE`. -/
abbrev Config.wf (c : Config) : Prop := 0 < c.memSize ∧ c.memSize ≤ 4294967296

/-- The defaults R7 recommends; `MEM_SIZE`, which has none, is the whole 32-bit address space
(DESIGN CHOICE, unsafe, log 6). -/
def Config.default : Config where
  memSize := 4294967296
  zfMode := .operandEquality
  hasReadSyscall := true
  espPushValue := .before
  popEspResult := .popped

/-- The free value EAX takes after a read or write syscall: "a value the model draws freely" (R230, D26, log 11).
It has no body, so nothing can be proved of any of its values. -/
opaque Config.freeWord : Nat → Word

end Sys2Proof
end

