-- ==== Sys2Proof/Machine/State.lean ====
section
/-! DEFINITION. The state of the core (10_state.md), the reasons a step can stop, and the state after reset. -/

namespace Sys2Proof.Machine

/-- Why the machine stops. The first four are the fatal failures of 60_exceptions.md R251 with the info R250
records; each is the spec's own end of the run, so stopping there is safe (log 4). -/
inductive Fault where
  /-- Code 1, any fetch, operand, stack or block access past the store; `addr` is the first address of the access. -/
  | outOfBounds (addr : Word)
  /-- Code 2, the decoder, for a byte sequence without a row; `b` is the opcode byte. -/
  | unimplementedOpcode (b : Byte)
  /-- Code 3, INT with an id other than 80. -/
  | unimplementedInterrupt (id : Byte)
  /-- Code 4, INT 80 with an EAX that selects no syscall. -/
  | unknownSyscall (eax : Word)
  /-- The step function, in a state whose status is not Running: it has no further step (R10). Safe (log 5). -/
  | notRunning
deriving DecidableEq, Repr

/-- Why an instruction has no meaning here. No arm of exec answers it: every instruction of the table has its
meaning. -/
inductive Refusal where
  /-- Raised by exec alone, for an instruction without a meaning yet; safe. -/
  | notModelled (mnemonic : String)
deriving DecidableEq, Repr

/-- The engine status (R37). A step answers `failed` as a fault, never as a next state (R250, log 4). -/
inductive Status where
  | running
  | halted
  | exited (code : Word)
  | failed (reason : Fault)
deriving DecidableEq, Repr

/-- What the host's standard input answers a read with: a line without its newline, or end of input (R229). -/
inductive HostLine where
  | line (bytes : List Byte)
  | eof
deriving DecidableEq, Repr

/-- The eight general-purpose slots (R20, R21). -/
structure Regs where
  eax : Word
  ecx : Word
  edx : Word
  ebx : Word
  esp : Word
  ebp : Word
  esi : Word
  edi : Word
deriving DecidableEq, Repr

/-- The store's contents: cells in rising address order, none of them zero, which an unlisted address reads as. -/
abbrev Memory := List Host.Cell

/-- The state of the core. -/
structure State where
  /-- R20, R21. -/
  regs : Regs
  /-- The instruction pointer and fetch cursor (R27, R28). -/
  ip : Word
  /-- The flags slot: CF is bit 0, ZF bit 6, the rest reserved (R30, R31). -/
  flags : Word
  /-- The operand-size latch, clear between instructions (R38). -/
  o16 : Bool
  status : Status
  /-- The store, 20_memory.md R50. -/
  mem : Memory
  /-- The bytes written so far to the host's standard output (R40). -/
  output : List Byte
  /-- What the host's standard input still has to give; past its end, end of input (R40, log 10). -/
  input : List HostLine
  /-- The model's own: how many free values have been drawn (log 11). -/
  draws : Nat
  /-- The parameters fixed for the run (00_scope.md R7, log 6). -/
  cfg : Config
deriving DecidableEq, Repr

/-- The state at the start of a run (70_reset_and_hazards.md R280, 10_state.md R41): every slot zero but ESP and IP,
which the process boundary and the loader install. `mem` is the store after loading. -/
def State.launch (cfg : Config) (mem : Memory) (entry initialEsp : Word) (input : List HostLine) : State where
  regs := { eax := 0, ecx := 0, edx := 0, ebx := 0, esp := initialEsp, ebp := 0, esi := 0, edi := 0 }
  ip := entry
  flags := 0
  o16 := false
  status := .running
  mem := mem
  output := []
  input := input
  draws := 0
  cfg := cfg

/-- The launch with the model's values for the parameters the spec leaves open: a zero store of 2^32 bytes, ENTRY 0,
INITIAL_ESP 0, no host input (DESIGN CHOICE, logs 6, 7, 8, 10). -/
def State.reset : State := State.launch Config.default [] 0 0 []

end Sys2Proof.Machine
end

