-- ==== Sys2Proof/Machine/Ops.lean ====
section
/-! DEFINITION. The named operations over registers, memory, the stack and the instruction stream. -/

namespace Sys2Proof

/-- `trunc_W`, as a zero-extended word (R12). -/
def Width.trunc (w : Width) (v : Word) : Word :=
  match w with
  | .w8 => (v.setWidth 8).setWidth 32
  | .w16 => (v.setWidth 16).setWidth 32
  | .w32 => v

/-- `sext_32` of a value of this width (R12). -/
def Width.sext (w : Width) (v : Word) : Word :=
  match w with
  | .w8 => (v.setWidth 8).signExtend 32
  | .w16 => (v.setWidth 16).signExtend 32
  | .w32 => v

end Sys2Proof

namespace Sys2Proof.Machine

open Host (Outcome)

/-! ### Failing (60_exceptions.md R250) -/

/-- `raise Failed(reason, info)`: the one error mechanism; nothing after it happens and nothing is undone (R252).
There is no exception entry and no return from one on this core (R253, R256, R257). -/
def raise {α : Type} (reason : Fault) : Except Fault α := .error reason

/-- The outcome of an instruction: its next state, or the failure it raised. -/
def finish : Except Fault State → Outcome State Fault Refusal
  | .ok s => .next s
  | .error r => .fault r

/-- The spec's numbering of the failure reasons (R251); `notRunning` is none of them. -/
def Fault.code : Fault → Option Nat
  | .outOfBounds _ => some 1
  | .unimplementedOpcode _ => some 2
  | .unimplementedInterrupt _ => some 3
  | .unknownSyscall _ => some 4
  | .notRunning => none

/-! ### General-purpose slots (10_state.md R20, R21) -/

/-- `x[i]`. -/
def Regs.get (x : Regs) : Reg → Word
  | .eax => x.eax
  | .ecx => x.ecx
  | .edx => x.edx
  | .ebx => x.ebx
  | .esp => x.esp
  | .ebp => x.ebp
  | .esi => x.esi
  | .edi => x.edi

/-- `x[i] <- v`. -/
def Regs.set (x : Regs) (r : Reg) (v : Word) : Regs :=
  match r with
  | .eax => { x with eax := v }
  | .ecx => { x with ecx := v }
  | .edx => { x with edx := v }
  | .ebx => { x with ebx := v }
  | .esp => { x with esp := v }
  | .ebp => { x with ebp := v }
  | .esi => { x with esi := v }
  | .edi => { x with edi := v }

def State.reg (s : State) (r : Reg) : Word := s.regs.get r

def State.setReg (s : State) (r : Reg) (v : Word) : State := { s with regs := s.regs.set r v }

/-! ### The store (20_memory.md R50 to R56) -/

/-- What an unlisted address reads as (log 7). -/
def Memory.blank : Byte := 0

/-- The byte at an address. -/
def Memory.read : Memory → Nat → Byte
  | [], _ => Memory.blank
  | c :: m, a => if c.1 = a then c.2 else Memory.read m a

/-- Writing one byte; the list stays in canonical form. -/
def Memory.write : Memory → Nat → Byte → Memory
  | [], a, v => if v = Memory.blank then [] else [(a, v)]
  | c :: m, a, v =>
    if a < c.1 then
      if v = Memory.blank then c :: m else (a, v) :: c :: m
    else if a = c.1 then
      if v = Memory.blank then m else (a, v) :: m
    else c :: Memory.write m a v

/-- The canonical form: addresses strictly rising, no cell equal to what an unlisted address reads as. -/
abbrev Memory.wf (m : Memory) : Prop :=
  List.Pairwise (fun c d : Host.Cell => c.1 < d.1) m ∧ ∀ c ∈ m, c.2 ≠ Memory.blank

/-- Every listed cell lies in a store of `size` bytes (R50). -/
abbrev Memory.within (m : Memory) (size : Nat) : Prop := ∀ c ∈ m, c.1 < size

/-- The `n` bytes from address `a` up. -/
def Memory.bytes (m : Memory) (a : Nat) : Nat → List Byte
  | 0 => []
  | n + 1 => m.read a :: Memory.bytes m (a + 1) n

/-- The byte string `bs` written from address `a` up. -/
def Memory.writeBytes (m : Memory) (a : Nat) : List Byte → Memory
  | [] => m
  | b :: bs => Memory.writeBytes (m.write a b) (a + 1) bs

/-- The bounds check: the sum is a mathematical integer, without wrap (R56, D22). -/
def State.inBounds (s : State) (a : Word) (n : Nat) : Bool := a.toNat + n ≤ s.cfg.memSize

/-- `MemRead(addr, n)` (R53). -/
def memRead (s : State) (a : Word) (w : Width) : Except Fault Word :=
  if s.inBounds a w.bytes then .ok (leWord (s.mem.bytes a.toNat w.bytes)) else raise (.outOfBounds a)

/-- `MemWrite(addr, n, v)` (R54): the low bytes of `v`, or nothing when the check fails. -/
def memWrite (a : Word) (w : Width) (v : Word) (s : State) : Except Fault State :=
  if s.inBounds a w.bytes then .ok { s with mem := s.mem.writeBytes a.toNat (leBytes w.bytes v.toNat) }
  else raise (.outOfBounds a)

/-- `BlockRead(addr, len)` (R55): the whole range is checked first, and length 0 never fails (D37). -/
def blockRead (s : State) (a : Word) (len : Nat) : Except Fault (List Byte) :=
  if len = 0 ∨ s.inBounds a len then .ok (s.mem.bytes a.toNat len) else raise (.outOfBounds a)

/-- `BlockWrite(addr, bytes)` (R55, D37). -/
def blockWrite (a : Word) (bs : List Byte) (s : State) : Except Fault State :=
  if bs.length = 0 ∨ s.inBounds a bs.length then .ok { s with mem := s.mem.writeBytes a.toNat bs }
  else raise (.outOfBounds a)

/-! ### Operand size (00_scope.md R13) -/

/-- `W` of a `w = 1` instruction, and `S`: 16 under the operand-size latch, 32 without. -/
def State.width (s : State) : Width := immWidth s.o16

/-- The step of the stack pointer, `S/8`, as a word (43_stack.md R200). -/
def State.stackStep (s : State) : Word := BitVec.ofNat 32 s.width.bytes

/-! ### The stack (43_stack.md R200, R201) -/

/-- `Push(S, v)`: the address is ESP lowered by the step; ESP moves only when the write succeeds. -/
def push (v : Word) (s : State) : Except Fault State := do
  let a := s.reg .esp - s.stackStep
  let t ← memWrite a s.width v s
  return t.setReg .esp a

/-- `Pop(S)`: the value at ESP, and the state with ESP raised by the step. -/
def pop (s : State) : Except Fault (Word × State) := do
  let v ← memRead s (s.reg .esp) s.width
  return (v, s.setReg .esp (s.reg .esp + s.stackStep))

/-! ### Host output, input and free values (44_system.md R229, R230) -/

/-- `Out(bytes)`. -/
def State.out (s : State) (bs : List Byte) : State := { s with output := s.output ++ bs }

/-- `InLine()`: the next answer of the host's input; past its end, end of input (log 10). -/
def State.inLine (s : State) : HostLine × State :=
  match s.input with
  | [] => (.eof, s)
  | l :: rest => (l, { s with input := rest })

/-- `x[0] <- draw`: a value nothing constrains (D26, log 11). -/
def State.drawEax (s : State) : State :=
  { s with regs := s.regs.set .eax (Config.freeWord s.draws), draws := s.draws + 1 }

/-! ### The instruction stream (30_encoding.md R80) -/

/-- What `Fetch` reads from the store: `MemRead` at the cursor. -/
def State.fetch (s : State) : Fetch := fun a w =>
  match memRead s a w with
  | .ok v => some v
  | .error _ => none

/-- The byte string `bs` laid where a fetch cursor starting at `ip` reads it: addresses wrap as the cursor does
(10_state.md R29). -/
def placeBytes (m : Memory) (ip : Word) : List Byte → Memory
  | [] => m
  | b :: bs => placeBytes (m.write ip.toNat b) (ip + 1) bs

/-- The instruction at IP and the address after its last byte. -/
def State.decodeHere (s : State) : Except DecodeError (Instr × Word) := decode s.fetch s.ip

/-- The state in which an instruction whose last byte precedes `ip` runs: all its bytes fetched (R28), the latch
clear (R83). -/
def State.fetched (s : State) (ip : Word) : State := { s with ip := ip, o16 := false }

end Sys2Proof.Machine
end

