-- ==== Sys2Proof/Machine/Operands.lean ====
section
/-! DEFINITION. Register views (10_state.md R22 to R24), effective addresses (30_encoding.md R89) and the operand
access layer (20_memory.md R68, R69). -/

namespace Sys2Proof

/-- The slot an 8-bit sub-register lies in (R22). -/
def Reg8.slot : Reg8 → Reg
  | .al | .ah => .eax
  | .cl | .ch => .ecx
  | .dl | .dh => .edx
  | .bl | .bh => .ebx

/-- Whether the sub-register is bits 15:8 of its slot (R22). -/
def Reg8.isHigh : Reg8 → Bool
  | .al | .cl | .dl | .bl => false
  | .ah | .ch | .dh | .bh => true

/-- The displacement as a word: an 8-bit one sign-extended (R90). -/
def Disp.value : Disp → Word
  | .none => 0
  | .d8 d => d.signExtend 32
  | .d32 d => d

end Sys2Proof

namespace Sys2Proof.Machine

/-! ### Register views -/

/-- A register reference: the 32-bit, 16-bit or 8-bit view it names (R22). -/
inductive RegRef where
  | r32 (r : Reg)
  | r16 (r : Reg)
  | r8 (r : Reg8)
deriving DecidableEq, Repr

/-- `ref(wide, is16, i)`, the spec's encoded triple (R22). -/
def RegRef.ofTriple (wide is16 : Bool) (i : BitVec 3) : RegRef :=
  match wide, is16 with
  | true, false => .r32 (Reg.ofSel i)
  | true, true => .r16 (Reg.ofSel i)
  | false, _ => .r8 (Reg8.ofSel i)

/-- `ref(1, o16, i)`. -/
def State.wideRef (s : State) (r : Reg) : RegRef := if s.o16 then .r16 r else .r32 r

/-- The slot a view is a part of. -/
def RegRef.slot : RegRef → Reg
  | .r32 r => r
  | .r16 r => r
  | .r8 r => r.slot

/-- The width of a view. -/
def RegRef.width : RegRef → Width
  | .r32 _ => .w32
  | .r16 _ => .w16
  | .r8 _ => .w8

/-- The first bit of a view in its slot (R22). -/
def RegRef.start : RegRef → Nat
  | .r32 _ => 0
  | .r16 _ => 0
  | .r8 r => if r.isHigh then 8 else 0

/-- Bits 15:8 replaced. -/
def mergeHigh (old : Word) (b : Byte) : Word := (old.extractLsb' 16 16 ++ b ++ old.extractLsb' 0 8 : BitVec 32)

/-- Bits 7:0 replaced. -/
def mergeLow (old : Word) (b : Byte) : Word := (old.extractLsb' 8 24 ++ b : BitVec 32)

/-- Bits 15:0 replaced. -/
def mergeHalf (old : Word) (h : BitVec 16) : Word := (old.extractLsb' 16 16 ++ h : BitVec 32)

/-- `get(ref)`: the view, zero-extended (R23). -/
def State.get (s : State) : RegRef → Word
  | .r32 r => s.reg r
  | .r16 r => ((s.reg r).extractLsb' 0 16).setWidth 32
  | .r8 r =>
    if r.isHigh then ((s.reg r.slot).extractLsb' 8 8).setWidth 32
    else ((s.reg r.slot).extractLsb' 0 8).setWidth 32

/-- `set(ref, v)`: the view written with `v` truncated, every other bit of the slot kept (R24). -/
def State.set (s : State) (ref : RegRef) (v : Word) : State :=
  match ref with
  | .r32 r => s.setReg r v
  | .r16 r => s.setReg r (mergeHalf (s.reg r) (v.setWidth 16))
  | .r8 r =>
    if r.isHigh then s.setReg r.slot (mergeHigh (s.reg r.slot) (v.setWidth 8))
    else s.setReg r.slot (mergeLow (s.reg r.slot) (v.setWidth 8))

/-! ### Effective addresses -/

/-- The scaled index term; index ESP is the "no index" escape (R88, R89). -/
def State.scaledIndex (s : State) (scale : BitVec 2) (index : Reg) : Word :=
  if index = .esp then 0 else s.reg index <<< scale.toNat

/-- `ResolveEA`, over full 32-bit slots and modulo 2^32; the index term is added on the disp32 path too
(R89, R58, D12, C1). -/
def State.resolve (s : State) : Addr → Word
  | .base d b => s.reg b + d.value
  | .abs d => d
  | .sib d scale index b => s.reg b + d.value + s.scaledIndex scale index
  | .sibAbs scale index d => d + s.scaledIndex scale index

/-! ### Operand locations -/

/-- An operand location (R68). -/
inductive Loc where
  | reg (r : RegRef)
  | mem (a : Word)
deriving DecidableEq, Repr

/-- `DecodeRM` for `w = 0`, resolved once (R69, R70). -/
def State.loc8 (s : State) : RM Reg8 → Loc
  | .reg r => .reg (.r8 r)
  | .mem a => .mem (s.resolve a)

/-- `DecodeRM` for `w = 1`. -/
def State.locW (s : State) : RM Reg → Loc
  | .reg r => .reg (s.wideRef r)
  | .mem a => .mem (s.resolve a)

/-- `ReadLoc` (R68). -/
def readLoc (s : State) (l : Loc) (w : Width) : Except Fault Word :=
  match l with
  | .reg r => .ok (s.get r)
  | .mem a => memRead s a w

/-- `WriteLoc` (R68). -/
def writeLoc (l : Loc) (w : Width) (v : Word) (s : State) : Except Fault State :=
  match l with
  | .reg r => .ok (s.set r v)
  | .mem a => memWrite a w v s

/-! ### Failures of the instruction stream -/

/-- What a step that could not decode raises, in pseudocode order (R255): a read of the 80-83 operand comes before
the fetch of its immediate (R147). -/
def State.decodeFault (s : State) : DecodeError → Fault
  | .unimplemented b => .unimplementedOpcode b
  | .outOfBounds a none => .outOfBounds a
  | .outOfBounds a (some (m, w)) =>
    match memRead s (s.resolve m) w with
    | .error r => r
    | .ok _ => .outOfBounds a

end Sys2Proof.Machine
end

