-- ==== Sys2Proof/Machine/Flags.lean ====
section
/-! DEFINITION. The flags slot (10_state.md R30 to R33) and the ALU operations that write it (41_arithmetic.md R140
to R142). -/

namespace Sys2Proof.Machine

/-- The two defined flags (R30). -/
inductive Flag where
  | cf
  | zf
deriving DecidableEq, Repr

/-- Bit positions in the flags slot (R31). -/
def Flag.pos : Flag → Nat
  | .cf => 0
  | .zf => 6

/-- `getFlag` (R32). -/
def State.getFlag (s : State) (f : Flag) : Bool := s.flags.getLsbD f.pos

/-- The flags slot with one bit replaced. -/
def putBit (v : Word) (n : Nat) (b : Bool) : Word :=
  if b then v ||| ((1 : Word) <<< n) else v &&& ~~~((1 : Word) <<< n)

/-- `setFlag`: one bit, the others undisturbed (R32). -/
def State.setFlag (s : State) (f : Flag) (b : Bool) : State := { s with flags := putBit s.flags f.pos b }

/-- `AluAdd(W, a, b)`: the wrapped sum, and CF when it is below the first operand (R140). -/
def aluAdd (w : Width) (a b : Word) : Word × Bool :=
  let r := w.trunc (a + b)
  (r, decide (r.toNat < a.toNat))

/-- `AluSub(W, a, b)`: the wrapped difference, and CF when the subtrahend exceeds the minuend (R141). -/
def aluSub (w : Width) (a b : Word) : Word × Bool :=
  (w.trunc (a - b), decide (b.toNat > a.toNat))

/-- `ZfOf(a, b, r)` under `ZF_MODE` (R142, D8). -/
def zfOf (m : ZfMode) (a b r : Word) : Bool :=
  match m with
  | .operandEquality => a == b
  | .resultZero => r == 0

/-- `CF <- c; ZF <- z` (R143, R147). -/
def State.setCfZf (s : State) (c z : Bool) : State := (s.setFlag .cf c).setFlag .zf z

end Sys2Proof.Machine
end

