-- ==== Sys2Proof/Machine/ControlTransfer.lean ====
section
/-! DEFINITION. JZ, JNZ, LOOP, CALL, JMP, RET (42_control_transfer.md R180 to R191). A meaning runs with IP already
past the instruction's last byte (R180, log 3). No instruction of this file writes CF or ZF. -/

namespace Sys2Proof.Machine

open Host (Outcome)

/-- The target of a byte displacement: IP after the instruction plus its sign extension, modulo 2^32 (R180). -/
def State.target8 (s : State) (rel : Byte) : Word := s.ip + rel.signExtend 32

/-- The target of a displacement of `S` bits (R180, R95). -/
def State.targetS (s : State) (rel : Word) : Word := s.ip + s.width.sext rel

/-- `IP <- target`. -/
def State.jump (s : State) (target : Word) : State := { s with ip := target }

/-- `IP <- target`, masked to 16 bits under the latch (R190, D15). -/
def State.jumpS (s : State) (target : Word) : State := s.jump (s.width.trunc target)

/-- 74 (R181): the prefix has no effect (D14). -/
def execJz (rel : Byte) (s : State) : Outcome State Fault Refusal :=
  finish (.ok (if s.getFlag .zf then s.jump (s.target8 rel) else s))

/-- 75 (R182). -/
def execJnz (rel : Byte) (s : State) : Outcome State Fault Refusal :=
  finish (.ok (if s.getFlag .zf then s else s.jump (s.target8 rel)))

/-- E2 (R183): the counter is all 32 bits of ECX whether or not the prefix is present (D13). -/
def execLoopRel8 (rel : Byte) (s : State) : Outcome State Fault Refusal :=
  let count := s.reg .ecx - 1
  let t := s.setReg .ecx count
  finish (.ok (if count = 0 then t else t.jump (t.target8 rel)))

/-- E8 (R185): the return address pushed is IP after the displacement (C6). -/
def execCallRel (rel : Word) (s : State) : Outcome State Fault Refusal :=
  let target := s.targetS rel
  finish (do
    let t ← push s.ip s
    return t.jumpS target)

/-- E9 (R186). -/
def execJmpRel (rel : Word) (s : State) : Outcome State Fault Refusal :=
  finish (.ok (s.jumpS (s.targetS rel)))

/-- EB (R187). -/
def execJmpRel8 (rel : Byte) (s : State) : Outcome State Fault Refusal :=
  finish (.ok (s.jumpS (s.target8 rel)))

/-- C3 (R189): a popped 16-bit value is zero-extended (D16). -/
def execRet (s : State) : Outcome State Fault Refusal :=
  finish (do
    let (v, t) ← pop s
    return t.jump v)

end Sys2Proof.Machine
end

