-- ==== Sys2Proof/Machine/DataMovement.lean ====
section
/-! DEFINITION. MOV (40_data_movement.md R120 to R127). No instruction of this file writes CF or ZF. -/

namespace Sys2Proof.Machine

open Host (Outcome)

/-- MOV to a register from the r/m operand: the read precedes the register write (R126, R127). -/
def movToReg (ref : RegRef) (l : Loc) (w : Width) (s : State) : Except Fault State := do
  let v ← readLoc s l w
  return s.set ref v

/-- B0+r (R120). -/
def execMovR8Imm8 (r : Reg8) (imm : Byte) (s : State) : Outcome State Fault Refusal :=
  finish (.ok (s.set (.r8 r) (imm.setWidth 32)))

/-- B8+r (R121). -/
def execMovRImm (r : Reg) (imm : Word) (s : State) : Outcome State Fault Refusal :=
  finish (.ok (s.set (s.wideRef r) imm))

/-- C6 /0 (R122). -/
def execMovRm8Imm8 (rm : RM Reg8) (imm : Byte) (s : State) : Outcome State Fault Refusal :=
  finish (writeLoc (s.loc8 rm) .w8 (imm.setWidth 32) s)

/-- C7 /0 (R123). -/
def execMovRmImm (rm : RM Reg) (imm : Word) (s : State) : Outcome State Fault Refusal :=
  finish (writeLoc (s.locW rm) s.width imm s)

/-- 88 /r (R124). -/
def execMovRm8R8 (rm : RM Reg8) (r : Reg8) (s : State) : Outcome State Fault Refusal :=
  finish (writeLoc (s.loc8 rm) .w8 (s.get (.r8 r)) s)

/-- 89 /r (R125). -/
def execMovRmR (rm : RM Reg) (r : Reg) (s : State) : Outcome State Fault Refusal :=
  finish (writeLoc (s.locW rm) s.width (s.get (s.wideRef r)) s)

/-- 8A /r (R126). -/
def execMovR8Rm8 (r : Reg8) (rm : RM Reg8) (s : State) : Outcome State Fault Refusal :=
  finish (movToReg (.r8 r) (s.loc8 rm) .w8 s)

/-- 8B /r (R127). -/
def execMovRRm (r : Reg) (rm : RM Reg) (s : State) : Outcome State Fault Refusal :=
  finish (movToReg (s.wideRef r) (s.locW rm) s.width s)

end Sys2Proof.Machine
end

