-- ==== Sys2Proof/Machine/Arithmetic.lean ====
section
/-! DEFINITION. ADD, SUB, INC, DEC (41_arithmetic.md R143 to R162). -/

namespace Sys2Proof.Machine

open Host (Outcome)

/-! ### ADD r/m with register (R143 to R146, D10) -/

/-- Destination the r/m operand: operand 1 is the register, operand 2 the location, resolved once (R143, R70). -/
def addToLoc (l : Loc) (w : Width) (ref : RegRef) (s : State) : Except Fault State := do
  let a := s.get ref
  let b ← readLoc s l w
  let (r, c) := aluAdd w a b
  let t ← writeLoc l w r s
  return t.setCfZf c (zfOf s.cfg.zfMode a b r)

/-- Destination the register: operand 1 is the register, operand 2 the location (R145). -/
def addToReg (ref : RegRef) (l : Loc) (w : Width) (s : State) : Except Fault State := do
  let a := s.get ref
  let b ← readLoc s l w
  let (r, c) := aluAdd w a b
  return (s.set ref r).setCfZf c (zfOf s.cfg.zfMode a b r)

/-- 00 /r (R143). -/
def execAddRm8R8 (rm : RM Reg8) (r : Reg8) (s : State) : Outcome State Fault Refusal :=
  finish (addToLoc (s.loc8 rm) .w8 (.r8 r) s)

/-- 01 /r (R144). -/
def execAddRmR (rm : RM Reg) (r : Reg) (s : State) : Outcome State Fault Refusal :=
  finish (addToLoc (s.locW rm) s.width (s.wideRef r) s)

/-- 02 /r (R145). -/
def execAddR8Rm8 (r : Reg8) (rm : RM Reg8) (s : State) : Outcome State Fault Refusal :=
  finish (addToReg (.r8 r) (s.loc8 rm) .w8 s)

/-- 03 /r (R146). -/
def execAddRRm (r : Reg) (rm : RM Reg) (s : State) : Outcome State Fault Refusal :=
  finish (addToReg (s.wideRef r) (s.locW rm) s.width s)

/-! ### ADD and SUB r/m with immediate (R147 to R159) -/

/-- The group procedure after its fetches: the location is the first operand and the destination, for sub-opcode 7
too (R147, D7); ZF compares the operands the ALU sees (R142, D9). -/
def group1 (alu : Width → Word → Word → Word × Bool) (l : Loc) (w : Width) (imm : Word) (s : State) :
    Except Fault State := do
  let a ← readLoc s l w
  let (r, c) := alu w a imm
  let t ← writeLoc l w r s
  return t.setCfZf c (zfOf s.cfg.zfMode a imm r)

/-- `trunc_W(sext_32(imm8))`, the immediate of an `s = 1` form (R94, R147). -/
def sextImm (w : Width) (imm : Byte) : Word := w.trunc (imm.signExtend 32)

/-- 80 /0 (R148). -/
def execAddRm8Imm8 (rm : RM Reg8) (imm : Byte) (s : State) : Outcome State Fault Refusal :=
  finish (group1 aluAdd (s.loc8 rm) .w8 (imm.setWidth 32) s)

/-- 80 /5 (R149). -/
def execSubRm8Imm8 (rm : RM Reg8) (imm : Byte) (s : State) : Outcome State Fault Refusal :=
  finish (group1 aluSub (s.loc8 rm) .w8 (imm.setWidth 32) s)

/-- 80 /7 (R150). -/
def execSub7Rm8Imm8 (rm : RM Reg8) (imm : Byte) (s : State) : Outcome State Fault Refusal :=
  finish (group1 aluSub (s.loc8 rm) .w8 (imm.setWidth 32) s)

/-- 81 /0 (R151). -/
def execAddRmImm (rm : RM Reg) (imm : Word) (s : State) : Outcome State Fault Refusal :=
  finish (group1 aluAdd (s.locW rm) s.width (s.width.trunc imm) s)

/-- 81 /5 (R152). -/
def execSubRmImm (rm : RM Reg) (imm : Word) (s : State) : Outcome State Fault Refusal :=
  finish (group1 aluSub (s.locW rm) s.width (s.width.trunc imm) s)

/-- 81 /7 (R153). -/
def execSub7RmImm (rm : RM Reg) (imm : Word) (s : State) : Outcome State Fault Refusal :=
  finish (group1 aluSub (s.locW rm) s.width (s.width.trunc imm) s)

/-- 82 /0 (R154): the sign extension to 8 bits is the identity. -/
def execAddRm8Imm8s (rm : RM Reg8) (imm : Byte) (s : State) : Outcome State Fault Refusal :=
  finish (group1 aluAdd (s.loc8 rm) .w8 (sextImm .w8 imm) s)

/-- 82 /5 (R155). -/
def execSubRm8Imm8s (rm : RM Reg8) (imm : Byte) (s : State) : Outcome State Fault Refusal :=
  finish (group1 aluSub (s.loc8 rm) .w8 (sextImm .w8 imm) s)

/-- 82 /7 (R156). -/
def execSub7Rm8Imm8s (rm : RM Reg8) (imm : Byte) (s : State) : Outcome State Fault Refusal :=
  finish (group1 aluSub (s.loc8 rm) .w8 (sextImm .w8 imm) s)

/-- 83 /0 (R157). -/
def execAddRmImm8 (rm : RM Reg) (imm : Byte) (s : State) : Outcome State Fault Refusal :=
  finish (group1 aluAdd (s.locW rm) s.width (sextImm s.width imm) s)

/-- 83 /5 (R158). -/
def execSubRmImm8 (rm : RM Reg) (imm : Byte) (s : State) : Outcome State Fault Refusal :=
  finish (group1 aluSub (s.locW rm) s.width (sextImm s.width imm) s)

/-- 83 /7 (R159). -/
def execSub7RmImm8 (rm : RM Reg) (imm : Byte) (s : State) : Outcome State Fault Refusal :=
  finish (group1 aluSub (s.locW rm) s.width (sextImm s.width imm) s)

/-! ### INC and DEC (R161, R162): no flags (D11) -/

/-- 40+r (R161). -/
def execIncR (r : Reg) (s : State) : Outcome State Fault Refusal :=
  finish (.ok (s.set (s.wideRef r) (s.width.trunc (s.get (s.wideRef r) + 1))))

/-- 48+r (R162). -/
def execDecR (r : Reg) (s : State) : Outcome State Fault Refusal :=
  finish (.ok (s.set (s.wideRef r) (s.width.trunc (s.get (s.wideRef r) - 1))))

end Sys2Proof.Machine
end

