-- ==== Sys2Proof/Machine/Stack.lean ====
section
/-! DEFINITION. PUSH, POP, PUSHA, POPA (43_stack.md R202 to R207). No instruction of this file writes CF or ZF. -/

namespace Sys2Proof.Machine

open Host (Outcome)

/-- The value PUSH pushes for a register: for ESP, `ESP_PUSH_VALUE` selects the value before or after the
decrement (R202, D17). -/
def State.pushValue (s : State) (r : Reg) : Word :=
  if r = .esp ∧ s.cfg.espPushValue = .after then s.width.trunc (s.reg .esp - s.stackStep) else s.get (s.wideRef r)

/-- 50+r (R202). -/
def execPushR (r : Reg) (s : State) : Outcome State Fault Refusal := finish (push (s.pushValue r) s)

/-- The destination write of POP after the pop: for ESP, `POP_ESP_RESULT` selects the popped value or that value plus
the step (R203, D18). -/
def State.popInto (s : State) (r : Reg) (v : Word) : State :=
  if r = .esp ∧ s.cfg.popEspResult = .poppedPlusStep then s.set (s.wideRef .esp) (v + s.stackStep)
  else s.set (s.wideRef r) v

/-- 58+r (R203). -/
def execPopR (r : Reg) (s : State) : Outcome State Fault Refusal :=
  finish (do
    let (v, t) ← pop s
    return t.popInto r v)

/-- 68 (R204). -/
def execPushImm (imm : Word) (s : State) : Outcome State Fault Refusal := finish (push imm s)

/-- 6A (R205). -/
def execPushImm8 (imm : Byte) (s : State) : Outcome State Fault Refusal := finish (push (sextImm s.width imm) s)

/-- The fixed order PUSHA pushes in (R206). -/
def pushaOrder : List Reg := [.eax, .ecx, .edx, .ebx, .esp, .ebp, .esi, .edi]

/-- The value PUSHA pushes for a register, `esp0` being ESP before the instruction: for ESP, `ESP_PUSH_VALUE` selects
`esp0` or the value after this push's decrement (R206, D17). -/
def State.pushaValue (s : State) (esp0 : Word) (r : Reg) : Word :=
  if r = .esp then
    match s.cfg.espPushValue with
    | .before => s.width.trunc esp0
    | .after => s.width.trunc (s.reg .esp - s.stackStep)
  else s.get (s.wideRef r)

/-- The pushes of PUSHA, one after the other; a failing one ends the instruction (R206, R252). -/
def pushAll (esp0 : Word) : List Reg → State → Except Fault State
  | [], s => .ok s
  | r :: rs, s => do
    let t ← push (s.pushaValue esp0 r) s
    pushAll esp0 rs t

/-- 60 (R206). -/
def execPusha (s : State) : Outcome State Fault Refusal := finish (pushAll (s.reg .esp) pushaOrder s)

/-- The order POPA pops in (R207). -/
def popaOrder : List Reg := [.edi, .esi, .ebp, .esp, .ebx, .edx, .ecx, .eax]

/-- The pops of POPA: the ESP slot is read past and its value discarded (R207, D19). -/
def popAll : List Reg → State → Except Fault State
  | [], s => .ok s
  | r :: rs, s => do
    let (v, t) ← pop s
    popAll rs (if r = .esp then t else t.set (t.wideRef r) v)

/-- 61 (R207). -/
def execPopa (s : State) : Outcome State Fault Refusal := finish (popAll popaOrder s)

end Sys2Proof.Machine
end

