-- ==== Sys2Proof/Machine/System.lean ====
section
/-! DEFINITION. NOP, HLT, INT and the syscall bridge (44_system.md R220 to R230). No instruction of this file writes
CF or ZF, and the prefix has no effect on any of them (D14). -/

namespace Sys2Proof.Machine

open Host (Outcome)

/-- 90 (R220): nothing changes; the fetch has advanced IP. -/
def execNop (s : State) : Outcome State Fault Refusal := finish (.ok s)

/-- F4 (R221): the normal stop `Halted`; the fetch has advanced IP past the opcode (D30). -/
def execHlt (s : State) : Outcome State Fault Refusal := finish (.ok { s with status := .halted })

/-- exit (R225): the normal stop `Exited` with all 32 bits of EBX (D29). -/
def sysExit (s : State) : Except Fault State := .ok { s with status := .exited (s.reg .ebx) }

/-- The bytes a read syscall stores for a host answer: a line that fits keeps its newline, a longer one is cut at
`max`, end of input gives none (R226, D27). -/
def readBytes (answer : HostLine) (max : Nat) : List Byte :=
  match answer with
  | .eof => []
  | .line bytes => if bytes.length < max then bytes ++ [0x0A] else bytes.take max

/-- read (R226): destination ECX, maximum EDX, the file descriptor EBX not used (R224); EAX becomes a free value
(R230). -/
def sysRead (s : State) : Except Fault State := do
  let (answer, t) := s.inLine
  let t ← blockWrite (s.reg .ecx) (readBytes answer (s.reg .edx).toNat) t
  return t.drawEax

/-- write (R227): source ECX, length EDX, the file descriptor EBX not used (R224); EAX becomes a free value (R230). -/
def sysWrite (s : State) : Except Fault State := do
  let bytes ← blockRead s (s.reg .ecx) (s.reg .edx).toNat
  return (s.out bytes).drawEax

/-- `Syscall()`: all 32 bits of EAX select the syscall (R223, R228, D25). -/
def syscall (s : State) : Except Fault State :=
  if s.reg .eax = 1 then sysExit s
  else if s.reg .eax = 3 ∧ s.cfg.hasReadSyscall = true then sysRead s
  else if s.reg .eax = 4 then sysWrite s
  else raise (.unknownSyscall (s.reg .eax))

/-- CD ib (R222): only id 80 is defined; the syscall is performed in place (R256). -/
def execIntImm8 (id : Byte) (s : State) : Outcome State Fault Refusal :=
  finish (if id = 0x80 then syscall s else raise (.unimplementedInterrupt id))

end Sys2Proof.Machine
end

