-- ==== Sys2Proof/Machine/PrefixForm.lean ====
section
/-! DEFINITION. The operand-size prefix 66 (30_encoding.md R83, R84, R104): its instruction runs under the operand-size
latch, which is clear again after it (10_state.md R38). -/

namespace Sys2Proof.Machine

open Host (Outcome)

/-- The meaning of a prefix's body. A second prefix is an opcode without a handler (R84); the decoder has already
failed on it, so no decoded instruction reaches that arm. -/
def execBody (i : Instr) (s : State) : Outcome State Fault Refusal :=
  match i with
  | .o16 _ => finish (raise (.unimplementedOpcode 0x66))
  | .addRm8R8 rm r => execAddRm8R8 rm r s
  | .addRmR rm r => execAddRmR rm r s
  | .addR8Rm8 r rm => execAddR8Rm8 r rm s
  | .addRRm r rm => execAddRRm r rm s
  | .incR r => execIncR r s
  | .decR r => execDecR r s
  | .pushR r => execPushR r s
  | .popR r => execPopR r s
  | .pusha => execPusha s
  | .popa => execPopa s
  | .pushImm imm => execPushImm imm s
  | .pushImm8 imm => execPushImm8 imm s
  | .jz rel => execJz rel s
  | .jnz rel => execJnz rel s
  | .addRm8Imm8 rm imm => execAddRm8Imm8 rm imm s
  | .subRm8Imm8 rm imm => execSubRm8Imm8 rm imm s
  | .sub7Rm8Imm8 rm imm => execSub7Rm8Imm8 rm imm s
  | .addRmImm rm imm => execAddRmImm rm imm s
  | .subRmImm rm imm => execSubRmImm rm imm s
  | .sub7RmImm rm imm => execSub7RmImm rm imm s
  | .addRm8Imm8s rm imm => execAddRm8Imm8s rm imm s
  | .subRm8Imm8s rm imm => execSubRm8Imm8s rm imm s
  | .sub7Rm8Imm8s rm imm => execSub7Rm8Imm8s rm imm s
  | .addRmImm8 rm imm => execAddRmImm8 rm imm s
  | .subRmImm8 rm imm => execSubRmImm8 rm imm s
  | .sub7RmImm8 rm imm => execSub7RmImm8 rm imm s
  | .movRm8R8 rm r => execMovRm8R8 rm r s
  | .movRmR rm r => execMovRmR rm r s
  | .movR8Rm8 r rm => execMovR8Rm8 r rm s
  | .movRRm r rm => execMovRRm r rm s
  | .nop => execNop s
  | .movR8Imm8 r imm => execMovR8Imm8 r imm s
  | .movRImm r imm => execMovRImm r imm s
  | .ret => execRet s
  | .movRm8Imm8 rm imm => execMovRm8Imm8 rm imm s
  | .movRmImm rm imm => execMovRmImm rm imm s
  | .intImm8 id => execIntImm8 id s
  | .loopRel8 rel => execLoopRel8 rel s
  | .callRel rel => execCallRel rel s
  | .jmpRel rel => execJmpRel rel s
  | .jmpRel8 rel => execJmpRel8 rel s
  | .hlt => execHlt s

/-- The latch after the instruction: clear (R38). -/
def clearLatch : Outcome State Fault Refusal → Outcome State Fault Refusal
  | .next t => .next { t with o16 := false }
  | .fault r => .fault r
  | .refused r => .refused r

/-- 66 (R83): record that the instruction uses the 16-bit operand size, run it, and drop the record. -/
def execO16 (i : Instr) (s : State) : Outcome State Fault Refusal :=
  clearLatch (execBody i { s with o16 := true })

end Sys2Proof.Machine
end

