-- ==== Sys2Proof/Machine/Dispatch.lean ====
section
/-! DEFINITION. One arm per constructor of Instr, each a direct call of its meaning. -/

namespace Sys2Proof.Machine

def exec (i : Instr) (s : State) : Host.Outcome State Fault Refusal :=
  match i with
  | .o16 body => Sys2Proof.Machine.execO16 body s
  | .addRm8R8 rm r => Sys2Proof.Machine.execAddRm8R8 rm r s
  | .addRmR rm r => Sys2Proof.Machine.execAddRmR rm r s
  | .addR8Rm8 r rm => Sys2Proof.Machine.execAddR8Rm8 r rm s
  | .addRRm r rm => Sys2Proof.Machine.execAddRRm r rm s
  | .incR r => Sys2Proof.Machine.execIncR r s
  | .decR r => Sys2Proof.Machine.execDecR r s
  | .pushR r => Sys2Proof.Machine.execPushR r s
  | .popR r => Sys2Proof.Machine.execPopR r s
  | .pusha => Sys2Proof.Machine.execPusha s
  | .popa => Sys2Proof.Machine.execPopa s
  | .pushImm imm => Sys2Proof.Machine.execPushImm imm s
  | .pushImm8 imm => Sys2Proof.Machine.execPushImm8 imm s
  | .jz rel => Sys2Proof.Machine.execJz rel s
  | .jnz rel => Sys2Proof.Machine.execJnz rel s
  | .addRm8Imm8 rm imm => Sys2Proof.Machine.execAddRm8Imm8 rm imm s
  | .subRm8Imm8 rm imm => Sys2Proof.Machine.execSubRm8Imm8 rm imm s
  | .sub7Rm8Imm8 rm imm => Sys2Proof.Machine.execSub7Rm8Imm8 rm imm s
  | .addRmImm rm imm => Sys2Proof.Machine.execAddRmImm rm imm s
  | .subRmImm rm imm => Sys2Proof.Machine.execSubRmImm rm imm s
  | .sub7RmImm rm imm => Sys2Proof.Machine.execSub7RmImm rm imm s
  | .addRm8Imm8s rm imm => Sys2Proof.Machine.execAddRm8Imm8s rm imm s
  | .subRm8Imm8s rm imm => Sys2Proof.Machine.execSubRm8Imm8s rm imm s
  | .sub7Rm8Imm8s rm imm => Sys2Proof.Machine.execSub7Rm8Imm8s rm imm s
  | .addRmImm8 rm imm => Sys2Proof.Machine.execAddRmImm8 rm imm s
  | .subRmImm8 rm imm => Sys2Proof.Machine.execSubRmImm8 rm imm s
  | .sub7RmImm8 rm imm => Sys2Proof.Machine.execSub7RmImm8 rm imm s
  | .movRm8R8 rm r => Sys2Proof.Machine.execMovRm8R8 rm r s
  | .movRmR rm r => Sys2Proof.Machine.execMovRmR rm r s
  | .movR8Rm8 r rm => Sys2Proof.Machine.execMovR8Rm8 r rm s
  | .movRRm r rm => Sys2Proof.Machine.execMovRRm r rm s
  | .nop => Sys2Proof.Machine.execNop s
  | .movR8Imm8 r imm => Sys2Proof.Machine.execMovR8Imm8 r imm s
  | .movRImm r imm => Sys2Proof.Machine.execMovRImm r imm s
  | .ret => Sys2Proof.Machine.execRet s
  | .movRm8Imm8 rm imm => Sys2Proof.Machine.execMovRm8Imm8 rm imm s
  | .movRmImm rm imm => Sys2Proof.Machine.execMovRmImm rm imm s
  | .intImm8 id => Sys2Proof.Machine.execIntImm8 id s
  | .loopRel8 rel => Sys2Proof.Machine.execLoopRel8 rel s
  | .callRel rel => Sys2Proof.Machine.execCallRel rel s
  | .jmpRel rel => Sys2Proof.Machine.execJmpRel rel s
  | .jmpRel8 rel => Sys2Proof.Machine.execJmpRel8 rel s
  | .hlt => Sys2Proof.Machine.execHlt s

end Sys2Proof.Machine
end

