-- ==== Sys2Proof/Machine/Step.lean ====
section
/-! DEFINITION. One step: one whole instruction, from the fetch of its first byte to its last write (00_scope.md R9). -/

namespace Sys2Proof.Machine

open Host (Outcome)

/-- The step function. A state that is not Running has no further step (R10); otherwise the instruction at IP is
fetched and runs with IP past its last byte (R28, R83), or the failure of its fetch or decoding is raised. -/
def step (s : State) : Outcome State Fault Refusal :=
  match s.status with
  | .running =>
    match s.decodeHere with
    | .ok (i, ip) => exec i (s.fetched ip)
    | .error e => finish (raise (s.decodeFault e))
  | .halted => finish (raise .notRunning)
  | .exited _ => finish (raise .notRunning)
  | .failed _ => finish (raise .notRunning)

/-- A table number's instruction placed where the next step fetches it: its bytes at IP, the bytes above it zero, and
the status Running, which a step needs (logs 1 and 12). -/
def State.withFetchWord (s : State) (nbits w : Nat) : State :=
  { s with mem := placeBytes s.mem s.ip (tableBytes nbits w), status := .running }

end Sys2Proof.Machine
end

