-- ==== Sys2Proof/Machine/Launch.lean ====
section
/-! DEFINITION. Loading and launch (70_reset_and_hazards.md R280 to R282): the effect of the loader and of the process
boundary on the state the first instruction sees. -/

namespace Sys2Proof.Machine

/-- A loadable segment: `memsz` bytes from `vaddr`, of which `data` are the `filesz` bytes of the file (R281). -/
structure Segment where
  vaddr : Word
  memsz : Nat
  data : List Byte
deriving DecidableEq, Repr

/-- `clear(address, length)`, the store's primitive for the loader (20_memory.md R52). -/
def blockClear (a : Word) (len : Nat) (s : State) : Except Fault State := blockWrite a (List.replicate len 0) s

/-- One segment: its footprint zero-filled, then its file bytes copied (R281). -/
def loadSegment (g : Segment) (s : State) : Except Fault State := do
  let t ← blockClear g.vaddr g.memsz s
  blockWrite g.vaddr g.data t

/-- The segments in order; one that does not fit the store fails the launch (R282). -/
def loadSegments : List Segment → State → Except Fault State
  | [], s => .ok s
  | g :: gs, s => do
    let t ← loadSegment g s
    loadSegments gs t

/-- A run's launch from an image: the store `mem` before loading, the segments and the entry point of the image, and
what the process boundary supplies (R280). -/
def launchImage (cfg : Config) (mem : Memory) (image : List Segment) (entry initialEsp : Word)
    (input : List HostLine) : Except Fault State :=
  loadSegments image (State.launch cfg mem entry initialEsp input)

end Sys2Proof.Machine
end

