-- ==== Sys2Proof/Safety.lean ====
section
/-! DEFINITION. What claims call a good state, a safe step, the end of a run and its observation. -/

namespace Sys2Proof.Machine

open Host (Outcome)

/-- The reserved bits of the flags slot: all but CF and ZF (10_state.md R30, R31). -/
def reservedFlags : Word := 0xFFFFFFBE

/-- A host line holds no newline (44_system.md R229). -/
def HostLine.wf : HostLine → Bool
  | .line bytes => bytes.all (· != 0x0A)
  | .eof => true

/-- The invariant of a state between instructions: a legal store size (R7); the store's contents in canonical form and
inside the store (R50); the reserved flag bits zero (R31, D32); the latch clear (R38); host lines without newline. -/
structure State.Inv (s : State) : Prop where
  cfg_wf : s.cfg.wf
  mem_wf : s.mem.wf
  mem_within : s.mem.within s.cfg.memSize
  reserved_zero : s.flags &&& reservedFlags = 0
  latch_clear : s.o16 = false
  input_wf : ∀ l ∈ s.input, l.wf = true

/-- The state's step goes on: it answers a next state, no failure. -/
def State.StepsSafely (s : State) : Prop := ∃ t, step s = .next t

/-- The first `n` steps from a state meet no failure, or the run ends normally before (60_exceptions.md R265). -/
def State.RunsSafely : Nat → State → Prop
  | 0, _ => True
  | n + 1, s => s.status = .halted ∨ (∃ c, s.status = .exited c) ∨ ∃ t, step s = .next t ∧ RunsSafely n t

/-- A step as the total function of the four outcomes of 00_scope.md R10: a failure leaves the status `Failed` with
its reason, and a state that is not Running stays. The other state after a failure is not judged (R250, R252). -/
def State.settle (s : State) : State :=
  match s.status with
  | .running =>
    match step s with
    | .next t => t
    | .fault r => { s with status := .failed r }
    | .refused _ => s
  | .halted => s
  | .exited _ => s
  | .failed _ => s

/-- What a run that ended normally shows: register file, flags, memory and host output (60_exceptions.md R265), and the
host input it has not consumed (10_state.md R40). -/
structure Observation where
  regs : Regs
  ip : Word
  flags : Word
  mem : Memory
  output : List Byte
  input : List HostLine
deriving DecidableEq, Repr

/-- The observable part of a state (R40, R265). -/
def State.observe (s : State) : Observation where
  regs := s.regs
  ip := s.ip
  flags := s.flags
  mem := s.mem
  output := s.output
  input := s.input

/-- The observation of a normal end; a run that failed or still runs has none (R265). -/
def State.observation (s : State) : Option Observation :=
  match s.status with
  | .halted => some s.observe
  | .exited _ => some s.observe
  | .running => none
  | .failed _ => none

end Sys2Proof.Machine
end

