-- ==== Sys2Proof/Certificates/Slice0/Obligations.lean ====
section
/-! DEFINITION. The statements for the provers, and the words they are stated in. -/

namespace Sys2Proof.Claims

open Sys2Proof Sys2Proof.Machine

/-! ### Words -/

/-- `W` or `S` in bits (00_scope.md R13). -/
def bits (w : Width) : Nat := 8 * w.bytes

/-- The location can be accessed: a register always, memory when the access ends inside the store (R56). -/
def Reachable (s : State) (l : Loc) (w : Width) : Prop :=
  match l with
  | .reg _ => True
  | .mem a => a.toNat + w.bytes ≤ s.cfg.memSize

/-- The unsigned value of `n` bytes from `a` on: the sum of R53. -/
def storeValue (m : Memory) (a n : Nat) : Nat :=
  ((List.range n).map fun k => (m.read (a + k)).toNat * 256 ^ k).sum

/-- The unsigned value a location holds at width `w`. -/
def held (s : State) (l : Loc) (w : Width) : Nat :=
  match l with
  | .reg r => (s.get r).toNat
  | .mem a => storeValue s.mem a.toNat w.bytes

/-- `t` is `s` with the view `r` holding `v` truncated to it: the slot's other bits, the other slots and everything else
are as before. -/
def WroteView (s t : State) (r : RegRef) (v : Nat) : Prop :=
  (t.get r).toNat = v % 2 ^ bits r.width ∧
  (∀ i, ¬ (r.start ≤ i ∧ i < r.start + bits r.width) →
    (t.reg r.slot).getLsbD i = (s.reg r.slot).getLsbD i) ∧
  (∀ q, q ≠ r.slot → t.reg q = s.reg q) ∧
  t = { s with regs := t.regs }

/-- The store of `t` holds the low `n` bytes of `v`, little-endian, from address `a` on, and every byte outside them as
the store of `s`. -/
def Stored (s t : State) (a n v : Nat) : Prop :=
  (∀ k, k < n → t.mem.read (a + k) = BitVec.ofNat 8 (v / 256 ^ k)) ∧
  (∀ x, x < a ∨ a + n ≤ x → t.mem.read x = s.mem.read x)

/-- `t` is `s` with the location `l` holding `v`, and nothing else changed. -/
def Wrote (s t : State) (l : Loc) (w : Width) (v : Nat) : Prop :=
  match l with
  | .reg r => WroteView s t r v
  | .mem a => Stored s t a.toNat w.bytes v ∧ t = { s with mem := t.mem }

/-- The flags slot of `t` has CF `c`, ZF `z` and its other bits as in `s`. -/
def FlagsAre (s t : State) (c z : Bool) : Prop :=
  t.getFlag .cf = c ∧ t.getFlag .zf = z ∧ ∀ i, i ≠ 0 → i ≠ 6 → t.flags.getLsbD i = s.flags.getLsbD i

/-- ZF for operands `a`, `b` and result `r` (R142). -/
def wantedZf (s : State) (a b r : Nat) : Bool :=
  match s.cfg.zfMode with
  | .operandEquality => a == b
  | .resultZero => r == 0

/-- The wrapped sum at width `w`. -/
def sum (w : Width) (a b : Nat) : Nat := (a + b) % 2 ^ bits w

/-- The wrapped difference at width `w` (R141). -/
def diff (w : Width) (a b : Nat) : Nat := (2 ^ bits w + a - b) % 2 ^ bits w

/-- `t` is `s` after an addition of `a` and `b` into `l`: the sum there, CF when it wraps, ZF, and nothing else
changed. -/
def Added (s t : State) (l : Loc) (w : Width) (a b : Nat) : Prop :=
  FlagsAre s t (decide (2 ^ bits w ≤ a + b)) (wantedZf s a b (sum w a b)) ∧
  Wrote s { t with flags := s.flags } l w (sum w a b)

/-- `t` is `s` after a subtraction of `b` from `a` into `l`: the difference there, CF when `b` exceeds `a`, ZF, and
nothing else changed. -/
def Subtracted (s t : State) (l : Loc) (w : Width) (a b : Nat) : Prop :=
  FlagsAre s t (decide (a < b)) (wantedZf s a b (diff w a b)) ∧
  Wrote s { t with flags := s.flags } l w (diff w a b)

/-- An 8-bit immediate sign-extended to width `w` (R94). -/
def signExtended (w : Width) (imm : Byte) : Nat := (imm.toInt % 2 ^ bits w).toNat

/-- `t` is `s` after a push of the low bytes of `v` at ESP lowered by the step; everything else is as before (R200). -/
def Pushed (s t : State) (v : Nat) : Prop :=
  t.reg .esp = s.reg .esp - BitVec.ofNat 32 s.width.bytes ∧
  (∀ q, q ≠ .esp → t.reg q = s.reg q) ∧
  Stored s t (s.reg .esp - BitVec.ofNat 32 s.width.bytes).toNat s.width.bytes v ∧
  t = { s with regs := t.regs, mem := t.mem }

/-- A push at the current ESP stays inside the store. -/
def CanPush (s : State) : Prop :=
  (s.reg .esp - BitVec.ofNat 32 s.width.bytes).toNat + s.width.bytes ≤ s.cfg.memSize

/-- The stack slot `k` steps above ESP. -/
def slotAbove (s : State) (k : Nat) : Word := s.reg .esp + BitVec.ofNat 32 (k * s.width.bytes)

/-- The stack slot `k` steps below ESP. -/
def slotBelow (s : State) (k : Nat) : Word := s.reg .esp - BitVec.ofNat 32 (k * s.width.bytes)

/-- The slot lies inside the store. -/
def SlotInside (s : State) (a : Word) : Prop := a.toNat + s.width.bytes ≤ s.cfg.memSize

/-- The target masked to 16 bits under the latch (R190). -/
def masked (s : State) (target : Word) : Word := if s.o16 then target &&& 0xFFFF else target

/-- A 16/32-bit displacement sign-extended from `S` bits (R95). -/
def displacement (s : State) (rel : Word) : Word := if s.o16 then (rel.setWidth 16).signExtend 32 else rel

/-- The bytes `bs` stand at IP, inside the store. -/
def Holds (s : State) (bs : List Byte) : Prop :=
  s.ip.toNat + bs.length ≤ s.cfg.memSize ∧ ∀ k, k < bs.length → s.mem.read (s.ip.toNat + k) = bs.getD k 0

/-! ### The pseudocode of ResolveEA (30_encoding.md R89), over a fetch and the slots -/

/-- `ResolveEA(mod, rm)` from the cursor `ip`: the effective address and the cursor after its bytes, or nothing where a
fetch fails. -/
def resolveEA (f : Fetch) (x : Reg → Word) (mod : BitVec 2) (rm : BitVec 3) (ip : Word) : Option (Word × Word) := do
  let (idx, rm, ip) ←
    if rm = 0b100 then do
      let sib ← f ip .w8
      let scale := (sib >>> 6) &&& 3
      let index : BitVec 3 := (sib >>> 3).setWidth 3
      let base : BitVec 3 := sib.setWidth 3
      some (if index ≠ 0b100 then x (Reg.ofSel index) <<< scale.toNat else 0, base, ip + 1)
    else some ((0 : Word), rm, ip)
  if mod = 0b00 then
    if rm = 0b101 then do
      let d ← f ip .w32
      some (d + idx, ip + 4)
    else some (x (Reg.ofSel rm) + idx, ip)
  else if mod = 0b01 then do
    let d ← f ip .w8
    some (x (Reg.ofSel rm) + (d.setWidth 8).signExtend 32 + idx, ip + 1)
  else do
    let d ← f ip .w32
    some (x (Reg.ofSel rm) + d + idx, ip + 4)

/-- The bytes after ModRM: the table of R102, from `mod`, `rm` and the SIB byte's base. -/
def bytesAfterModRM (mod : BitVec 2) (rm base : BitVec 3) : Nat :=
  if mod = 0b11 then 0
  else if rm = 0b100 then
    if mod = 0b00 then (if base = 0b101 then 5 else 1) else if mod = 0b01 then 2 else 5
  else
    if mod = 0b00 then (if rm = 0b101 then 4 else 0) else if mod = 0b01 then 1 else 4

/-! ### Which instructions may change what (10_state.md R26, R33; 42_control_transfer.md) -/

/-- The instruction a prefix stands before; an instruction without prefix is its own. -/
def body : Instr → Instr
  | .o16 i => i
  | i => i

/-- The flag writers: ADD 00-03 and ADD/SUB 80-83 (R33). -/
def writesFlags : Instr → Bool
  | .addRm8R8 _ _ | .addRmR _ _ | .addR8Rm8 _ _ | .addRRm _ _ => true
  | .addRm8Imm8 _ _ | .subRm8Imm8 _ _ | .sub7Rm8Imm8 _ _ | .addRmImm _ _ | .subRmImm _ _ | .sub7RmImm _ _ => true
  | .addRm8Imm8s _ _ | .subRm8Imm8s _ _ | .sub7Rm8Imm8s _ _ | .addRmImm8 _ _ | .subRmImm8 _ _ | .sub7RmImm8 _ _ => true
  | .o16 _ => false
  | .incR _ | .decR _ | .pushR _ | .popR _ | .pusha | .popa | .pushImm _ | .pushImm8 _ | .jz _ | .jnz _
  | .movRm8R8 _ _ | .movRmR _ _ | .movR8Rm8 _ _ | .movRRm _ _ | .nop | .movR8Imm8 _ _ | .movRImm _ _ | .ret
  | .movRm8Imm8 _ _ | .movRmImm _ _ | .intImm8 _ | .loopRel8 _ | .callRel _ | .jmpRel _ | .jmpRel8 _ | .hlt => false

/-- The register an r/m destination names, if it names one. -/
def rmSlot : RM Reg → List Reg
  | .reg r => [r]
  | .mem _ => []

def rmSlot8 : RM Reg8 → List Reg
  | .reg r => [r.slot]
  | .mem _ => []

/-- The general-purpose slots an instruction may write (R26). -/
def writtenSlots : Instr → List Reg
  | .o16 _ => []
  | .addRm8R8 rm _ | .movRm8R8 rm _ => rmSlot8 rm
  | .addRmR rm _ | .movRmR rm _ => rmSlot rm
  | .addR8Rm8 r _ | .movR8Rm8 r _ | .movR8Imm8 r _ => [r.slot]
  | .addRRm r _ | .movRRm r _ | .movRImm r _ | .incR r | .decR r => [r]
  | .pushR _ | .pushImm _ | .pushImm8 _ | .pusha | .callRel _ | .ret => [.esp]
  | .popR r => [.esp, r]
  | .popa => [.eax, .ecx, .edx, .ebx, .esp, .ebp, .esi, .edi]
  | .jz _ | .jnz _ | .jmpRel _ | .jmpRel8 _ | .nop | .hlt => []
  | .addRm8Imm8 rm _ | .subRm8Imm8 rm _ | .sub7Rm8Imm8 rm _ => rmSlot8 rm
  | .addRm8Imm8s rm _ | .subRm8Imm8s rm _ | .sub7Rm8Imm8s rm _ => rmSlot8 rm
  | .movRm8Imm8 rm _ => rmSlot8 rm
  | .addRmImm rm _ | .subRmImm rm _ | .sub7RmImm rm _ => rmSlot rm
  | .addRmImm8 rm _ | .subRmImm8 rm _ | .sub7RmImm8 rm _ => rmSlot rm
  | .movRmImm rm _ => rmSlot rm
  | .intImm8 _ => [.eax]
  | .loopRel8 _ => [.ecx]

/-- The control transfers, which overwrite IP (R28). -/
def transfers : Instr → Bool
  | .jz _ | .jnz _ | .loopRel8 _ | .callRel _ | .jmpRel _ | .jmpRel8 _ | .ret => true
  | .o16 _ => false
  | .addRm8R8 _ _ | .addRmR _ _ | .addR8Rm8 _ _ | .addRRm _ _ | .incR _ | .decR _ | .pushR _ | .popR _
  | .pusha | .popa | .pushImm _ | .pushImm8 _ | .addRm8Imm8 _ _ | .subRm8Imm8 _ _ | .sub7Rm8Imm8 _ _
  | .addRmImm _ _ | .subRmImm _ _ | .sub7RmImm _ _ | .addRm8Imm8s _ _ | .subRm8Imm8s _ _ | .sub7Rm8Imm8s _ _
  | .addRmImm8 _ _ | .subRmImm8 _ _ | .sub7RmImm8 _ _ | .movRm8R8 _ _ | .movRmR _ _ | .movR8Rm8 _ _
  | .movRRm _ _ | .nop | .movR8Imm8 _ _ | .movRImm _ _ | .movRm8Imm8 _ _ | .movRmImm _ _ | .intImm8 _ | .hlt => false

/-- The instructions that may stop the run: HLT and INT (R264). -/
def mayStop : Instr → Bool
  | .hlt | .intImm8 _ => true
  | .o16 _ => false
  | .addRm8R8 _ _ | .addRmR _ _ | .addR8Rm8 _ _ | .addRRm _ _ | .incR _ | .decR _ | .pushR _ | .popR _
  | .pusha | .popa | .pushImm _ | .pushImm8 _ | .jz _ | .jnz _ | .addRm8Imm8 _ _ | .subRm8Imm8 _ _
  | .sub7Rm8Imm8 _ _ | .addRmImm _ _ | .subRmImm _ _ | .sub7RmImm _ _ | .addRm8Imm8s _ _ | .subRm8Imm8s _ _
  | .sub7Rm8Imm8s _ _ | .addRmImm8 _ _ | .subRmImm8 _ _ | .sub7RmImm8 _ _ | .movRm8R8 _ _ | .movRmR _ _
  | .movR8Rm8 _ _ | .movRRm _ _ | .nop | .movR8Imm8 _ _ | .movRImm _ _ | .ret | .movRm8Imm8 _ _
  | .movRmImm _ _ | .loopRel8 _ | .callRel _ | .jmpRel _ | .jmpRel8 _ => false

/-- The instruction that reaches the host: INT (R229). -/
def reachesHost : Instr → Bool
  | .intImm8 _ => true
  | .o16 _ => false
  | .addRm8R8 _ _ | .addRmR _ _ | .addR8Rm8 _ _ | .addRRm _ _ | .incR _ | .decR _ | .pushR _ | .popR _
  | .pusha | .popa | .pushImm _ | .pushImm8 _ | .jz _ | .jnz _ | .addRm8Imm8 _ _ | .subRm8Imm8 _ _
  | .sub7Rm8Imm8 _ _ | .addRmImm _ _ | .subRmImm _ _ | .sub7RmImm _ _ | .addRm8Imm8s _ _ | .subRm8Imm8s _ _
  | .sub7Rm8Imm8s _ _ | .addRmImm8 _ _ | .subRmImm8 _ _ | .sub7RmImm8 _ _ | .movRm8R8 _ _ | .movRmR _ _
  | .movR8Rm8 _ _ | .movRRm _ _ | .nop | .movR8Imm8 _ _ | .movRImm _ _ | .ret | .movRm8Imm8 _ _
  | .movRmImm _ _ | .loopRel8 _ | .callRel _ | .jmpRel _ | .jmpRel8 _ | .hlt => false

/-- The address and width of an unprefixed instruction's memory operand, if it has one (R59). -/
def memOperand (s : State) : Instr → Option (Word × Width)
  | .addRm8R8 (.mem a) _ | .movRm8R8 (.mem a) _ | .addR8Rm8 _ (.mem a) | .movR8Rm8 _ (.mem a)
  | .addRm8Imm8 (.mem a) _ | .subRm8Imm8 (.mem a) _ | .sub7Rm8Imm8 (.mem a) _ | .addRm8Imm8s (.mem a) _
  | .subRm8Imm8s (.mem a) _ | .sub7Rm8Imm8s (.mem a) _ | .movRm8Imm8 (.mem a) _ => some (s.resolve a, .w8)
  | .addRmR (.mem a) _ | .movRmR (.mem a) _ | .addRRm _ (.mem a) | .movRRm _ (.mem a)
  | .addRmImm (.mem a) _ | .subRmImm (.mem a) _ | .sub7RmImm (.mem a) _ | .addRmImm8 (.mem a) _
  | .subRmImm8 (.mem a) _ | .sub7RmImm8 (.mem a) _ | .movRmImm (.mem a) _ => some (s.resolve a, s.width)
  | _ => none

/-- Every opcode byte that begins a row of R96, 66 left aside. -/
def tableOpcodes : List Byte :=
  [0x00, 0x01, 0x02, 0x03] ++
  [0x40, 0x41, 0x42, 0x43, 0x44, 0x45, 0x46, 0x47, 0x48, 0x49, 0x4A, 0x4B, 0x4C, 0x4D, 0x4E, 0x4F] ++
  [0x50, 0x51, 0x52, 0x53, 0x54, 0x55, 0x56, 0x57, 0x58, 0x59, 0x5A, 0x5B, 0x5C, 0x5D, 0x5E, 0x5F] ++
  [0x60, 0x61, 0x68, 0x6A, 0x74, 0x75, 0x80, 0x81, 0x82, 0x83, 0x88, 0x89, 0x8A, 0x8B, 0x90] ++
  [0xB0, 0xB1, 0xB2, 0xB3, 0xB4, 0xB5, 0xB6, 0xB7, 0xB8, 0xB9, 0xBA, 0xBB, 0xBC, 0xBD, 0xBE, 0xBF] ++
  [0xC3, 0xC6, 0xC7, 0xCD, 0xE2, 0xE8, 0xE9, 0xEB, 0xF4]

end Sys2Proof.Claims

open Sys2Proof Sys2Proof.Machine Sys2Proof.Claims

/-! ### Encoding -/

/-- R96: a few words written out from the table decode to the instructions they stand for. The values among them that
no source states are the spec's D1 to D3 (log 13). -/
def Obligations.TableWordsDecode : Prop :=
  decodeBytes [0xB8, 0x40, 0x00, 0x00, 0x00] = .ok (.movRImm .eax 64, []) ∧
  decodeBytes [0x66, 0x83, 0xE8, 0xFF] = .ok (.o16 (.subRmImm8 (.reg .eax) 0xFF), []) ∧
  decodeBytes [0x00, 0xC8] = .ok (.addRm8R8 (.reg .al) .cl, []) ∧
  decodeBytes [0xE8, 0x02, 0x00, 0x00, 0x00] = .ok (.callRel 2, []) ∧
  decodeBytes [0x5B] = .ok (.popR .ebx, []) ∧
  decodeBytes [0xCD, 0x80] = .ok (.intImm8 0x80, [])

/-- Decoding an encoded well-formed instruction gives it back, with every operand, whatever bytes follow (R81 to R96).
The opcode bytes and field layouts are those of D1 to D3 (log 13). -/
def Obligations.DecodeOfEncodeIsTheInstruction : Prop :=
  ∀ (i : Instr) (rest : List Byte), i.wf = true → decodeBytes (encode i ++ rest) = .ok (i, rest)

/-- What decodes is well formed, and the bytes taken are its one encoding (R81, R82, R98). One term per encoding is the
model's choice of syntax (log 2). -/
def Obligations.DecodedBytesAreTheEncoding : Prop :=
  ∀ (bs rest : List Byte) (i : Instr), decodeBytes bs = .ok (i, rest) → i.wf = true ∧ bs = encode i ++ rest

/-- R89, R90, R58: decoding a memory operand and resolving it is the pseudocode of ResolveEA. The index term on the
disp32 path is D12 (log 17), the wrap D21 (log 20). -/
def Obligations.ResolvedOperandIsResolveEA : Prop :=
  ∀ (f : Fetch) (s : State) (mod : BitVec 2) (rm : BitVec 3) (ip : Word), mod ≠ 3 →
    match decodeAddr f mod rm ip with
    | .ok (a, ip') => resolveEA f s.reg mod rm ip = some (s.resolve a, ip')
    | .error _ => resolveEA f s.reg mod rm ip = none

/-- R102: an r/m operand takes exactly the bytes of the table after ModRM; the SIB byte is the one at the cursor. R102
is the spec's own inference from R89. -/
def Obligations.OperandTakesTheBytesOfTheTable : Prop :=
  ∀ (f : Fetch) (m : Byte) (rm : RM Reg) (ip ip' : Word), decodeRm Reg.ofSel f m ip = .ok (rm, ip') →
    ip' = ip + BitVec.ofNat 32
      (bytesAfterModRM (fieldHi m) (fieldLow m) (fieldLow (lowByte ((f ip .w8).getD 0))))

/-! ### The step -/

/-- R9, R28, R83: in a running state whose bytes at IP decode to an instruction, the step is that instruction's exec
in the state with IP past its last byte and the latch clear. -/
def Obligations.StepRunsTheDecodedInstruction : Prop :=
  ∀ (s : State) (i : Instr) (ip : Word), s.status = .running → s.decodeHere = .ok (i, ip) →
    step s = exec i { s with ip := ip, o16 := false }

/-- R80 to R83: where the store holds the encoding of a well-formed instruction at IP, the step runs that
instruction, IP past its bytes. -/
def Obligations.StepRunsTheStoredInstruction : Prop :=
  ∀ (s : State) (i : Instr), s.status = .running → s.cfg.memSize ≤ 4294967296 → i.wf = true →
    Holds s (encode i) →
    step s = exec i { s with ip := s.ip + BitVec.ofNat 32 (encode i).length, o16 := false }

/-- R231, R84, R160, D5: an opcode byte outside the table, after a prefix a second 66 too, fails as unimplemented with
that byte before any further fetch; so do, once ModRM is fetched, 80-83 with a sub-opcode other than 0, 5, 7 and C6 and
C7 with a `reg` other than 0. Nothing is asked of the bytes that follow, which may lie past the store. That the
unlisted sub-variants and sub-opcodes fail, and where, is D4, D5, D6 (log 15). -/
def Obligations.UndefinedEncodingsAreUnimplemented : Prop :=
  ∀ (s : State) (b m : Byte), s.status = .running → s.cfg.memSize ≤ 4294967296 →
    (b ∉ tableOpcodes →
      (b ≠ 0x66 → Holds s [b] → step s = .fault (.unimplementedOpcode b)) ∧
      (Holds s [0x66, b] → step s = .fault (.unimplementedOpcode b))) ∧
    ((b ∈ [0x80, 0x81, 0x82, 0x83] ∧ fieldMid m ∉ [0, 5, 7]) ∨ (b ∈ [0xC6, 0xC7] ∧ fieldMid m ≠ 0) →
      Holds s [b, m] ∨ Holds s [0x66, b, m] → step s = .fault (.unimplementedOpcode b))

/-- R56, R80: with IP at or past the end of the store, the step fails out of bounds at IP. -/
def Obligations.FetchPastTheStoreFails : Prop :=
  ∀ s : State, s.status = .running → s.cfg.memSize ≤ s.ip.toNat → step s = .fault (.outOfBounds s.ip)

/-- R255, R147: where the opcode, ModRM and disp32 of an 81 /0 with a disp32 operand lie inside the store but its
immediate does not, an operand that cannot be read fails first, and the immediate's fetch fails otherwise. The order is
read from R147's pseudocode (log 21). -/
def Obligations.OperandReadFailsBeforeImmediateFetch : Prop :=
  ∀ (s : State) (a : Word), s.status = .running → s.cfg.memSize ≤ 4294967296 →
    Holds s (0x81 :: 0x05 :: leBytes 4 a.toNat) → s.ip.toNat + 6 < 4294967296 → s.cfg.memSize < s.ip.toNat + 10 →
    step s = .fault (.outOfBounds (if s.cfg.memSize < a.toNat + 4 then a else s.ip + 6))

/-- R250, R251: a step of a running state is never refused, and where it fails it does so by one of the four reasons of
R251. The numbering is D31 (log 4). -/
def Obligations.FailuresAreTheFourReasons : Prop :=
  ∀ (s : State), s.status = .running →
    (∀ r, step s = .fault r → r.code = some 1 ∨ r.code = some 2 ∨ r.code = some 3 ∨ r.code = some 4) ∧
    ∀ r, step s ≠ .refused r

/-- R10, R250: a state whose status is not Running has no further step; of the others, a failing step leaves the status
Failed with its reason. The fault notRunning is the model's (log 5). -/
def Obligations.StoppedStatesDoNotStep : Prop :=
  ∀ s : State,
    (s.status ≠ .running → step s = .fault .notRunning ∧ s.settle = s) ∧
    (∀ r, s.status = .running → step s = .fault r → s.settle.status = .failed r) ∧
    ∀ t, step s = .next t → s.settle = t

/-! ### Reset and the invariant -/

/-- R41, R280: the state at the start of a run, for every launch. That ESP receives INITIAL_ESP, and when, is D24. -/
def Obligations.LaunchLeavesTheResetValues : Prop :=
  ∀ (cfg : Config) (m : Memory) (entry esp : Word) (input : List HostLine),
    let s := State.launch cfg m entry esp input
    (∀ r, r ≠ .esp → s.reg r = 0) ∧ s.reg .esp = esp ∧ s.ip = entry ∧ s.flags = 0 ∧ s.status = .running ∧
    s.o16 = false ∧ s.mem = m ∧ s.output = []

/-- The invariant holds at reset. It rests on the model's reset values (logs 6, 7, 8, 10). -/
def Obligations.ResetMeetsTheInvariant : Prop := State.reset.Inv

/-- The invariant is kept by every step: the store stays canonical and inside MEM_SIZE (R50), the reserved flag bits
stay 0 (R31), the latch stays clear between instructions (R38). Zero reserved bits are D32 (log 14); the canonical form
of the store is the model's (log 7). -/
def Obligations.EveryStepKeepsTheInvariant : Prop :=
  ∀ s t : State, s.Inv → step s = .next t → t.Inv

/-- R281: a loaded segment's file bytes stand at its address, its remaining footprint is zero, and every other byte of
the store is as before. -/
def Obligations.LoadedSegmentIsFileBytesThenZeros : Prop :=
  ∀ (g : Segment) (s t : State), s.mem.wf → g.data.length ≤ g.memsz → loadSegment g s = .ok t →
    (∀ k, k < g.data.length → t.mem.read (g.vaddr.toNat + k) = g.data.getD k 0) ∧
    (∀ k, g.data.length ≤ k → k < g.memsz → t.mem.read (g.vaddr.toNat + k) = 0) ∧
    (∀ x, x < g.vaddr.toNat ∨ g.vaddr.toNat + g.memsz ≤ x → t.mem.read x = s.mem.read x) ∧
    t = { s with mem := t.mem }

/-! ### Registers, memory, flags -/

/-- R23: what each view shows. The selectors of the 8-bit views are D36 (log 13). -/
def Obligations.ViewsShowTheirBits : Prop :=
  ∀ (s : State) (i : BitVec 3),
    s.get (.ofTriple true false i) = s.reg (Reg.ofSel i) ∧
    s.get (.ofTriple true true i) = s.reg (Reg.ofSel i) &&& 0xFFFF ∧
    ∀ is16, s.get (.ofTriple false is16 i) =
      if i.toNat ≤ 3 then s.reg (Reg.ofSel i) &&& 0xFF else (s.reg (Reg.ofSel (i - 4)) >>> 8) &&& 0xFF

/-- R24, with the round trip of R25: writing a view and reading it gives the value masked to its width; the slot's other bits, the other slots
and all other state are undisturbed. -/
def Obligations.ViewWritesDisturbNothingElse : Prop :=
  ∀ (s : State) (r : RegRef) (v : Word), WroteView s (s.set r v) r v.toNat

/-- R53: MemRead is the little-endian sum, and fails past the store with the address recorded. That the sum does not
wrap is D22 (log 20). -/
def Obligations.MemReadIsLittleEndian : Prop :=
  ∀ (s : State) (a : Word) (w : Width),
    (a.toNat + w.bytes ≤ s.cfg.memSize →
      ∃ v, memRead s a w = .ok v ∧ v.toNat = storeValue s.mem a.toNat w.bytes) ∧
    (s.cfg.memSize < a.toNat + w.bytes → memRead s a w = .error (.outOfBounds a))

/-- R54: MemWrite stores the low bytes of the value and changes no other byte; past the store it fails. That the sum
does not wrap is D22 (log 20). -/
def Obligations.MemWriteStoresTheLowBytes : Prop :=
  ∀ (s : State) (a : Word) (w : Width) (v : Word), s.mem.wf →
    (a.toNat + w.bytes ≤ s.cfg.memSize →
      ∃ t, memWrite a w v s = .ok t ∧ Stored s t a.toNat w.bytes v.toNat ∧ t = { s with mem := t.mem }) ∧
    (s.cfg.memSize < a.toNat + w.bytes → memWrite a w v s = .error (.outOfBounds a))

/-- R63, R66: a fetch sees the value most recently stored at its address. The memory model is D35. -/
def Obligations.FetchSeesTheLastStore : Prop :=
  ∀ (s t : State) (a : Word) (w : Width) (v : Word), s.mem.wf → memWrite a w v s = .ok t →
    ∃ u, t.fetch a w = some u ∧ u.toNat = v.toNat % 2 ^ bits w

/-- R32: setFlag writes its bit and no other. -/
def Obligations.SetFlagWritesOneBit : Prop :=
  ∀ (s : State) (f : Flag) (b : Bool),
    (s.setFlag f b).getFlag f = b ∧ (∀ i, i ≠ f.pos → (s.setFlag f b).flags.getLsbD i = s.flags.getLsbD i) ∧
    s.setFlag f b = { s with flags := (s.setFlag f b).flags }

/-- R140: the wrapped sum; CF when it is below the first operand, which is when the unsigned sum reaches 2^W. -/
def Obligations.AluAddWrapsAndCarries : Prop :=
  ∀ (w : Width) (a b : Word), a.toNat < 2 ^ bits w → b.toNat < 2 ^ bits w →
    (aluAdd w a b).1.toNat = (a.toNat + b.toNat) % 2 ^ bits w ∧
    (aluAdd w a b).2 = decide ((aluAdd w a b).1.toNat < a.toNat) ∧
    ((aluAdd w a b).2 = true ↔ 2 ^ bits w ≤ a.toNat + b.toNat)

/-- R141: the wrapped difference; CF when the subtrahend exceeds the minuend. -/
def Obligations.AluSubWrapsAndBorrows : Prop :=
  ∀ (w : Width) (a b : Word), a.toNat < 2 ^ bits w → b.toNat < 2 ^ bits w →
    (aluSub w a b).1.toNat = (a.toNat + 2 ^ bits w - b.toNat) % 2 ^ bits w ∧
    ((aluSub w a b).2 = true ↔ a.toNat < b.toNat)

/-- R142: ZF is operand equality or a zero result by ZF_MODE; for subtraction the two modes agree, for addition they
can differ. The parameter is D8. -/
def Obligations.ZfModesAgreeForSubtraction : Prop :=
  (∀ a b r : Word, zfOf .operandEquality a b r = decide (a = b)) ∧
  (∀ a b r : Word, zfOf .resultZero a b r = decide (r = 0)) ∧
  (∀ (w : Width) (a b : Word), a.toNat < 2 ^ bits w → b.toNat < 2 ^ bits w →
    zfOf .operandEquality a b (aluSub w a b).1 = zfOf .resultZero a b (aluSub w a b).1) ∧
  zfOf .operandEquality 0xFF 1 (aluAdd .w8 0xFF 1).1 = false ∧ zfOf .resultZero 0xFF 1 (aluAdd .w8 0xFF 1).1 = true

/-! ### The prefix -/

/-- R83, R104, R38: the prefix runs its instruction under the latch and leaves the latch clear: where exec answers a
next state or a failure there, the prefixed instruction answers that state with the latch clear, or that failure. Where
the prefix has no effect is D13, D14 (log 18). -/
def Obligations.PrefixRunsItsInstructionUnderTheLatch : Prop :=
  ∀ (i : Instr) (s : State), (∀ j, i ≠ .o16 j) →
    (∀ t, exec i { s with o16 := true } = .next t → exec (.o16 i) s = .next { t with o16 := false }) ∧
    (∀ r, exec i { s with o16 := true } = .fault r → exec (.o16 i) s = .fault r)

/-- R83, R104, R121, R161, R162: prefixed MOV immediate, INC and DEC answer a next state in which the register's low 16
bits are written and its upper half and everything else are kept. That INC and DEC write no flag is D11 (log 16). -/
def Obligations.PrefixedRegisterFormsKeepTheUpperHalf : Prop :=
  ∀ (s : State) (r : Reg), s.o16 = false →
    (∀ imm, ∃ t, exec (.o16 (.movRImm r imm)) s = .next t ∧ WroteView s t (.r16 r) imm.toNat) ∧
    (∃ t, exec (.o16 (.incR r)) s = .next t ∧ WroteView s t (.r16 r) ((s.get (.r16 r)).toNat + 1)) ∧
    (∃ t, exec (.o16 (.decR r)) s = .next t ∧ WroteView s t (.r16 r) ((s.get (.r16 r)).toNat + 65535))

/-! ### Data movement -/

/-- R120, R121: MOV of an immediate to a register view. -/
def Obligations.MovWritesItsImmediate : Prop :=
  ∀ s : State,
    (∀ r imm, ∃ t, exec (.movR8Imm8 r imm) s = .next t ∧ WroteView s t (.r8 r) imm.toNat) ∧
    (∀ r imm, ∃ t, exec (.movRImm r imm) s = .next t ∧
      WroteView s t (if s.o16 then .r16 r else .r32 r) imm.toNat)

/-- R122 to R125: MOV to an r/m destination stores its source there and changes nothing else: for a memory destination,
no byte outside the stored ones. -/
def Obligations.MovStoresItsSource : Prop :=
  ∀ s : State, s.mem.wf →
    (∀ rm imm, Reachable s (s.loc8 rm) .w8 →
      ∃ t, exec (.movRm8Imm8 rm imm) s = .next t ∧ Wrote s t (s.loc8 rm) .w8 imm.toNat) ∧
    (∀ rm imm, Reachable s (s.locW rm) s.width →
      ∃ t, exec (.movRmImm rm imm) s = .next t ∧ Wrote s t (s.locW rm) s.width imm.toNat) ∧
    (∀ rm r, Reachable s (s.loc8 rm) .w8 →
      ∃ t, exec (.movRm8R8 rm r) s = .next t ∧ Wrote s t (s.loc8 rm) .w8 (s.get (.r8 r)).toNat) ∧
    (∀ rm r, Reachable s (s.locW rm) s.width →
      ∃ t, exec (.movRmR rm r) s = .next t ∧ Wrote s t (s.locW rm) s.width (s.get (s.wideRef r)).toNat)

/-- R126, R127: MOV from an r/m source writes the register view with what the source held, and changes nothing else:
every byte of memory is as before. -/
def Obligations.MovLoadsItsSource : Prop :=
  ∀ s : State,
    (∀ r rm, Reachable s (s.loc8 rm) .w8 →
      ∃ t, exec (.movR8Rm8 r rm) s = .next t ∧ WroteView s t (.r8 r) (held s (s.loc8 rm) .w8)) ∧
    (∀ r rm, Reachable s (s.locW rm) s.width →
      ∃ t, exec (.movRRm r rm) s = .next t ∧ WroteView s t (s.wideRef r) (held s (s.locW rm) s.width))

/-- R56, R57, R68: an instruction with a memory operand fails out of bounds at the effective address exactly when the
operand passes the end of the store; no alignment is asked. No alignment is D20, the sum without wrap D22 (log 20). -/
def Obligations.MemoryOperandsFailOnlyPastTheStore : Prop :=
  ∀ (i : Instr) (s : State) (a : Word) (w : Width), memOperand s i = some (a, w) →
    (s.cfg.memSize < a.toNat + w.bytes ↔ exec i s = .fault (.outOfBounds a))

/-! ### Arithmetic -/

/-- R143, R144: ADD with an r/m destination. That these forms write the flags is D10 (log 16). -/
def Obligations.AddToOperandAddsAndSetsFlags : Prop :=
  ∀ s : State, s.mem.wf →
    (∀ rm r, Reachable s (s.loc8 rm) .w8 → ∃ t, exec (.addRm8R8 rm r) s = .next t ∧
      Added s t (s.loc8 rm) .w8 (s.get (.r8 r)).toNat (held s (s.loc8 rm) .w8)) ∧
    (∀ rm r, Reachable s (s.locW rm) s.width → ∃ t, exec (.addRmR rm r) s = .next t ∧
      Added s t (s.locW rm) s.width (s.get (s.wideRef r)).toNat (held s (s.locW rm) s.width))

/-- R145, R146: ADD with a register destination; memory is only read. That these forms write the flags is D10 (log 16).
-/
def Obligations.AddToRegisterAddsAndSetsFlags : Prop :=
  ∀ s : State,
    (∀ r rm, Reachable s (s.loc8 rm) .w8 → ∃ t, exec (.addR8Rm8 r rm) s = .next t ∧
      Added s t (.reg (.r8 r)) .w8 (s.get (.r8 r)).toNat (held s (s.loc8 rm) .w8)) ∧
    (∀ r rm, Reachable s (s.locW rm) s.width → ∃ t, exec (.addRRm r rm) s = .next t ∧
      Added s t (.reg (s.wideRef r)) s.width (s.get (s.wideRef r)).toNat (held s (s.locW rm) s.width))

/-- R148, R151, R154, R157: ADD of an immediate to an r/m operand. ZF's operands are D9 (log 16). -/
def Obligations.AddImmediateAddsAndSetsFlags : Prop :=
  ∀ s : State, s.mem.wf →
    (∀ rm imm, Reachable s (s.loc8 rm) .w8 →
      (∃ t, exec (.addRm8Imm8 rm imm) s = .next t ∧ Added s t (s.loc8 rm) .w8 (held s (s.loc8 rm) .w8) imm.toNat) ∧
      (∃ t, exec (.addRm8Imm8s rm imm) s = .next t ∧ Added s t (s.loc8 rm) .w8 (held s (s.loc8 rm) .w8) imm.toNat)) ∧
    (∀ rm imm, Reachable s (s.locW rm) s.width → ∃ t, exec (.addRmImm rm imm) s = .next t ∧
      Added s t (s.locW rm) s.width (held s (s.locW rm) s.width) (imm.toNat % 2 ^ bits s.width)) ∧
    (∀ rm imm, Reachable s (s.locW rm) s.width → ∃ t, exec (.addRmImm8 rm imm) s = .next t ∧
      Added s t (s.locW rm) s.width (held s (s.locW rm) s.width) (signExtended s.width imm))

/-- R149, R152, R155, R158: SUB of an immediate from an r/m operand. ZF's operands are D9 (log 16). -/
def Obligations.SubImmediateSubtractsAndSetsFlags : Prop :=
  ∀ s : State, s.mem.wf →
    (∀ rm imm, Reachable s (s.loc8 rm) .w8 →
      (∃ t, exec (.subRm8Imm8 rm imm) s = .next t ∧
        Subtracted s t (s.loc8 rm) .w8 (held s (s.loc8 rm) .w8) imm.toNat) ∧
      (∃ t, exec (.subRm8Imm8s rm imm) s = .next t ∧
        Subtracted s t (s.loc8 rm) .w8 (held s (s.loc8 rm) .w8) imm.toNat)) ∧
    (∀ rm imm, Reachable s (s.locW rm) s.width → ∃ t, exec (.subRmImm rm imm) s = .next t ∧
      Subtracted s t (s.locW rm) s.width (held s (s.locW rm) s.width) (imm.toNat % 2 ^ bits s.width)) ∧
    (∀ rm imm, Reachable s (s.locW rm) s.width → ∃ t, exec (.subRmImm8 rm imm) s = .next t ∧
      Subtracted s t (s.locW rm) s.width (held s (s.locW rm) s.width) (signExtended s.width imm))

/-- R150, R153, R156, R159: sub-opcode 7 subtracts and writes its result back. The write-back is D7, ZF's operands D9
(log 16). -/
def Obligations.SubOpcodeSevenSubtractsAndWritesBack : Prop :=
  ∀ s : State, s.mem.wf →
    (∀ rm imm, Reachable s (s.loc8 rm) .w8 →
      (∃ t, exec (.sub7Rm8Imm8 rm imm) s = .next t ∧
        Subtracted s t (s.loc8 rm) .w8 (held s (s.loc8 rm) .w8) imm.toNat) ∧
      (∃ t, exec (.sub7Rm8Imm8s rm imm) s = .next t ∧
        Subtracted s t (s.loc8 rm) .w8 (held s (s.loc8 rm) .w8) imm.toNat)) ∧
    (∀ rm imm, Reachable s (s.locW rm) s.width → ∃ t, exec (.sub7RmImm rm imm) s = .next t ∧
      Subtracted s t (s.locW rm) s.width (held s (s.locW rm) s.width) (imm.toNat % 2 ^ bits s.width)) ∧
    (∀ rm imm, Reachable s (s.locW rm) s.width → ∃ t, exec (.sub7RmImm8 rm imm) s = .next t ∧
      Subtracted s t (s.locW rm) s.width (held s (s.locW rm) s.width) (signExtended s.width imm))

/-- R161, R162: INC and DEC at the operand size; no flag and nothing else changes. That no flag changes is D11 (log
16). -/
def Obligations.IncAndDecCountModuloTheirSize : Prop :=
  ∀ (s : State) (r : Reg),
    (∃ t, exec (.incR r) s = .next t ∧ WroteView s t (s.wideRef r) ((s.get (s.wideRef r)).toNat + 1)) ∧
    (∃ t, exec (.decR r) s = .next t ∧
      WroteView s t (s.wideRef r) ((s.get (s.wideRef r)).toNat + (2 ^ bits s.width - 1)))

/-! ### Control transfer -/

/-- R181, R182: JZ and JNZ on ZF; the prefix plays no part. That the prefix plays no part is D14 (log 18). -/
def Obligations.ConditionalJumpsFollowZf : Prop :=
  ∀ (s : State) (rel : Byte),
    exec (.jz rel) s = .next { s with ip := if s.getFlag .zf then s.ip + rel.signExtend 32 else s.ip } ∧
    exec (.jnz rel) s = .next { s with ip := if s.getFlag .zf then s.ip else s.ip + rel.signExtend 32 }

/-- R183: LOOP decrements all of ECX and jumps unless it becomes zero, with the latch and without. All 32 bits with the
prefix too: D13 (log 18). -/
def Obligations.LoopDecrementsEcxAndJumps : Prop :=
  ∀ (s : State) (rel : Byte), ∃ t, exec (.loopRel8 rel) s = .next t ∧
    t.reg .ecx = s.reg .ecx - 1 ∧ (∀ q, q ≠ .ecx → t.reg q = s.reg q) ∧
    t.ip = (if s.reg .ecx = 1 then s.ip else s.ip + rel.signExtend 32) ∧
    t = { s with regs := t.regs, ip := t.ip }

/-- R185, R190: CALL pushes the address of the next instruction and transfers to the target. The 16-bit form is D15
(log 18), the address pushed C6. -/
def Obligations.CallPushesTheNextAddressAndJumps : Prop :=
  ∀ (s : State) (rel : Word), s.mem.wf → CanPush s →
    ∃ t, exec (.callRel rel) s = .next t ∧ Pushed s { t with ip := s.ip } s.ip.toNat ∧
      t.ip = masked s (s.ip + displacement s rel)

/-- R186, R187, R190: JMP writes IP alone. The mask of EB is D15 (log 18). -/
def Obligations.JumpsWriteIpAlone : Prop :=
  ∀ s : State,
    (∀ rel, exec (.jmpRel rel) s = .next { s with ip := masked s (s.ip + displacement s rel) }) ∧
    (∀ rel : Byte, exec (.jmpRel8 rel) s = .next { s with ip := masked s (s.ip + rel.signExtend 32) })

/-- R189: RET pops IP, zero-extended, and raises ESP by the step. The zero extension is D16 (log 18). -/
def Obligations.RetPopsIp : Prop :=
  ∀ s : State, SlotInside s (s.reg .esp) →
    ∃ t, exec .ret s = .next t ∧ t.ip.toNat = storeValue s.mem (s.reg .esp).toNat s.width.bytes ∧
      t.reg .esp = s.reg .esp + BitVec.ofNat 32 s.width.bytes ∧ (∀ q, q ≠ .esp → t.reg q = s.reg q) ∧
      t = { s with regs := t.regs, ip := t.ip }

/-- R185, R189: a RET after a CALL, from wherever the callee stands with the stack as the call left it, returns to the
byte after the call and restores ESP; under the prefix the return address is its low 16 bits. The 16-bit forms are D15,
D16 (log 18). -/
def Obligations.RetReturnsAfterTheCall : Prop :=
  ∀ (s t : State) (rel ip : Word), s.mem.wf → exec (.callRel rel) s = .next t →
    ∃ u, exec .ret { t with ip := ip } = .next u ∧ u.ip = masked s s.ip ∧ u.regs = s.regs

/-! ### The stack -/

/-- R202, R204, R205: PUSH of a register (ESP's value by ESP_PUSH_VALUE), of an immediate and of a sign-extended byte.
ESP_PUSH_VALUE is D17 (log 19). -/
def Obligations.PushStoresBelowEsp : Prop :=
  ∀ s : State, s.mem.wf → CanPush s →
    (∀ r, ∃ t, exec (.pushR r) s = .next t ∧ Pushed s t
      (if r = .esp ∧ s.cfg.espPushValue = .after
        then (s.reg .esp - BitVec.ofNat 32 s.width.bytes).toNat else (s.reg r).toNat)) ∧
    (∀ imm, ∃ t, exec (.pushImm imm) s = .next t ∧ Pushed s t imm.toNat) ∧
    (∀ imm, ∃ t, exec (.pushImm8 imm) s = .next t ∧ Pushed s t (signExtended s.width imm))

/-- R200, R201, R206, R207, R252: a stack access whose slot passes the end of the store fails out of bounds at the
slot: the one slot of PUSH, CALL, POP and RET, and the first such slot of PUSHA and POPA. The sum without wrap is D22
(log 20), POPA's order D19 (log 19). -/
def Obligations.StackAccessesPastTheStoreFail : Prop :=
  ∀ s : State,
    (¬ SlotInside s (slotBelow s 1) →
      (∀ r, exec (.pushR r) s = .fault (.outOfBounds (slotBelow s 1))) ∧
      (∀ imm, exec (.pushImm imm) s = .fault (.outOfBounds (slotBelow s 1))) ∧
      (∀ imm, exec (.pushImm8 imm) s = .fault (.outOfBounds (slotBelow s 1))) ∧
      ∀ rel, exec (.callRel rel) s = .fault (.outOfBounds (slotBelow s 1))) ∧
    (¬ SlotInside s (s.reg .esp) →
      (∀ r, exec (.popR r) s = .fault (.outOfBounds (s.reg .esp))) ∧
      exec .ret s = .fault (.outOfBounds (s.reg .esp))) ∧
    (∀ k, 1 ≤ k → k ≤ 8 → (∀ j, 1 ≤ j → j < k → SlotInside s (slotBelow s j)) → ¬ SlotInside s (slotBelow s k) →
      exec .pusha s = .fault (.outOfBounds (slotBelow s k))) ∧
    ∀ k, k < 8 → (∀ j, j < k → SlotInside s (slotAbove s j)) → ¬ SlotInside s (slotAbove s k) →
      exec .popa s = .fault (.outOfBounds (slotAbove s k))

/-- R203: POP raises ESP by the step and then writes the view with the popped value; for ESP, POP_ESP_RESULT adds the
step or not. POP_ESP_RESULT is D18 (log 19). -/
def Obligations.PopLoadsFromEsp : Prop :=
  ∀ (s : State) (r : Reg), SlotInside s (s.reg .esp) →
    let v := storeValue s.mem (s.reg .esp).toNat s.width.bytes
    let step := if r = .esp ∧ s.cfg.popEspResult = .poppedPlusStep then s.width.bytes else 0
    ∃ t, exec (.popR r) s = .next t ∧
      WroteView { s with regs := s.regs.set .esp (s.reg .esp + BitVec.ofNat 32 s.width.bytes) } t (s.wideRef r) (v + step)

/-- R202, R203: PUSH then POP of a register restores every register, for ESP under the defaults of its two parameters.
The two parameters are D17, D18 (log 19). -/
def Obligations.PushThenPopRestores : Prop :=
  ∀ (s t : State) (r : Reg), s.mem.wf →
    (r = .esp → s.cfg.espPushValue = .before ∧ s.cfg.popEspResult = .popped) →
    exec (.pushR r) s = .next t → ∃ u, exec (.popR r) t = .next u ∧ u.regs = s.regs

/-- R206: PUSHA stores the eight registers below ESP in the fixed order, ESP's value by ESP_PUSH_VALUE, lowers ESP by
eight steps, and changes no byte outside the eight slots and nothing else. ESP_PUSH_VALUE is D17 (log 19). -/
def Obligations.PushaStoresAllRegisters : Prop :=
  ∀ s : State, s.mem.wf → s.cfg.memSize ≤ 4294967296 → (∀ k, 1 ≤ k → k ≤ 8 → SlotInside s (slotBelow s k)) →
    ∃ t, exec .pusha s = .next t ∧
      (∀ k r, [Reg.eax, .ecx, .edx, .ebx, .esp, .ebp, .esi, .edi][k]? = some r →
        storeValue t.mem (slotBelow s (k + 1)).toNat s.width.bytes =
          (if r = .esp ∧ s.cfg.espPushValue = .after then slotBelow s 5 else s.reg r).toNat % 2 ^ bits s.width) ∧
      (∀ x, (∀ k, 1 ≤ k → k ≤ 8 → x < (slotBelow s k).toNat ∨ (slotBelow s k).toNat + s.width.bytes ≤ x) →
        t.mem.read x = s.mem.read x) ∧
      t.reg .esp = slotBelow s 8 ∧ (∀ q, q ≠ .esp → t.reg q = s.reg q) ∧
      t = { s with regs := t.regs, mem := t.mem }

/-- R207: POPA loads the registers but ESP from the eight slots from ESP up, in reverse order, raises ESP by eight
steps past the discarded ESP slot, and changes nothing else. Reading past the ESP slot is D19 (log 19). -/
def Obligations.PopaLoadsAllRegistersButEsp : Prop :=
  ∀ s : State, (∀ k, k < 8 → SlotInside s (slotAbove s k)) →
    ∃ t, exec .popa s = .next t ∧
      (∀ k r, [Reg.edi, .esi, .ebp, .esp, .ebx, .edx, .ecx, .eax][k]? = some r → r ≠ .esp →
        (t.get (s.wideRef r)).toNat = storeValue s.mem (slotAbove s k).toNat s.width.bytes ∧
        ∀ i, bits s.width ≤ i → (t.reg r).getLsbD i = (s.reg r).getLsbD i) ∧
      t.reg .esp = slotAbove s 8 ∧ t = { s with regs := t.regs }

/-- R207: PUSHA then POPA restores all eight registers, under either ESP_PUSH_VALUE. POPA's order is D19 (log 19). -/
def Obligations.PushaThenPopaRestores : Prop :=
  ∀ s t : State, s.mem.wf → s.cfg.memSize ≤ 4294967296 → exec .pusha s = .next t →
    ∃ u, exec .popa t = .next u ∧ u.regs = s.regs

/-! ### System -/

/-- R220, R221: NOP changes nothing; HLT stops the run as Halted and changes nothing else. IP at HLT is D30 (log 20).
-/
def Obligations.NopContinuesAndHltHalts : Prop :=
  ∀ s : State, exec .nop s = .next s ∧ exec .hlt s = .next { s with status := .halted }

/-- R222, R225, R228: INT fails on any id but 80, and on an unknown syscall number, 3 included where the read syscall
is absent; the exit syscall stops the run with EBX and changes nothing else. The presence of read is D25, the exit
code's width D29 (log 20). -/
def Obligations.IntSelectsTheSyscall : Prop :=
  ∀ s : State,
    (∀ id, id ≠ 0x80 → exec (.intImm8 id) s = .fault (.unimplementedInterrupt id)) ∧
    (s.reg .eax ≠ 1 → s.reg .eax ≠ 4 → (s.reg .eax ≠ 3 ∨ s.cfg.hasReadSyscall = false) →
      exec (.intImm8 0x80) s = .fault (.unknownSyscall (s.reg .eax))) ∧
    (s.reg .eax = 1 → exec (.intImm8 0x80) s = .next { s with status := .exited (s.reg .ebx) })

/-- R227, R230: the write syscall appends the EDX bytes at ECX to the output and changes nothing else but EAX, which is
left open; past the store it fails and outputs nothing. EAX left open is D26 (log 11), the range check D37, the
argument registers D28 (log 20). -/
def Obligations.WriteSyscallOutputsTheBytes : Prop :=
  ∀ s : State, s.reg .eax = 4 →
    ((s.reg .edx = 0 ∨ (s.reg .ecx).toNat + (s.reg .edx).toNat ≤ s.cfg.memSize) →
      ∃ t, exec (.intImm8 0x80) s = .next t ∧
        t.output = s.output ++ (List.range (s.reg .edx).toNat).map (fun k => s.mem.read ((s.reg .ecx).toNat + k)) ∧
        (∀ q, q ≠ .eax → t.reg q = s.reg q) ∧
        t = { s with regs := t.regs, output := t.output, draws := t.draws }) ∧
    (s.reg .edx ≠ 0 → s.cfg.memSize < (s.reg .ecx).toNat + (s.reg .edx).toNat →
      exec (.intImm8 0x80) s = .fault (.outOfBounds (s.reg .ecx)))

/-- R226, R230: the read syscall stores the next input line at ECX, with its newline when it is shorter than EDX and
cut to EDX bytes otherwise, nothing at end of input; nothing else changes but EAX, which is left open; past the store
it fails. EAX left open is D26 (log 11), the bytes D27, the range check D37, the argument registers D28 (log 20); an
empty input list as end of input is the model's (log 10). -/
def Obligations.ReadSyscallStoresTheLine : Prop :=
  ∀ (s : State) (answer : HostLine) (rest : List HostLine) (bytes : List Byte), s.mem.wf → s.reg .eax = 3 →
    s.cfg.hasReadSyscall = true →
    (s.input = answer :: rest ∨ (s.input = [] ∧ answer = .eof ∧ rest = [])) →
    (bytes = match answer with
      | .eof => []
      | .line l => if l.length < (s.reg .edx).toNat then l ++ [0x0A] else l.take (s.reg .edx).toNat) →
    ((bytes = [] ∨ (s.reg .ecx).toNat + bytes.length ≤ s.cfg.memSize) →
      ∃ t, exec (.intImm8 0x80) s = .next t ∧
        (∀ k, k < bytes.length → t.mem.read ((s.reg .ecx).toNat + k) = bytes.getD k 0) ∧
        (∀ x, x < (s.reg .ecx).toNat ∨ (s.reg .ecx).toNat + bytes.length ≤ x → t.mem.read x = s.mem.read x) ∧
        t.input = rest ∧ (∀ q, q ≠ .eax → t.reg q = s.reg q) ∧
        t = { s with regs := t.regs, mem := t.mem, input := t.input, draws := t.draws }) ∧
    (bytes ≠ [] → s.cfg.memSize < (s.reg .ecx).toNat + bytes.length →
      exec (.intImm8 0x80) s = .fault (.outOfBounds (s.reg .ecx)))

/-- R224, R226, R227: the file descriptor plays no part: with another EBX, read and write answer the same state but for
EBX. That EAX is the same too is the model's choice (log 11, DESIGN CHOICE): both runs draw the free value of the same
counter, where R230 and D26 leave each EAX any value. The argument registers are D28 (log 20). -/
def Obligations.FileDescriptorIsIgnored : Prop :=
  ∀ (s t : State) (fd : Word), s.reg .eax = 3 ∨ s.reg .eax = 4 → exec (.intImm8 0x80) s = .next t →
    exec (.intImm8 0x80) { s with regs := s.regs.set .ebx fd } = .next { t with regs := t.regs.set .ebx fd }

/-! ### Rules of the whole machine -/

/-- R33: no instruction but ADD and SUB changes the flags slot. That INC and DEC write no flag is D11 (log 16). -/
def Obligations.OnlyAddAndSubWriteFlags : Prop :=
  ∀ (i : Instr) (s t : State), exec i s = .next t → writesFlags (body i) = false → t.flags = s.flags

/-- R26: an instruction changes no general-purpose slot but those R26 names for it. R26 is the spec's own inference;
EAX alone for the syscalls is D26 (log 11). -/
def Obligations.OnlyNamedSlotsAreWritten : Prop :=
  ∀ (i : Instr) (s t : State) (r : Reg), exec i s = .next t → r ∉ writtenSlots (body i) → t.reg r = s.reg r

/-- R28: an instruction that does not transfer control leaves IP where its fetch left it. -/
def Obligations.OnlyTransfersWriteIp : Prop :=
  ∀ (i : Instr) (s t : State), exec i s = .next t → transfers (body i) = false → t.ip = s.ip

/-- R264, R229: only HLT and INT stop the run, and only INT touches the host's output and input; output is only
appended to. -/
def Obligations.OnlyHltAndIntStopAndOnlyIntReachesTheHost : Prop :=
  ∀ (i : Instr) (s t : State), exec i s = .next t →
    (mayStop (body i) = false → t.status = s.status) ∧
    (reachesHost (body i) = false → t.output = s.output ∧ t.input = s.input) ∧
    ∃ bs, t.output = s.output ++ bs

/-- R7, R50: no step changes a parameter of the run, the store's size among them. -/
def Obligations.StepsKeepTheParameters : Prop :=
  ∀ s t : State, step s = .next t → t.cfg = s.cfg
end

