-- ==== Sys2Proof/Laws/Bytes.lean ====
section
/-! SUPPORT. Byte order and field layouts: little-endian values and their bytes, the packed byte of ModRM and SIB,
the register selectors. -/

namespace Sys2Proof

@[simp] theorem length_leBytes (n v : Nat) : (leBytes n v).length = n := by
  induction n generalizing v with
  | zero => rfl
  | succ n ih => simp [leBytes, ih]

/-- The little-endian bytes of a number have its value, modulo what they can hold. -/
theorem leNat_leBytes (n v : Nat) : leNat (leBytes n v) = v % 256 ^ n := by
  induction n generalizing v with
  | zero => simp [leBytes, leNat, Nat.mod_one]
  | succ n ih =>
    rw [leBytes, leNat, ih, Nat.pow_succ, Nat.mul_comm (256 ^ n) 256, Nat.mod_mul]
    simp

theorem leNat_lt (bs : List Byte) : leNat bs < 256 ^ bs.length := by
  induction bs with
  | nil => simp [leNat]
  | cons b bs ih =>
    have := b.isLt
    rw [leNat, List.length_cons, Nat.pow_succ]
    omega

/-- The bytes of the value of `bs` are `bs`. -/
theorem leBytes_leNat (bs : List Byte) : leBytes bs.length (leNat bs) = bs := by
  induction bs with
  | nil => rfl
  | cons b bs ih =>
    have hb := b.isLt
    rw [List.length_cons, leBytes, leNat, show (b.toNat + 256 * leNat bs) / 256 = leNat bs by omega, ih]
    congr 1
    apply BitVec.eq_of_toNat_eq
    simp
    omega

/-- Byte `k` of the little-endian bytes. -/
theorem getD_leBytes (n v k : Nat) (hk : k < n) : (leBytes n v).getD k 0 = BitVec.ofNat 8 (v / 256 ^ k) := by
  induction n generalizing v k with
  | zero => omega
  | succ n ih =>
    cases k with
    | zero => simp [leBytes]
    | succ k =>
      rw [leBytes, List.getD_cons_succ, ih (v / 256) k (by omega), Nat.div_div_eq_div_mul, Nat.pow_succ,
        Nat.mul_comm 256]

theorem Width.bytes_pos (w : Width) : 0 < w.bytes := by cases w <;> decide

theorem Width.bytes_le (w : Width) : w.bytes ≤ 4 := by cases w <;> decide

/-- Four bytes or fewer have a value that fits a word. -/
theorem toNat_leWord (bs : List Byte) (h : bs.length ≤ 4) : (leWord bs).toNat = leNat bs := by
  have h1 := leNat_lt bs
  have h2 : 256 ^ bs.length ≤ 256 ^ 4 := Nat.pow_le_pow_right (by decide) h
  simp only [leWord, BitVec.toNat_ofNat]
  exact Nat.mod_eq_of_lt (by omega)

/-- The word of the bytes of a word, modulo the width. -/
theorem leWord_leBytes (n : Nat) (hn : n ≤ 4) (v : Word) : (leWord (leBytes n v.toNat)).toNat = v.toNat % 256 ^ n := by
  rw [toNat_leWord _ (by simpa using hn), leNat_leBytes]

theorem leBytes_leWord (bs : List Byte) (h : bs.length ≤ 4) : leBytes bs.length (leWord bs).toNat = bs := by
  rw [toNat_leWord bs h, leBytes_leNat]

/-! ### Packed bytes and selectors -/

@[simp] theorem fieldHi_packByte (hi : BitVec 2) (mid low : BitVec 3) : fieldHi (packByte hi mid low) = hi := by
  revert hi mid low
  decide

@[simp] theorem fieldMid_packByte (hi : BitVec 2) (mid low : BitVec 3) : fieldMid (packByte hi mid low) = mid := by
  revert hi mid low
  decide

@[simp] theorem fieldLow_packByte (hi : BitVec 2) (mid low : BitVec 3) : fieldLow (packByte hi mid low) = low := by
  revert hi mid low
  decide

theorem packByte_fields (m : Byte) : packByte (fieldHi m) (fieldMid m) (fieldLow m) = m := by
  revert m
  decide

@[simp] theorem Reg.ofSel_sel (r : Reg) : Reg.ofSel r.sel = r := by cases r <;> rfl
@[simp] theorem Reg.sel_ofSel (i : BitVec 3) : (Reg.ofSel i).sel = i := by
  revert i
  decide
@[simp] theorem Reg8.ofSel_sel (r : Reg8) : Reg8.ofSel r.sel = r := by cases r <;> rfl
@[simp] theorem Reg8.sel_ofSel (i : BitVec 3) : (Reg8.ofSel i).sel = i := by
  revert i
  decide

end Sys2Proof
end

