-- ==== Sys2Proof/Laws/Memory.lean ====
section
/-! SUPPORT. The laws of the store: what a read sees after a write, that every write keeps the canonical form, and
that equal contents are equal lists. -/

namespace Sys2Proof.Machine

open Host (Cell)

@[simp] theorem Memory.read_nil (a : Nat) : Memory.read [] a = Memory.blank := rfl

theorem Memory.read_cons (c : Cell) (m : Memory) (a : Nat) :
    Memory.read (c :: m) a = if c.1 = a then c.2 else Memory.read m a := rfl

theorem Memory.wf_nil : Memory.wf [] := by simp [Memory.wf]

theorem Memory.wf_cons {c : Cell} {m : Memory} :
    Memory.wf (c :: m) ↔ (∀ d ∈ m, c.1 < d.1) ∧ c.2 ≠ Memory.blank ∧ Memory.wf m := by
  simp only [Memory.wf, List.pairwise_cons, List.mem_cons, forall_eq_or_imp]
  tauto

/-- An address that no cell lists reads as blank. -/
theorem Memory.read_unlisted {m : Memory} {a : Nat} (h : ∀ c ∈ m, c.1 ≠ a) : m.read a = Memory.blank := by
  induction m with
  | nil => rfl
  | cons c m ih =>
    rw [Memory.read_cons, if_neg (h c (by simp))]
    exact ih fun d hd => h d (by simp [hd])

/-- A cell written by `write` is the new one or one of the old. -/
theorem Memory.mem_write {m : Memory} {a : Nat} {v : Byte} {c : Cell} (h : c ∈ m.write a v) :
    (c = (a, v) ∧ v ≠ Memory.blank) ∨ c ∈ m := by
  induction m with
  | nil =>
    simp only [Memory.write] at h
    split at h <;> simp_all
  | cons d m ih =>
    simp only [Memory.write] at h
    split at h
    · split at h <;> simp_all
    · split at h
      · split at h
        · simp_all
        · simp only [List.mem_cons] at h ⊢
          tauto
      · simp only [List.mem_cons] at h ⊢
        rcases h with h | h
        · exact .inr (.inl h)
        · exact (ih h).imp id .inr

theorem Memory.write_wf {m : Memory} (h : m.wf) (a : Nat) (v : Byte) : (m.write a v).wf := by
  induction m with
  | nil =>
    simp only [Memory.write]
    split
    · exact Memory.wf_nil
    · exact Memory.wf_cons.2 ⟨by simp, ‹_›, Memory.wf_nil⟩
  | cons c m ih =>
    obtain ⟨hlt, hc, hm⟩ := Memory.wf_cons.1 h
    simp only [Memory.write]
    split
    · split
      · exact h
      · refine Memory.wf_cons.2 ⟨?_, ‹_›, h⟩
        intro d hd
        rcases List.mem_cons.1 hd with rfl | hd
        · assumption
        · exact lt_trans ‹a < c.1› (hlt d hd)
    · split
      · subst a
        split
        · exact hm
        · exact Memory.wf_cons.2 ⟨hlt, ‹_›, hm⟩
      · refine Memory.wf_cons.2 ⟨?_, hc, ih hm⟩
        intro d hd
        rcases Memory.mem_write hd with ⟨rfl, -⟩ | hd
        · dsimp only
          omega
        · exact hlt d hd

theorem Memory.write_within {m : Memory} {size : Nat} (h : m.within size) {a : Nat} (ha : a < size) (v : Byte) :
    (m.write a v).within size := by
  intro c hc
  rcases Memory.mem_write hc with ⟨rfl, -⟩ | hc
  · exact ha
  · exact h c hc

/-- A write changes the byte it names and no other. -/
theorem Memory.read_write {m : Memory} (h : m.wf) (a : Nat) (v : Byte) (x : Nat) :
    (m.write a v).read x = if x = a then v else m.read x := by
  induction m with
  | nil =>
    simp only [Memory.write]
    split
    · simp_all
    · simp only [Memory.read_cons, Memory.read_nil, eq_comm]
  | cons c m ih =>
    obtain ⟨hlt, -, hm⟩ := Memory.wf_cons.1 h
    simp only [Memory.write]
    split
    · have hun : x = a → Memory.read (c :: m) x = Memory.blank := by
        rintro rfl
        refine Memory.read_unlisted fun d hd => ?_
        rcases List.mem_cons.1 hd with rfl | hd
        · omega
        · have := hlt d hd
          omega
      split
      · split <;> simp_all
      · rw [Memory.read_cons]
        simp only [eq_comm]
    · split
      · subst a
        have hun : x = c.1 → Memory.read m x = Memory.blank := by
          rintro rfl
          exact Memory.read_unlisted fun d hd => (hlt d hd).ne'
        rw [Memory.read_cons]
        split
        · by_cases hx : x = c.1
          · simp_all
          · simp [hx, Ne.symm hx]
        · rw [Memory.read_cons]
          by_cases hx : x = c.1
          · simp [hx]
          · simp [hx, Ne.symm hx]
      · rw [Memory.read_cons, Memory.read_cons, ih hm]
        by_cases hx : c.1 = x
        · have : x ≠ a := by omega
          simp [hx, this]
        · simp [hx]

/-! ### Byte strings -/

theorem Memory.writeBytes_wf {m : Memory} (h : m.wf) (a : Nat) (bs : List Byte) : (m.writeBytes a bs).wf := by
  induction bs generalizing m a with
  | nil => exact h
  | cons b bs ih => exact ih (Memory.write_wf h a b) (a + 1)

theorem Memory.writeBytes_within {m : Memory} {size : Nat} (h : m.within size) {a : Nat} {bs : List Byte}
    (ha : bs.length = 0 ∨ a + bs.length ≤ size) : (m.writeBytes a bs).within size := by
  induction bs generalizing m a with
  | nil => exact h
  | cons b bs ih =>
    simp only [List.length_cons] at ha
    exact ih (Memory.write_within h (by omega) b) (by omega)

/-- A write of a byte string changes its own addresses and no other. -/
theorem Memory.read_writeBytes {m : Memory} (h : m.wf) (a : Nat) (bs : List Byte) (x : Nat) :
    (m.writeBytes a bs).read x = if a ≤ x ∧ x < a + bs.length then bs.getD (x - a) 0 else m.read x := by
  induction bs generalizing m a with
  | nil =>
    rw [if_neg (by simp only [List.length_nil]; omega)]
    rfl
  | cons b bs ih =>
    simp only [Memory.writeBytes]
    rw [ih (Memory.write_wf h a b), Memory.read_write h]
    simp only [List.length_cons]
    by_cases hx : x = a
    · subst hx
      simp
    · by_cases hin : a + 1 ≤ x ∧ x < a + 1 + bs.length
      · have : x - a = (x - (a + 1)) + 1 := by omega
        rw [if_pos hin, if_pos (by omega), this, List.getD_cons_succ]
      · rw [if_neg hin, if_neg hx, if_neg (by omega)]

@[simp] theorem Memory.length_bytes (m : Memory) (a n : Nat) : (m.bytes a n).length = n := by
  induction n generalizing a with
  | zero => rfl
  | succ n ih => simp [Memory.bytes, ih]

theorem Memory.getD_bytes (m : Memory) (a n k : Nat) (hk : k < n) : (m.bytes a n).getD k 0 = m.read (a + k) := by
  induction n generalizing a k with
  | zero => omega
  | succ n ih =>
    cases k with
    | zero => rfl
    | succ k =>
      rw [Memory.bytes, List.getD_cons_succ, ih (a + 1) k (by omega)]
      congr 1
      omega

/-- Byte strings are the same where the bytes are. -/
theorem Memory.bytes_congr {m m' : Memory} {a n : Nat} (h : ∀ x, a ≤ x → x < a + n → m.read x = m'.read x) :
    m.bytes a n = m'.bytes a n := by
  induction n generalizing a with
  | zero => rfl
  | succ n ih =>
    rw [Memory.bytes, Memory.bytes, h a (by omega) (by omega), ih fun x h1 h2 => h x (by omega) (by omega)]

/-- Reading a byte string back from where it was written. -/
theorem Memory.bytes_writeBytes {m : Memory} (h : m.wf) (a : Nat) (bs : List Byte) :
    (m.writeBytes a bs).bytes a bs.length = bs := by
  refine List.ext_getElem (by simp) fun k h1 h2 => ?_
  have hk : k < bs.length := h2
  have := Memory.getD_bytes (m.writeBytes a bs) a bs.length k hk
  rw [Memory.read_writeBytes h, if_pos (by omega)] at this
  simpa [List.getD_eq_getElem?_getD, h1, hk] using this

/-- A byte string outside the written addresses is unchanged. -/
theorem Memory.bytes_writeBytes_apart {m : Memory} (h : m.wf) (a : Nat) (bs : List Byte) {x n : Nat}
    (hx : x + n ≤ a ∨ a + bs.length ≤ x) : (m.writeBytes a bs).bytes x n = m.bytes x n := by
  refine Memory.bytes_congr fun y h1 h2 => ?_
  rw [Memory.read_writeBytes h, if_neg (by omega)]

theorem Memory.bytes_append (m : Memory) (a n k : Nat) : m.bytes a (n + k) = m.bytes a n ++ m.bytes (a + n) k := by
  induction n generalizing a with
  | zero => simp [Memory.bytes]
  | succ n ih =>
    rw [Nat.succ_add, Memory.bytes, ih (a + 1), Memory.bytes, List.cons_append, Nat.add_right_comm, Nat.add_assoc a n 1]

/-! ### Canonical form -/

/-- In canonical form a cell's byte is what its address reads as. -/
theorem Memory.read_mem {m : Memory} (h : m.wf) {c : Cell} (hc : c ∈ m) : m.read c.1 = c.2 := by
  induction m with
  | nil => simp at hc
  | cons d m ih =>
    obtain ⟨hlt, -, hm⟩ := Memory.wf_cons.1 h
    rw [Memory.read_cons]
    rcases List.mem_cons.1 hc with rfl | hc
    · simp
    · rw [if_neg (hlt c hc).ne, ih hm hc]

/-- In canonical form the listed addresses are those that do not read as blank. -/
theorem Memory.read_ne_blank {m : Memory} {a : Nat} (h : m.read a ≠ Memory.blank) : (a, m.read a) ∈ m := by
  induction m with
  | nil => exact absurd rfl h
  | cons c m ih =>
    rw [Memory.read_cons] at h ⊢
    split
    · subst a
      simp
    · rw [if_neg ‹_›] at h
      exact List.mem_cons_of_mem _ (ih h)

/-- Stores in canonical form that read alike are equal. -/
theorem Memory.ext_read {m m' : Memory} (h : m.wf) (h' : m'.wf) (heq : ∀ a, m.read a = m'.read a) : m = m' := by
  have sub : ∀ {m m' : Memory}, m.wf → m'.wf → (∀ a, m.read a = m'.read a) → ∀ c ∈ m, c ∈ m' := by
    intro m m' h h' heq c hc
    have hr := Memory.read_mem h hc
    have hne : m'.read c.1 ≠ Memory.blank := by
      rw [← heq, hr]
      exact h.2 c hc
    have := Memory.read_ne_blank hne
    rwa [← heq, hr] at this
  have nodup : ∀ {m : Memory}, m.wf → m.Nodup := fun h =>
    h.1.imp fun hlt heq => by simp [heq] at hlt
  exact List.Perm.eq_of_pairwise (le := fun c d : Cell => c.1 < d.1)
    (fun a b _ _ h1 h2 => absurd h2 (by omega)) h.1 h'.1
    ((List.perm_ext_iff_of_nodup (nodup h) (nodup h')).2 fun c => ⟨sub h h' heq c, sub h' h (fun a => (heq a).symm) c⟩)

end Sys2Proof.Machine
end

