-- ==== Sys2Proof/Laws/State.lean ====
section
/-! SUPPORT. One lemma per field per update of State, and the register file's own get and set. -/

namespace Sys2Proof.Machine

/-! ### The register file -/

@[simp] theorem Regs.get_set_self (x : Regs) (r : Reg) (v : Word) : (x.set r v).get r = v := by cases r <;> rfl

theorem Regs.get_set_of_ne (x : Regs) {r q : Reg} (v : Word) (h : q ≠ r) : (x.set r v).get q = x.get q := by
  cases r <;> cases q <;> first | rfl | exact absurd rfl h

theorem Regs.get_set (x : Regs) (r q : Reg) (v : Word) : (x.set r v).get q = if q = r then v else x.get q := by
  split
  · subst q
    exact Regs.get_set_self x r v
  · exact Regs.get_set_of_ne x v ‹_›

@[simp] theorem Regs.set_get_self (x : Regs) (r : Reg) : x.set r (x.get r) = x := by cases r <;> rfl

@[simp] theorem Regs.set_set (x : Regs) (r : Reg) (v w : Word) : (x.set r v).set r w = x.set r w := by cases r <;> rfl

/-- Register files that hold the same in every slot are equal. -/
theorem Regs.ext_get {x y : Regs} (h : ∀ r, x.get r = y.get r) : x = y := by
  have he := fun r => h r
  cases x
  cases y
  simp only [Regs.mk.injEq]
  exact ⟨he .eax, he .ecx, he .edx, he .ebx, he .esp, he .ebp, he .esi, he .edi⟩

theorem State.reg_eq (s : State) (r : Reg) : s.reg r = s.regs.get r := rfl

@[simp] theorem State.reg_setReg_self (s : State) (r : Reg) (v : Word) : (s.setReg r v).reg r = v :=
  Regs.get_set_self s.regs r v

theorem State.reg_setReg_of_ne (s : State) {r q : Reg} (v : Word) (h : q ≠ r) : (s.setReg r v).reg q = s.reg q :=
  Regs.get_set_of_ne s.regs v h

theorem State.reg_setReg (s : State) (r q : Reg) (v : Word) :
    (s.setReg r v).reg q = if q = r then v else s.reg q := Regs.get_set s.regs r q v

/-! ### Fields after updates -/

@[simp] theorem State.setReg_regs (s : State) (r : Reg) (v : Word) : (s.setReg r v).regs = s.regs.set r v := rfl
@[simp] theorem State.setReg_ip (s : State) (r : Reg) (v : Word) : (s.setReg r v).ip = s.ip := rfl
@[simp] theorem State.setReg_flags (s : State) (r : Reg) (v : Word) : (s.setReg r v).flags = s.flags := rfl
@[simp] theorem State.setReg_o16 (s : State) (r : Reg) (v : Word) : (s.setReg r v).o16 = s.o16 := rfl
@[simp] theorem State.setReg_status (s : State) (r : Reg) (v : Word) : (s.setReg r v).status = s.status := rfl
@[simp] theorem State.setReg_mem (s : State) (r : Reg) (v : Word) : (s.setReg r v).mem = s.mem := rfl
@[simp] theorem State.setReg_output (s : State) (r : Reg) (v : Word) : (s.setReg r v).output = s.output := rfl
@[simp] theorem State.setReg_input (s : State) (r : Reg) (v : Word) : (s.setReg r v).input = s.input := rfl
@[simp] theorem State.setReg_draws (s : State) (r : Reg) (v : Word) : (s.setReg r v).draws = s.draws := rfl
@[simp] theorem State.setReg_cfg (s : State) (r : Reg) (v : Word) : (s.setReg r v).cfg = s.cfg := rfl

@[simp] theorem State.setFlag_regs (s : State) (f : Flag) (b : Bool) : (s.setFlag f b).regs = s.regs := rfl
@[simp] theorem State.setFlag_ip (s : State) (f : Flag) (b : Bool) : (s.setFlag f b).ip = s.ip := rfl
@[simp] theorem State.setFlag_flags (s : State) (f : Flag) (b : Bool) : (s.setFlag f b).flags = putBit s.flags f.pos b := rfl
@[simp] theorem State.setFlag_o16 (s : State) (f : Flag) (b : Bool) : (s.setFlag f b).o16 = s.o16 := rfl
@[simp] theorem State.setFlag_status (s : State) (f : Flag) (b : Bool) : (s.setFlag f b).status = s.status := rfl
@[simp] theorem State.setFlag_mem (s : State) (f : Flag) (b : Bool) : (s.setFlag f b).mem = s.mem := rfl
@[simp] theorem State.setFlag_output (s : State) (f : Flag) (b : Bool) : (s.setFlag f b).output = s.output := rfl
@[simp] theorem State.setFlag_input (s : State) (f : Flag) (b : Bool) : (s.setFlag f b).input = s.input := rfl
@[simp] theorem State.setFlag_draws (s : State) (f : Flag) (b : Bool) : (s.setFlag f b).draws = s.draws := rfl
@[simp] theorem State.setFlag_cfg (s : State) (f : Flag) (b : Bool) : (s.setFlag f b).cfg = s.cfg := rfl

@[simp] theorem State.jump_regs (s : State) (a : Word) : (s.jump a).regs = s.regs := rfl
@[simp] theorem State.jump_ip (s : State) (a : Word) : (s.jump a).ip = a := rfl
@[simp] theorem State.jump_flags (s : State) (a : Word) : (s.jump a).flags = s.flags := rfl
@[simp] theorem State.jump_o16 (s : State) (a : Word) : (s.jump a).o16 = s.o16 := rfl
@[simp] theorem State.jump_status (s : State) (a : Word) : (s.jump a).status = s.status := rfl
@[simp] theorem State.jump_mem (s : State) (a : Word) : (s.jump a).mem = s.mem := rfl
@[simp] theorem State.jump_output (s : State) (a : Word) : (s.jump a).output = s.output := rfl
@[simp] theorem State.jump_input (s : State) (a : Word) : (s.jump a).input = s.input := rfl
@[simp] theorem State.jump_draws (s : State) (a : Word) : (s.jump a).draws = s.draws := rfl
@[simp] theorem State.jump_cfg (s : State) (a : Word) : (s.jump a).cfg = s.cfg := rfl

@[simp] theorem State.out_regs (s : State) (bs : List Byte) : (s.out bs).regs = s.regs := rfl
@[simp] theorem State.out_ip (s : State) (bs : List Byte) : (s.out bs).ip = s.ip := rfl
@[simp] theorem State.out_flags (s : State) (bs : List Byte) : (s.out bs).flags = s.flags := rfl
@[simp] theorem State.out_o16 (s : State) (bs : List Byte) : (s.out bs).o16 = s.o16 := rfl
@[simp] theorem State.out_status (s : State) (bs : List Byte) : (s.out bs).status = s.status := rfl
@[simp] theorem State.out_mem (s : State) (bs : List Byte) : (s.out bs).mem = s.mem := rfl
@[simp] theorem State.out_output (s : State) (bs : List Byte) : (s.out bs).output = s.output ++ bs := rfl
@[simp] theorem State.out_input (s : State) (bs : List Byte) : (s.out bs).input = s.input := rfl
@[simp] theorem State.out_draws (s : State) (bs : List Byte) : (s.out bs).draws = s.draws := rfl
@[simp] theorem State.out_cfg (s : State) (bs : List Byte) : (s.out bs).cfg = s.cfg := rfl

@[simp] theorem State.fetched_regs (s : State) (a : Word) : (s.fetched a).regs = s.regs := rfl
@[simp] theorem State.fetched_ip (s : State) (a : Word) : (s.fetched a).ip = a := rfl
@[simp] theorem State.fetched_flags (s : State) (a : Word) : (s.fetched a).flags = s.flags := rfl
@[simp] theorem State.fetched_o16 (s : State) (a : Word) : (s.fetched a).o16 = false := rfl
@[simp] theorem State.fetched_status (s : State) (a : Word) : (s.fetched a).status = s.status := rfl
@[simp] theorem State.fetched_mem (s : State) (a : Word) : (s.fetched a).mem = s.mem := rfl
@[simp] theorem State.fetched_output (s : State) (a : Word) : (s.fetched a).output = s.output := rfl
@[simp] theorem State.fetched_input (s : State) (a : Word) : (s.fetched a).input = s.input := rfl
@[simp] theorem State.fetched_draws (s : State) (a : Word) : (s.fetched a).draws = s.draws := rfl
@[simp] theorem State.fetched_cfg (s : State) (a : Word) : (s.fetched a).cfg = s.cfg := rfl

@[simp] theorem State.drawEax_regs (s : State) : (s.drawEax).regs = s.regs.set .eax (Config.freeWord s.draws) := rfl
@[simp] theorem State.drawEax_ip (s : State) : (s.drawEax).ip = s.ip := rfl
@[simp] theorem State.drawEax_flags (s : State) : (s.drawEax).flags = s.flags := rfl
@[simp] theorem State.drawEax_o16 (s : State) : (s.drawEax).o16 = s.o16 := rfl
@[simp] theorem State.drawEax_status (s : State) : (s.drawEax).status = s.status := rfl
@[simp] theorem State.drawEax_mem (s : State) : (s.drawEax).mem = s.mem := rfl
@[simp] theorem State.drawEax_output (s : State) : (s.drawEax).output = s.output := rfl
@[simp] theorem State.drawEax_input (s : State) : (s.drawEax).input = s.input := rfl
@[simp] theorem State.drawEax_draws (s : State) : (s.drawEax).draws = s.draws + 1 := rfl
@[simp] theorem State.drawEax_cfg (s : State) : (s.drawEax).cfg = s.cfg := rfl

@[simp] theorem State.setCfZf_regs (s : State) (c z : Bool) : (s.setCfZf c z).regs = s.regs := rfl
@[simp] theorem State.setCfZf_ip (s : State) (c z : Bool) : (s.setCfZf c z).ip = s.ip := rfl
@[simp] theorem State.setCfZf_flags (s : State) (c z : Bool) : (s.setCfZf c z).flags = putBit (putBit s.flags 0 c) 6 z := rfl
@[simp] theorem State.setCfZf_o16 (s : State) (c z : Bool) : (s.setCfZf c z).o16 = s.o16 := rfl
@[simp] theorem State.setCfZf_status (s : State) (c z : Bool) : (s.setCfZf c z).status = s.status := rfl
@[simp] theorem State.setCfZf_mem (s : State) (c z : Bool) : (s.setCfZf c z).mem = s.mem := rfl
@[simp] theorem State.setCfZf_output (s : State) (c z : Bool) : (s.setCfZf c z).output = s.output := rfl
@[simp] theorem State.setCfZf_input (s : State) (c z : Bool) : (s.setCfZf c z).input = s.input := rfl
@[simp] theorem State.setCfZf_draws (s : State) (c z : Bool) : (s.setCfZf c z).draws = s.draws := rfl
@[simp] theorem State.setCfZf_cfg (s : State) (c z : Bool) : (s.setCfZf c z).cfg = s.cfg := rfl

@[simp] theorem State.jumpS_regs (s : State) (a : Word) : (s.jumpS a).regs = s.regs := rfl
@[simp] theorem State.jumpS_ip (s : State) (a : Word) : (s.jumpS a).ip = s.width.trunc a := rfl
@[simp] theorem State.jumpS_flags (s : State) (a : Word) : (s.jumpS a).flags = s.flags := rfl
@[simp] theorem State.jumpS_o16 (s : State) (a : Word) : (s.jumpS a).o16 = s.o16 := rfl
@[simp] theorem State.jumpS_status (s : State) (a : Word) : (s.jumpS a).status = s.status := rfl
@[simp] theorem State.jumpS_mem (s : State) (a : Word) : (s.jumpS a).mem = s.mem := rfl
@[simp] theorem State.jumpS_output (s : State) (a : Word) : (s.jumpS a).output = s.output := rfl
@[simp] theorem State.jumpS_input (s : State) (a : Word) : (s.jumpS a).input = s.input := rfl
@[simp] theorem State.jumpS_draws (s : State) (a : Word) : (s.jumpS a).draws = s.draws := rfl
@[simp] theorem State.jumpS_cfg (s : State) (a : Word) : (s.jumpS a).cfg = s.cfg := rfl

/-- A register view's write changes the register file alone. -/
theorem State.set_eq (s : State) (r : RegRef) (v : Word) : s.set r v = { s with regs := (s.set r v).regs } := by
  cases r with
  | r32 r => rfl
  | r16 r => rfl
  | r8 r =>
    simp only [State.set]
    split <;> rfl

@[simp] theorem State.set_ip (s : State) (r : RegRef) (v : Word) : (s.set r v).ip = s.ip := by rw [State.set_eq]
@[simp] theorem State.set_flags (s : State) (r : RegRef) (v : Word) : (s.set r v).flags = s.flags := by rw [State.set_eq]
@[simp] theorem State.set_o16 (s : State) (r : RegRef) (v : Word) : (s.set r v).o16 = s.o16 := by rw [State.set_eq]
@[simp] theorem State.set_status (s : State) (r : RegRef) (v : Word) : (s.set r v).status = s.status := by rw [State.set_eq]
@[simp] theorem State.set_mem (s : State) (r : RegRef) (v : Word) : (s.set r v).mem = s.mem := by rw [State.set_eq]
@[simp] theorem State.set_output (s : State) (r : RegRef) (v : Word) : (s.set r v).output = s.output := by rw [State.set_eq]
@[simp] theorem State.set_input (s : State) (r : RegRef) (v : Word) : (s.set r v).input = s.input := by rw [State.set_eq]
@[simp] theorem State.set_draws (s : State) (r : RegRef) (v : Word) : (s.set r v).draws = s.draws := by rw [State.set_eq]
@[simp] theorem State.set_cfg (s : State) (r : RegRef) (v : Word) : (s.set r v).cfg = s.cfg := by rw [State.set_eq]

end Sys2Proof.Machine
end

