-- ==== Sys2Proof/Laws/Views.lean ====
section
/-! SUPPORT. Register views (10_state.md R22 to R25), truncation, and the flags slot. -/

namespace Sys2Proof

theorem Width.toNat_trunc (w : Width) (v : Word) : (w.trunc v).toNat = v.toNat % 2 ^ (8 * w.bytes) := by
  have := v.isLt
  cases w <;> simp [Width.trunc, Width.bytes] <;> omega

@[simp] theorem Width.trunc_trunc (w : Width) (v : Word) : w.trunc (w.trunc v) = w.trunc v := by
  apply BitVec.eq_of_toNat_eq
  simp [Width.toNat_trunc]

theorem Width.trunc_lt (w : Width) (v : Word) : (w.trunc v).toNat < 2 ^ (8 * w.bytes) := by
  rw [Width.toNat_trunc]
  exact Nat.mod_lt _ (Nat.two_pow_pos _)

end Sys2Proof

namespace Sys2Proof.Machine

/-- What a view shows, bit by bit: the bits of its slot from its first on (R23). -/
theorem State.getLsbD_get (s : State) (r : RegRef) (i : Nat) :
    (s.get r).getLsbD i = (decide (i < 8 * r.width.bytes) && (s.reg r.slot).getLsbD (r.start + i)) := by
  cases r with
  | r32 r =>
    simp only [State.get, RegRef.width, Width.bytes, RegRef.slot, RegRef.start, Nat.zero_add]
    by_cases hi : i < 32
    · simp [hi]
    · simp [hi, BitVec.getLsbD_of_ge _ i (by omega : 32 ≤ i)]
  | r16 r =>
    simp only [State.get, RegRef.width, Width.bytes, RegRef.slot, RegRef.start]
    simp only [BitVec.getLsbD_setWidth, BitVec.getLsbD_extractLsb']
    by_cases hi : i < 16
    · simp [hi, show i < 32 by omega]
    · simp [hi]
  | r8 r =>
    simp only [State.get, RegRef.width, Width.bytes, RegRef.slot, RegRef.start]
    split <;>
    · simp only [BitVec.getLsbD_setWidth, BitVec.getLsbD_extractLsb']
      by_cases hi : i < 8
      · simp [hi, show i < 32 by omega]
      · simp [hi]

/-- What a view's write leaves in its slot, bit by bit: the value's bits in the view, the old ones elsewhere (R24). -/
theorem State.getLsbD_set (s : State) (r : RegRef) (v : Word) (i : Nat) (hi : i < 32) :
    ((s.set r v).reg r.slot).getLsbD i =
      if r.start ≤ i ∧ i < r.start + 8 * r.width.bytes then v.getLsbD (i - r.start) else (s.reg r.slot).getLsbD i := by
  cases r with
  | r32 r => simp [State.set, RegRef.width, Width.bytes, RegRef.slot, RegRef.start, hi]
  | r16 r =>
    simp only [State.set, RegRef.slot, State.reg_setReg_self, RegRef.start, RegRef.width, Width.bytes, mergeHalf]
    simp only [BitVec.getLsbD_append, BitVec.getLsbD_setWidth, BitVec.getLsbD_extractLsb']
    by_cases h : i < 16
    · simp [h]
    · simp [h, show i - 16 < 16 by omega, show 16 + (i - 16) = i by omega]
  | r8 r =>
    simp only [State.set, RegRef.slot, RegRef.start, RegRef.width, Width.bytes]
    split
    · simp only [State.reg_setReg_self, mergeHigh, BitVec.getLsbD_append, BitVec.getLsbD_setWidth,
        BitVec.getLsbD_extractLsb']
      by_cases h : i < 8
      · simp [h, show ¬ 8 ≤ i by omega]
      · by_cases h2 : i < 16
        · simp [h, h2, show 8 ≤ i by omega, show i - 8 < 8 by omega]
        · simp [h, h2, show ¬ i - 8 < 8 by omega, show i - 8 - 8 < 16 by omega, show 16 + (i - 8 - 8) = i by omega]
    · simp only [State.reg_setReg_self, mergeLow, BitVec.getLsbD_append, BitVec.getLsbD_setWidth,
        BitVec.getLsbD_extractLsb']
      by_cases h : i < 8
      · simp [h]
      · simp [h, show i - 8 < 24 by omega, show 8 + (i - 8) = i by omega]

/-- A view's write touches no other slot. -/
theorem State.reg_set_of_ne (s : State) (r : RegRef) (v : Word) {q : Reg} (h : q ≠ r.slot) :
    (s.set r v).reg q = s.reg q := by
  cases r with
  | r32 r => exact State.reg_setReg_of_ne s _ h
  | r16 r => exact State.reg_setReg_of_ne s _ h
  | r8 r =>
    simp only [State.set]
    split <;> exact State.reg_setReg_of_ne s _ h

theorem RegRef.start_add_width (r : RegRef) : r.start + 8 * r.width.bytes ≤ 32 := by
  cases r with
  | r32 r => simp [RegRef.start, RegRef.width, Width.bytes]
  | r16 r => simp [RegRef.start, RegRef.width, Width.bytes]
  | r8 r =>
    simp only [RegRef.start, RegRef.width, Width.bytes]
    split <;> omega

/-- Reading a view back gives what was written, truncated to it (R25). -/
theorem State.get_set_self (s : State) (r : RegRef) (v : Word) : (s.set r v).get r = r.width.trunc v := by
  apply BitVec.eq_of_getLsbD_eq
  intro i hi
  have hw := r.start_add_width
  rw [State.getLsbD_get]
  by_cases h : i < 8 * r.width.bytes
  · rw [State.getLsbD_set s r v (r.start + i) (by omega), if_pos (by omega), Nat.add_sub_cancel_left]
    rw [← BitVec.testBit_toNat (r.width.trunc v), Width.toNat_trunc, Nat.testBit_mod_two_pow]
    simp [h, BitVec.testBit_toNat]
  · rw [← BitVec.testBit_toNat (r.width.trunc v), Width.toNat_trunc, Nat.testBit_mod_two_pow]
    simp [h]

/-- A view's value fits its width. -/
theorem State.get_lt (s : State) (r : RegRef) : (s.get r).toNat < 2 ^ (8 * r.width.bytes) := by
  refine Nat.lt_pow_two_of_testBit _ fun i hi => ?_
  rw [BitVec.testBit_toNat, State.getLsbD_get]
  simp
  omega

/-- Writing back what a view shows changes nothing. -/
theorem State.set_get_self (s : State) (r : RegRef) : s.set r (s.get r) = s := by
  have : (s.set r (s.get r)).regs = s.regs := by
    refine Regs.ext_get fun q => ?_
    by_cases hq : q = r.slot
    · subst hq
      apply BitVec.eq_of_getLsbD_eq
      intro i hi
      have := State.getLsbD_set s r (s.get r) i hi
      rw [State.reg_eq] at this
      rw [this]
      split
      · rw [State.getLsbD_get, show r.start + (i - r.start) = i by omega]
        simp [show i - r.start < 8 * r.width.bytes by omega, State.reg_eq]
      · rfl
    · exact State.reg_set_of_ne s r _ hq
  rw [State.set_eq, this]

theorem State.wideRef_width (s : State) (r : Reg) : (s.wideRef r).width = s.width := by
  simp only [State.wideRef, State.width, immWidth]
  split <;> rfl

theorem State.wideRef_slot (s : State) (r : Reg) : (s.wideRef r).slot = r := by
  simp only [State.wideRef]
  split <;> rfl

/-! ### The flags slot (R31, R32) -/

theorem getLsbD_putBit (v : Word) (n : Nat) (b : Bool) (i : Nat) (hn : n < 32) :
    (putBit v n b).getLsbD i = if i = n then b else v.getLsbD i := by
  have hone : ((1 : Word) <<< n).getLsbD i = decide (i = n) := by
    simp only [BitVec.getLsbD_shiftLeft]
    by_cases h : i < n
    · simp [h, show i ≠ n by omega]
    · by_cases h2 : i = n
      · simp [h2, hn]
      · simp [h, h2, show i - n ≠ 0 by omega]
  cases b with
  | true =>
    simp only [putBit, if_true, BitVec.getLsbD_or, hone]
    by_cases h : i = n <;> simp [h]
  | false =>
    simp only [putBit, Bool.false_eq_true, if_false, BitVec.getLsbD_and, BitVec.getLsbD_not, hone]
    by_cases h : i = n
    · simp [h]
    · by_cases hi : i < 32
      · simp [h, hi]
      · simp [h, hi, BitVec.getLsbD_of_ge v i (by omega)]

theorem State.getLsbD_setCfZf (s : State) (c z : Bool) (i : Nat) :
    (s.setCfZf c z).flags.getLsbD i = if i = 0 then c else if i = 6 then z else s.flags.getLsbD i := by
  rw [State.setCfZf_flags, getLsbD_putBit _ _ _ _ (by decide), getLsbD_putBit _ _ _ _ (by decide)]
  by_cases h0 : i = 0
  · subst i
    simp
  · by_cases h6 : i = 6 <;> simp [h0, h6]

end Sys2Proof.Machine
end

