-- ==== Sys2Proof/Laws/Ops.lean ====
section
/-! SUPPORT. What each shared operation can do, said once. -/

namespace Sys2Proof.Machine

open Host (Outcome)

/-! ### Outcomes -/

@[simp] theorem finish_ok (s : State) : finish (.ok s) = .next s := rfl

@[simp] theorem finish_error (r : Fault) : finish (.error r) = .fault r := rfl

theorem finish_eq_next {x : Except Fault State} {t : State} : finish x = .next t ↔ x = .ok t := by
  cases x <;> simp [finish]

theorem finish_eq_fault {x : Except Fault State} {r : Fault} : finish x = .fault r ↔ x = .error r := by
  cases x <;> simp [finish]

theorem finish_ne_refused (x : Except Fault State) (r : Refusal) : finish x ≠ .refused r := by
  cases x <;> simp [finish]

/-- A sequence that succeeds did so part by part. -/
theorem bind_eq_ok {ε α β : Type} {x : Except ε α} {f : α → Except ε β} {b : β} :
    x >>= f = .ok b ↔ ∃ a, x = .ok a ∧ f a = .ok b := by
  cases x with
  | error e => exact ⟨fun h => (nomatch h), fun ⟨_, h, _⟩ => (nomatch h)⟩
  | ok a => exact ⟨fun h => ⟨a, rfl, h⟩, fun ⟨_, h, h'⟩ => by cases h; exact h'⟩

@[simp] theorem ok_bind {ε α β : Type} (a : α) (f : α → Except ε β) : (Except.ok a >>= f) = f a := rfl

@[simp] theorem error_bind {ε α β : Type} (e : ε) (f : α → Except ε β) :
    ((Except.error e : Except ε α) >>= f) = .error e := rfl

/-! ### Memory -/

theorem State.inBounds_iff (s : State) (a : Word) (n : Nat) : s.inBounds a n = true ↔ a.toNat + n ≤ s.cfg.memSize := by
  simp [State.inBounds]

theorem memRead_eq_ok {s : State} {a : Word} {w : Width} {v : Word} :
    memRead s a w = .ok v ↔ a.toNat + w.bytes ≤ s.cfg.memSize ∧ v = leWord (s.mem.bytes a.toNat w.bytes) := by
  simp only [memRead, raise, State.inBounds, decide_eq_true_eq]
  split <;> simp [*, eq_comm]

theorem memRead_eq_error {s : State} {a : Word} {w : Width} {r : Fault} :
    memRead s a w = .error r ↔ s.cfg.memSize < a.toNat + w.bytes ∧ r = .outOfBounds a := by
  simp only [memRead, raise, State.inBounds, decide_eq_true_eq]
  split
  · simp
    omega
  · simp [eq_comm]
    omega

theorem memWrite_eq_ok {s t : State} {a : Word} {w : Width} {v : Word} :
    memWrite a w v s = .ok t ↔ a.toNat + w.bytes ≤ s.cfg.memSize ∧
      t = { s with mem := s.mem.writeBytes a.toNat (leBytes w.bytes v.toNat) } := by
  simp only [memWrite, raise, State.inBounds, decide_eq_true_eq]
  split <;> simp [*, eq_comm]

theorem memWrite_eq_error {s : State} {a : Word} {w : Width} {v : Word} {r : Fault} :
    memWrite a w v s = .error r ↔ s.cfg.memSize < a.toNat + w.bytes ∧ r = .outOfBounds a := by
  simp only [memWrite, raise, State.inBounds, decide_eq_true_eq]
  split
  · simp
    omega
  · simp [eq_comm]
    omega

theorem blockRead_eq_ok {s : State} {a : Word} {n : Nat} {bs : List Byte} :
    blockRead s a n = .ok bs ↔ (n = 0 ∨ a.toNat + n ≤ s.cfg.memSize) ∧ bs = s.mem.bytes a.toNat n := by
  simp only [blockRead, raise, State.inBounds, decide_eq_true_eq]
  split <;> simp [*, eq_comm]

theorem blockWrite_eq_ok {s t : State} {a : Word} {bs : List Byte} :
    blockWrite a bs s = .ok t ↔ (bs.length = 0 ∨ a.toNat + bs.length ≤ s.cfg.memSize) ∧
      t = { s with mem := s.mem.writeBytes a.toNat bs } := by
  simp only [blockWrite, raise, State.inBounds, decide_eq_true_eq]
  split
  · exact ⟨fun h => ⟨‹_›, (Except.ok.inj h).symm⟩, fun h => by rw [h.2]⟩
  · exact ⟨fun h => (nomatch h), fun h => absurd h.1 ‹_›⟩

/-- The little-endian value of stored bytes as the sum of R53. -/
theorem leNat_bytes (m : Memory) (a n : Nat) :
    leNat (m.bytes a n) = ((List.range n).map fun k => (m.read (a + k)).toNat * 256 ^ k).sum := by
  induction n generalizing a with
  | zero => rfl
  | succ n ih =>
    rw [Memory.bytes, leNat, ih, List.range_succ_eq_map, List.map_cons, List.sum_cons, List.map_map, ← List.sum_map_mul_left]
    congr 1
    · simp
    · congr 1
      refine List.map_congr_left fun k _ => ?_
      simp only [Function.comp, Nat.pow_succ, Nat.add_assoc, Nat.add_comm 1 k]
      ring

/-- A scalar read back from where it was written, modulo its width. -/
theorem leWord_bytes_writeBytes {m : Memory} (h : m.wf) (a : Nat) (w : Width) (v : Word) :
    leWord ((m.writeBytes a (leBytes w.bytes v.toNat)).bytes a w.bytes) = w.trunc v := by
  have := Memory.bytes_writeBytes h a (leBytes w.bytes v.toNat)
  rw [length_leBytes] at this
  apply BitVec.eq_of_toNat_eq
  rw [this, leWord_leBytes _ w.bytes_le, Width.toNat_trunc, show (256 : Nat) = 2 ^ 8 from rfl, ← Nat.pow_mul]

theorem toNat_leWord_bytes (m : Memory) (a : Nat) (w : Width) :
    (leWord (m.bytes a w.bytes)).toNat = leNat (m.bytes a w.bytes) :=
  toNat_leWord _ (by simpa using w.bytes_le)

theorem leWord_bytes_lt (m : Memory) (a : Nat) (w : Width) :
    (leWord (m.bytes a w.bytes)).toNat < 2 ^ (8 * w.bytes) := by
  have h := leNat_lt (m.bytes a w.bytes)
  rw [Memory.length_bytes, show (256 : Nat) = 2 ^ 8 from rfl, ← Nat.pow_mul] at h
  rwa [toNat_leWord_bytes]

/-! ### Operands -/

theorem readLoc_eq_ok {s : State} {l : Loc} {w : Width} {v : Word} :
    readLoc s l w = .ok v ↔ match l with
      | .reg r => v = s.get r
      | .mem a => a.toNat + w.bytes ≤ s.cfg.memSize ∧ v = leWord (s.mem.bytes a.toNat w.bytes) := by
  cases l with
  | reg r => simp [readLoc, eq_comm]
  | mem a => exact memRead_eq_ok

theorem writeLoc_eq_ok {s t : State} {l : Loc} {w : Width} {v : Word} :
    writeLoc l w v s = .ok t ↔ match l with
      | .reg r => t = s.set r v
      | .mem a => a.toNat + w.bytes ≤ s.cfg.memSize ∧
          t = { s with mem := s.mem.writeBytes a.toNat (leBytes w.bytes v.toNat) } := by
  cases l with
  | reg r => simp [writeLoc, eq_comm]
  | mem a => exact memWrite_eq_ok

/-- A location's write changes registers and memory alone. -/
theorem writeLoc_frame {s t : State} {l : Loc} {w : Width} {v : Word} (h : writeLoc l w v s = .ok t) :
    t = { s with regs := t.regs, mem := t.mem } := by
  rw [writeLoc_eq_ok] at h
  cases l with
  | reg r =>
    subst h
    exact (State.set_eq s r v).trans (by simp)
  | mem a => rw [h.2]

/-! ### The stack -/

theorem push_eq_ok {s t : State} {v : Word} :
    push v s = .ok t ↔ (s.reg .esp - s.stackStep).toNat + s.width.bytes ≤ s.cfg.memSize ∧
      t = { s with
        regs := s.regs.set .esp (s.reg .esp - s.stackStep)
        mem := s.mem.writeBytes (s.reg .esp - s.stackStep).toNat (leBytes s.width.bytes v.toNat) } := by
  simp only [push, bind_eq_ok, memWrite_eq_ok]
  constructor
  · rintro ⟨a, ⟨h, rfl⟩, h2⟩
    exact ⟨h, (Except.ok.inj h2).symm⟩
  · rintro ⟨h, rfl⟩
    exact ⟨_, ⟨h, rfl⟩, rfl⟩

theorem pop_eq_ok {s t : State} {v : Word} :
    pop s = .ok (v, t) ↔ (s.reg .esp).toNat + s.width.bytes ≤ s.cfg.memSize ∧
      v = leWord (s.mem.bytes (s.reg .esp).toNat s.width.bytes) ∧
      t = s.setReg .esp (s.reg .esp + s.stackStep) := by
  simp only [pop, bind_eq_ok, memRead_eq_ok]
  constructor
  · rintro ⟨a, ⟨h, rfl⟩, h2⟩
    have h2 := Except.ok.inj h2
    exact ⟨h, (congrArg Prod.fst h2).symm, (congrArg Prod.snd h2).symm⟩
  · rintro ⟨h, rfl, rfl⟩
    exact ⟨_, ⟨h, rfl⟩, rfl⟩

theorem push_frame {s t : State} {v : Word} (h : push v s = .ok t) : t = { s with regs := t.regs, mem := t.mem } := by
  rw [(push_eq_ok.1 h).2]

theorem pop_frame {s t : State} {v : Word} (h : pop s = .ok (v, t)) : t = { s with regs := t.regs } := by
  rw [(pop_eq_ok.1 h).2.2]
  rfl

/-- PUSHA's pushes change registers and memory alone. -/
theorem pushAll_frame {esp0 : Word} {rs : List Reg} {s t : State} (h : pushAll esp0 rs s = .ok t) :
    t = { s with regs := t.regs, mem := t.mem } := by
  induction rs generalizing s with
  | nil =>
    obtain rfl := Except.ok.inj h
    rfl
  | cons r rs ih =>
    obtain ⟨u, hu, hr⟩ := bind_eq_ok.1 h
    have h1 := push_frame hu
    have h2 := ih hr
    rw [h2, h1]

/-- POPA's pops change registers alone. -/
theorem popAll_frame {rs : List Reg} {s t : State} (h : popAll rs s = .ok t) : t = { s with regs := t.regs } := by
  induction rs generalizing s with
  | nil =>
    obtain rfl := Except.ok.inj h
    rfl
  | cons r rs ih =>
    obtain ⟨⟨v, u⟩, hu, hr⟩ := bind_eq_ok.1 h
    have h1 := pop_frame hu
    have h2 := ih hr
    rw [h2, h1]
    dsimp only
    split
    · rw [h1]
    · rw [State.set_eq, h1]

end Sys2Proof.Machine
end

