-- ==== Sys2Proof/Laws/Decoding.lean ====
section
/-! SUPPORT. Decoding where a fetch supplies given bytes: one lemma per part of an instruction, and the two sources of
bytes, a list and the store. -/

namespace Sys2Proof

open Sys2Proof.Machine (ok_bind)

/-- The fetch delivers the bytes `bs` from `ip` on, at every width that stays inside them. -/
def Supplies (f : Fetch) (ip : Word) (bs : List Byte) : Prop :=
  ∀ k w, k + w.bytes ≤ bs.length → f (ip + BitVec.ofNat 32 k) w = some (leWord ((bs.drop k).take w.bytes))

theorem Supplies.left {f : Fetch} {ip : Word} {a b : List Byte} (h : Supplies f ip (a ++ b)) : Supplies f ip a := by
  intro k w hk
  rw [h k w (by rw [List.length_append]; omega), List.drop_append_of_le_length (by omega),
    List.take_append_of_le_length (by rw [List.length_drop]; omega)]

theorem Supplies.right {f : Fetch} {ip : Word} {a b : List Byte} (h : Supplies f ip (a ++ b)) :
    Supplies f (ip + BitVec.ofNat 32 a.length) b := by
  intro k w hk
  have := h (a.length + k) w (by rw [List.length_append]; omega)
  rw [← List.drop_drop, List.drop_left] at this
  rw [BitVec.add_assoc, ← BitVec.ofNat_add]
  exact this

theorem Supplies.tail {f : Fetch} {ip : Word} {b : Byte} {bs : List Byte} (h : Supplies f ip (b :: bs)) :
    Supplies f (ip + 1) bs :=
  Supplies.right (a := [b]) h

theorem fetchAt_supplied {f : Fetch} {ip : Word} {bs rest : List Byte} {w : Width} (h : Supplies f ip (bs ++ rest))
    (hw : bs.length = w.bytes) (r : Option (Addr × Width)) :
    fetchAt f w ip r = .ok (leWord bs, ip + BitVec.ofNat 32 bs.length) := by
  have := h.left 0 w (by omega)
  simp only [List.drop_zero, ← hw, List.take_length] at this
  rw [show ip + BitVec.ofNat 32 0 = ip by simp] at this
  simp [fetchAt, this, hw]

theorem leWord_singleton (b : Byte) : lowByte (leWord [b]) = b := by
  apply BitVec.eq_of_toNat_eq
  have := b.isLt
  simp [lowByte, leWord, leNat]

theorem fetchByte_supplied {f : Fetch} {ip : Word} {b : Byte} {bs : List Byte} (h : Supplies f ip (b :: bs))
    (r : Option (Addr × Width)) : fetchByte f ip r = .ok (b, ip + 1) := by
  rw [fetchByte, fetchAt_supplied (bs := [b]) (rest := bs) (w := .w8) h rfl]
  simp only [ok_bind, leWord_singleton]
  rfl

/-- A word's bytes fetched back, modulo the width. -/
theorem fetchAt_leBytes {f : Fetch} {ip : Word} {w : Width} {v : Word} {rest : List Byte}
    (h : Supplies f ip (leBytes w.bytes v.toNat ++ rest)) (hv : w.trunc v = v) (r : Option (Addr × Width)) :
    fetchAt f w ip r = .ok (v, ip + BitVec.ofNat 32 w.bytes) := by
  rw [fetchAt_supplied h (by simp), length_leBytes]
  have : leWord (leBytes w.bytes v.toNat) = v := by
    apply BitVec.eq_of_toNat_eq
    rw [leWord_leBytes _ w.bytes_le, show (256 : Nat) = 2 ^ 8 from rfl, ← Nat.pow_mul, ← Width.toNat_trunc, hv]
  rw [this]

theorem trunc_of_immFits {o16 : Bool} {imm : Word} (h : immFits o16 imm = true) : (immWidth o16).trunc imm = imm := by
  apply BitVec.eq_of_toNat_eq
  rw [Width.toNat_trunc]
  have := imm.isLt
  cases o16 with
  | false => exact Nat.mod_eq_of_lt (by simpa [immWidth, Width.bytes] using this)
  | true =>
    simp only [immFits, Bool.not_true, Bool.false_or, decide_eq_true_eq] at h
    exact Nat.mod_eq_of_lt (by simpa [immWidth, Width.bytes] using h)

/-! ### The r/m operand -/

theorem decodeDisp_encode {f : Fetch} {ip : Word} {d : Disp} {rest : List Byte} (h : Supplies f ip (d.encode ++ rest)) :
    decodeDisp f d.mod ip = .ok (d, ip + BitVec.ofNat 32 d.encode.length) := by
  cases d with
  | none => simp [decodeDisp, Disp.mod, Disp.encode]
  | d8 d =>
    have := fetchByte_supplied (b := d) (bs := rest) h none
    simp only [decodeDisp, Disp.mod, this, ok_bind, Disp.encode]
    rfl
  | d32 d =>
    have := fetchAt_leBytes (w := .w32) (v := d) h rfl none
    simp only [decodeDisp, Disp.mod, this, ok_bind, Disp.encode, length_leBytes]
    rfl

theorem Disp.mod_ne (d : Disp) : d.mod ≠ 3 := by cases d <;> simp [Disp.mod]

theorem Disp.mod_eq_zero {d : Disp} : d.mod = 0 ↔ d = .none := by cases d <;> simp [Disp.mod]

theorem Reg.sel_eq_four {r : Reg} : r.sel = 4 ↔ r = .esp := by cases r <;> decide

theorem Reg.sel_eq_five {r : Reg} : r.sel = 5 ↔ r = .ebp := by cases r <;> decide

/-- Decoding the bytes after ModRM of an encoded memory operand gives the operand back. -/
theorem decodeAddr_encode {f : Fetch} {ip : Word} {a : Addr} {reg : BitVec 3} {m : Byte} {bs rest : List Byte}
    (hwf : a.wf = true) (he : a.encode reg = m :: bs) (h : Supplies f ip (bs ++ rest)) :
    decodeAddr f (fieldHi m) (fieldLow m) ip = .ok (a, ip + BitVec.ofNat 32 bs.length) ∧ fieldHi m ≠ 3 ∧
      fieldMid m = reg := by
  cases a with
  | base d b =>
    simp only [Addr.encode, List.cons.injEq] at he
    obtain ⟨rfl, rfl⟩ := he
    simp only [Addr.wf, Bool.and_eq_true, bne_iff_ne, ne_eq, Bool.not_eq_true', Bool.and_eq_false_iff, beq_eq_false_iff_ne] at hwf
    have h4 : ¬ b.sel = 4 := fun h => hwf.1 (Reg.sel_eq_four.1 h)
    have h5 : ¬ (d.mod = 0 ∧ b.sel = 5) := fun h =>
      hwf.2.elim (fun hd => hd (Disp.mod_eq_zero.1 h.1)) (fun hb => hb (Reg.sel_eq_five.1 h.2))
    simp only [decodeAddr, fieldHi_packByte, fieldLow_packByte, fieldMid_packByte, h4, h5, if_false, decodeDisp_encode h,
      ok_bind, Reg.ofSel_sel, Disp.mod_ne, ne_eq, not_false_eq_true, and_true]
    rfl
  | abs d =>
    simp only [Addr.encode, List.cons.injEq] at he
    obtain ⟨rfl, rfl⟩ := he
    have := fetchAt_leBytes (w := .w32) (v := d) h rfl none
    simp [decodeAddr, this, Width.bytes]
  | sib d scale index b =>
    simp only [Addr.encode, List.cons.injEq] at he
    obtain ⟨rfl, rfl⟩ := he
    simp only [Addr.wf, Bool.not_eq_true', Bool.and_eq_false_iff, beq_eq_false_iff_ne] at hwf
    have h5 : ¬ (d.mod = 0 ∧ b.sel = 5) := fun h =>
      hwf.elim (fun hd => hd (Disp.mod_eq_zero.1 h.1)) (fun hb => hb (Reg.sel_eq_five.1 h.2))
    have hb := fetchByte_supplied h none
    have hd := decodeDisp_encode (Supplies.tail h)
    simp only [decodeAddr, fieldHi_packByte, fieldLow_packByte, fieldMid_packByte, if_true, hb, ok_bind, h5, if_false, hd,
      Reg.ofSel_sel, Disp.mod_ne, ne_eq, not_false_eq_true, and_true, List.length_cons, BitVec.add_assoc]
    rw [Nat.add_comm, BitVec.ofNat_add]
    rfl
  | sibAbs scale index d =>
    simp only [Addr.encode, List.cons.injEq] at he
    obtain ⟨rfl, rfl⟩ := he
    have hb := fetchByte_supplied h none
    have hd := fetchAt_leBytes (w := .w32) (v := d) (Supplies.tail h) rfl none
    simp only [decodeAddr, fieldHi_packByte, fieldLow_packByte, fieldMid_packByte, if_true, hb, ok_bind, and_self, hd,
      Reg.ofSel_sel, List.length_cons, length_leBytes, BitVec.add_assoc]
    exact ⟨rfl, by decide, trivial⟩

/-- Decoding the bytes after ModRM of an encoded r/m operand gives the operand back. -/
theorem decodeRm_encode {ρ : Type} {sel : ρ → BitVec 3} {ofSel : BitVec 3 → ρ} (hs : ∀ r, ofSel (sel r) = r)
    {f : Fetch} {ip : Word} {rm : RM ρ} {reg : BitVec 3} {m : Byte} {bs rest : List Byte} (hwf : rm.wf = true)
    (he : rm.encode sel reg = m :: bs) (h : Supplies f ip (bs ++ rest)) :
    decodeRm ofSel f m ip = .ok (rm, ip + BitVec.ofNat 32 bs.length) ∧ fieldMid m = reg := by
  cases rm with
  | reg r =>
    simp only [RM.encode, List.cons.injEq] at he
    obtain ⟨rfl, rfl⟩ := he
    simp [decodeRm, hs]
  | mem a =>
    obtain ⟨h1, h2, h3⟩ := decodeAddr_encode hwf he h
    simp only [decodeRm, h2, if_false, h1, ok_bind]
    exact ⟨rfl, h3⟩

theorem RM.encode_eq_cons {ρ : Type} (sel : ρ → BitVec 3) (reg : BitVec 3) (rm : RM ρ) :
    ∃ m bs, rm.encode sel reg = m :: bs := by
  cases rm with
  | reg r => exact ⟨_, _, rfl⟩
  | mem a => cases a <;> exact ⟨_, _, rfl⟩

/-- An r/m operand's bytes: one to six (R102). -/
theorem RM.length_encode {ρ : Type} (sel : ρ → BitVec 3) (reg : BitVec 3) (rm : RM ρ) :
    1 ≤ (rm.encode sel reg).length ∧ (rm.encode sel reg).length ≤ 6 := by
  cases rm with
  | reg r => simp [RM.encode]
  | mem a =>
    cases a with
    | base d b => cases d <;> simp [RM.encode, Addr.encode, Disp.encode]
    | abs d => simp [RM.encode, Addr.encode]
    | sib d scale index b => cases d <;> simp [RM.encode, Addr.encode, Disp.encode]
    | sibAbs scale index d => simp [RM.encode, Addr.encode]

/-! ### Sources of bytes -/

theorem supplies_fetchList (xs rest : List Byte) (h : xs.length < 2 ^ 32) : Supplies (fetchList (xs ++ rest)) 0 xs := by
  intro k w hk
  have hz : ((0 : Word) + BitVec.ofNat 32 k).toNat = k := by
    have h0 : ((0 : Word)).toNat = 0 := rfl
    rw [BitVec.toNat_add, BitVec.toNat_ofNat, h0]
    omega
  simp only [fetchList, hz, List.length_append]
  rw [if_pos (by omega), List.drop_append_of_le_length (by omega),
    List.take_append_of_le_length (by rw [List.length_drop]; omega)]

end Sys2Proof

namespace Sys2Proof.Machine

theorem Memory.bytes_take_drop (m : Memory) (a n k j : Nat) (h : k + j ≤ n) :
    ((m.bytes a n).drop k).take j = m.bytes (a + k) j := by
  obtain ⟨r, rfl⟩ : ∃ r, n = k + (j + r) := ⟨n - k - j, by omega⟩
  rw [Memory.bytes_append, List.drop_left' (by simp), Memory.bytes_append, List.take_left' (by simp)]

/-- The store supplies the bytes it holds at IP. -/
theorem supplies_store {s : State} {bs : List Byte} (hb : s.mem.bytes s.ip.toNat bs.length = bs)
    (hin : s.ip.toNat + bs.length ≤ s.cfg.memSize) (hsize : s.cfg.memSize ≤ 4294967296) :
    Supplies s.fetch s.ip bs := by
  intro k w hk
  have hw := w.bytes_pos
  have ha : (s.ip + BitVec.ofNat 32 k).toNat = s.ip.toNat + k := by
    rw [BitVec.toNat_add, BitVec.toNat_ofNat]
    omega
  have hr : memRead s (s.ip + BitVec.ofNat 32 k) w = .ok (leWord (s.mem.bytes (s.ip.toNat + k) w.bytes)) :=
    memRead_eq_ok.2 ⟨by omega, by rw [ha]⟩
  simp only [State.fetch, hr]
  rw [← Memory.bytes_take_drop _ _ _ _ _ hk, hb]

end Sys2Proof.Machine
end

