-- ==== Sys2Proof/Laws/Meanings.lean ====
section
/-! SUPPORT. What the operations that several meanings share can change, the prefix's relation to exec, and the
invariant over the shared operations. -/

namespace Sys2Proof.Machine

open Host (Outcome)

/-! ### Frames of the shared meanings -/

theorem movToReg_eq_ok {ref : RegRef} {l : Loc} {w : Width} {s t : State} :
    movToReg ref l w s = .ok t ↔ ∃ v, readLoc s l w = .ok v ∧ t = s.set ref v := by
  simp only [movToReg, bind_eq_ok]
  exact exists_congr fun v => and_congr_right fun _ => ⟨fun h => (Except.ok.inj h).symm, fun h => by rw [h]; rfl⟩

theorem addToLoc_eq_ok {l : Loc} {w : Width} {ref : RegRef} {s t : State} :
    addToLoc l w ref s = .ok t ↔ ∃ b u, readLoc s l w = .ok b ∧ writeLoc l w (aluAdd w (s.get ref) b).1 s = .ok u ∧
      t = u.setCfZf (aluAdd w (s.get ref) b).2 (zfOf s.cfg.zfMode (s.get ref) b (aluAdd w (s.get ref) b).1) := by
  simp only [addToLoc, bind_eq_ok]
  constructor
  · rintro ⟨b, hb, u, hu, h⟩
    exact ⟨b, u, hb, hu, (Except.ok.inj h).symm⟩
  · rintro ⟨b, u, hb, hu, rfl⟩
    exact ⟨b, hb, u, hu, rfl⟩

theorem addToReg_eq_ok {l : Loc} {w : Width} {ref : RegRef} {s t : State} :
    addToReg ref l w s = .ok t ↔ ∃ b, readLoc s l w = .ok b ∧
      t = (s.set ref (aluAdd w (s.get ref) b).1).setCfZf (aluAdd w (s.get ref) b).2
        (zfOf s.cfg.zfMode (s.get ref) b (aluAdd w (s.get ref) b).1) := by
  simp only [addToReg, bind_eq_ok]
  exact exists_congr fun b => and_congr_right fun _ => ⟨fun h => (Except.ok.inj h).symm, fun h => by rw [h]; rfl⟩

theorem group1_eq_ok {alu : Width → Word → Word → Word × Bool} {l : Loc} {w : Width} {imm : Word} {s t : State} :
    group1 alu l w imm s = .ok t ↔ ∃ a u, readLoc s l w = .ok a ∧ writeLoc l w (alu w a imm).1 s = .ok u ∧
      t = u.setCfZf (alu w a imm).2 (zfOf s.cfg.zfMode a imm (alu w a imm).1) := by
  simp only [group1, bind_eq_ok]
  constructor
  · rintro ⟨a, ha, u, hu, h⟩
    exact ⟨a, u, ha, hu, (Except.ok.inj h).symm⟩
  · rintro ⟨a, u, ha, hu, rfl⟩
    exact ⟨a, ha, u, hu, rfl⟩

theorem movToReg_frame {ref : RegRef} {l : Loc} {w : Width} {s t : State} (h : movToReg ref l w s = .ok t) :
    t = { s with regs := t.regs } := by
  obtain ⟨v, -, rfl⟩ := movToReg_eq_ok.1 h
  exact State.set_eq s ref v

theorem addToLoc_frame {l : Loc} {w : Width} {ref : RegRef} {s t : State} (h : addToLoc l w ref s = .ok t) :
    t = { s with regs := t.regs, mem := t.mem, flags := t.flags } := by
  obtain ⟨b, u, -, hu, rfl⟩ := addToLoc_eq_ok.1 h
  rw [writeLoc_frame hu]
  rfl

theorem addToReg_frame {l : Loc} {w : Width} {ref : RegRef} {s t : State} (h : addToReg ref l w s = .ok t) :
    t = { s with regs := t.regs, flags := t.flags } := by
  obtain ⟨b, -, rfl⟩ := addToReg_eq_ok.1 h
  rw [State.set_eq]
  rfl

theorem group1_frame {alu : Width → Word → Word → Word × Bool} {l : Loc} {w : Width} {imm : Word} {s t : State}
    (h : group1 alu l w imm s = .ok t) : t = { s with regs := t.regs, mem := t.mem, flags := t.flags } := by
  obtain ⟨a, u, -, hu, rfl⟩ := group1_eq_ok.1 h
  rw [writeLoc_frame hu]
  rfl

theorem popInto_frame (s : State) (r : Reg) (v : Word) : s.popInto r v = { s with regs := (s.popInto r v).regs } := by
  simp only [State.popInto]
  split <;> exact State.set_eq s _ _

theorem sysExit_eq_ok {s t : State} : sysExit s = .ok t ↔ t = { s with status := .exited (s.reg .ebx) } := by
  simp [sysExit, eq_comm]

theorem sysRead_eq_ok {s t : State} :
    sysRead s = .ok t ↔ ∃ u, blockWrite (s.reg .ecx) (readBytes s.inLine.1 (s.reg .edx).toNat) s.inLine.2 = .ok u ∧
      t = u.drawEax := by
  simp only [sysRead, bind_eq_ok]
  exact exists_congr fun u => and_congr_right fun _ => ⟨fun h => (Except.ok.inj h).symm, fun h => by rw [h]; rfl⟩

theorem sysWrite_eq_ok {s t : State} :
    sysWrite s = .ok t ↔ ((s.reg .edx).toNat = 0 ∨ (s.reg .ecx).toNat + (s.reg .edx).toNat ≤ s.cfg.memSize) ∧
      t = (s.out (s.mem.bytes (s.reg .ecx).toNat (s.reg .edx).toNat)).drawEax := by
  simp only [sysWrite, bind_eq_ok, blockRead_eq_ok]
  constructor
  · rintro ⟨bs, ⟨hb, rfl⟩, h⟩
    exact ⟨hb, (Except.ok.inj h).symm⟩
  · rintro ⟨hb, rfl⟩
    exact ⟨_, ⟨hb, rfl⟩, rfl⟩

theorem inLine_frame (s : State) : s.inLine.2 = { s with input := s.inLine.2.input } := by
  simp only [State.inLine]
  split <;> rfl

theorem sysRead_frame {s t : State} (h : sysRead s = .ok t) :
    t = { s with regs := t.regs, mem := t.mem, input := t.input, draws := t.draws } := by
  obtain ⟨u, hu, rfl⟩ := sysRead_eq_ok.1 h
  rw [(blockWrite_eq_ok.1 hu).2, inLine_frame]
  rfl

/-- What a syscall can change: never IP, the flags, the latch or the parameters (44_system.md R230). -/
theorem syscall_frame {s t : State} (h : syscall s = .ok t) :
    t = { s with regs := t.regs, mem := t.mem, status := t.status, output := t.output, input := t.input, draws := t.draws } := by
  simp only [syscall] at h
  split at h
  · rw [sysExit_eq_ok.1 h]
  · split at h
    · rw [sysRead_frame h]
    · split at h
      · rw [(sysWrite_eq_ok.1 h).2]
        rfl
      · cases h

/-! ### The prefix -/

/-- A prefix's body has the meaning exec gives it. -/
theorem execBody_eq_exec (i : Instr) (s : State) (h : ∀ j, i ≠ .o16 j) : execBody i s = exec i s := by
  cases i with
  | o16 j => exact absurd rfl (h j)
  | _ => rfl

/-! ### The invariant over the shared operations -/

/-- The invariant without the latch: it holds inside a prefixed instruction too. -/
structure State.Sound (s : State) : Prop where
  cfg_wf : s.cfg.wf
  mem_wf : s.mem.wf
  mem_within : s.mem.within s.cfg.memSize
  reserved_zero : s.flags &&& reservedFlags = 0
  input_wf : ∀ l ∈ s.input, l.wf = true

theorem State.inv_iff (s : State) : s.Inv ↔ s.Sound ∧ s.o16 = false :=
  ⟨fun h => ⟨⟨h.cfg_wf, h.mem_wf, h.mem_within, h.reserved_zero, h.input_wf⟩, h.latch_clear⟩,
   fun ⟨h, hl⟩ => ⟨h.cfg_wf, h.mem_wf, h.mem_within, h.reserved_zero, hl, h.input_wf⟩⟩

/-- Soundness reads the store, the flags, the input and the parameters alone. -/
theorem State.Sound.congr {s t : State} (h : s.Sound) (hc : t.cfg = s.cfg) (hm : t.mem = s.mem) (hf : t.flags = s.flags)
    (hi : t.input = s.input) : t.Sound where
  cfg_wf := hc ▸ h.cfg_wf
  mem_wf := hm ▸ h.mem_wf
  mem_within := by rw [hc, hm]; exact h.mem_within
  reserved_zero := hf ▸ h.reserved_zero
  input_wf := hi ▸ h.input_wf

theorem State.Sound.set {s : State} (h : s.Sound) (r : RegRef) (v : Word) : (s.set r v).Sound :=
  h.congr (by simp) (by simp) (by simp) (by simp)

theorem State.Sound.writeBytes {s : State} (h : s.Sound) {a : Nat} {bs : List Byte}
    (hb : bs.length = 0 ∨ a + bs.length ≤ s.cfg.memSize) : State.Sound { s with mem := s.mem.writeBytes a bs } where
  cfg_wf := h.cfg_wf
  mem_wf := Memory.writeBytes_wf h.mem_wf a bs
  mem_within := Memory.writeBytes_within h.mem_within hb
  reserved_zero := h.reserved_zero
  input_wf := h.input_wf

theorem State.Sound.memWrite {s t : State} (h : s.Sound) {a : Word} {w : Width} {v : Word}
    (hw : memWrite a w v s = .ok t) : t.Sound := by
  obtain ⟨hb, rfl⟩ := memWrite_eq_ok.1 hw
  exact h.writeBytes (.inr (by simpa using hb))

theorem State.Sound.writeLoc {s t : State} (h : s.Sound) {l : Loc} {w : Width} {v : Word}
    (hw : writeLoc l w v s = .ok t) : t.Sound := by
  cases l with
  | reg r =>
    obtain rfl := Except.ok.inj hw
    exact h.set r v
  | mem a => exact h.memWrite hw

theorem State.Sound.push {s t : State} (h : s.Sound) {v : Word} (hp : push v s = .ok t) : t.Sound := by
  obtain ⟨hb, rfl⟩ := push_eq_ok.1 hp
  exact (h.writeBytes (.inr (by simpa using hb))).congr rfl rfl rfl rfl

theorem State.Sound.pop {s t : State} (h : s.Sound) {v : Word} (hp : pop s = .ok (v, t)) : t.Sound := by
  rw [pop_frame hp]
  exact h.congr rfl rfl rfl rfl

theorem State.Sound.pushAll {esp0 : Word} {rs : List Reg} {s t : State} (h : s.Sound)
    (hp : pushAll esp0 rs s = .ok t) : t.Sound := by
  induction rs generalizing s with
  | nil =>
    obtain rfl := Except.ok.inj hp
    exact h
  | cons r rs ih =>
    obtain ⟨u, hu, hr⟩ := bind_eq_ok.1 hp
    exact ih (h.push hu) hr

theorem State.Sound.popAll {rs : List Reg} {s t : State} (h : s.Sound) (hp : popAll rs s = .ok t) : t.Sound := by
  rw [popAll_frame hp]
  exact h.congr rfl rfl rfl rfl

theorem putBit_reserved (v : Word) (n : Nat) (b : Bool) (hn : n = 0 ∨ n = 6) (h : v &&& reservedFlags = 0) :
    putBit v n b &&& reservedFlags = 0 := by
  apply BitVec.eq_of_getLsbD_eq
  intro i hi
  have hv := congrArg (fun x => BitVec.getLsbD x i) h
  simp only [BitVec.getLsbD_and] at hv ⊢
  rw [getLsbD_putBit _ _ _ _ (by omega)]
  split
  · subst i
    rcases hn with rfl | rfl <;> simp [reservedFlags]
  · exact hv

theorem State.Sound.setCfZf {s : State} (h : s.Sound) (c z : Bool) : (s.setCfZf c z).Sound where
  cfg_wf := h.cfg_wf
  mem_wf := h.mem_wf
  mem_within := h.mem_within
  reserved_zero := by
    rw [State.setCfZf_flags]
    exact putBit_reserved _ _ _ (.inr rfl) (putBit_reserved _ _ _ (.inl rfl) h.reserved_zero)
  input_wf := h.input_wf

theorem State.Sound.inLine {s : State} (h : s.Sound) : s.inLine.2.Sound := by
  simp only [State.inLine]
  split
  · exact h
  · next l rest hl =>
    refine ⟨h.cfg_wf, h.mem_wf, h.mem_within, h.reserved_zero, ?_⟩
    intro l' hl'
    exact h.input_wf l' (by rw [hl]; exact List.mem_cons_of_mem _ hl')

theorem State.Sound.syscall {s t : State} (h : s.Sound) (hs : syscall s = .ok t) : t.Sound := by
  simp only [Machine.syscall] at hs
  split at hs
  · rw [sysExit_eq_ok.1 hs]
    exact h.congr rfl rfl rfl rfl
  · split at hs
    · obtain ⟨u, hu, rfl⟩ := sysRead_eq_ok.1 hs
      obtain ⟨hb, rfl⟩ := blockWrite_eq_ok.1 hu
      exact (h.inLine.writeBytes hb).congr rfl rfl rfl rfl
    · split at hs
      · rw [(sysWrite_eq_ok.1 hs).2]
        exact h.congr rfl rfl rfl rfl
      · cases hs

/-! ### The observation of a run (10_state.md R40, 60_exceptions.md R265) -/

@[simp] theorem State.observe_regs (s : State) : s.observe.regs = s.regs := rfl
@[simp] theorem State.observe_ip (s : State) : s.observe.ip = s.ip := rfl
@[simp] theorem State.observe_flags (s : State) : s.observe.flags = s.flags := rfl
@[simp] theorem State.observe_mem (s : State) : s.observe.mem = s.mem := rfl
@[simp] theorem State.observe_output (s : State) : s.observe.output = s.output := rfl
@[simp] theorem State.observe_input (s : State) : s.observe.input = s.input := rfl

/-- A state has an observation exactly when its run ended normally, and it is what the state shows. -/
theorem State.observation_eq_some {s : State} {o : Observation} :
    s.observation = some o ↔ (s.status = .halted ∨ ∃ c, s.status = .exited c) ∧ s.observe = o := by
  unfold State.observation
  cases s.status <;> simp

end Sys2Proof.Machine
end

