-- ==== Sys2Proof/Laws/PerInstr.lean ====
section
/-! SUPPORT. Statements made per instruction: the length of an encoding (30_encoding.md R82). -/

namespace Sys2Proof.Laws.EncodeLength

open Sys2Proof

/-- A well-formed instruction has one to eleven bytes, a prefixed one two to ten (R82). -/
def Statement (i : Instr) : Prop :=
  i.wf = true → match i with
    | .o16 j => 2 ≤ (encode (.o16 j)).length ∧ (encode (.o16 j)).length ≤ 10
    | j => 1 ≤ (encode j).length ∧ (encode j).length ≤ 11

theorem body_length (o16 : Bool) (i : Instr) :
    1 ≤ (encodeBody o16 i).length ∧ (encodeBody o16 i).length ≤ 7 + (immWidth o16).bytes := by
  have hw := (immWidth o16).bytes_pos
  cases i <;> simp only [encodeBody, encodeImm, List.length_cons, List.length_append, List.length_nil, length_leBytes]
  case addRm8R8 rm r => exact ⟨by omega, by have := RM.length_encode Reg8.sel r.sel rm; omega⟩
  case addRmR rm r => exact ⟨by omega, by have := RM.length_encode Reg.sel r.sel rm; omega⟩
  case addR8Rm8 r rm => exact ⟨by omega, by have := RM.length_encode Reg8.sel r.sel rm; omega⟩
  case addRRm r rm => exact ⟨by omega, by have := RM.length_encode Reg.sel r.sel rm; omega⟩
  case movRm8R8 rm r => exact ⟨by omega, by have := RM.length_encode Reg8.sel r.sel rm; omega⟩
  case movRmR rm r => exact ⟨by omega, by have := RM.length_encode Reg.sel r.sel rm; omega⟩
  case movR8Rm8 r rm => exact ⟨by omega, by have := RM.length_encode Reg8.sel r.sel rm; omega⟩
  case movRRm r rm => exact ⟨by omega, by have := RM.length_encode Reg.sel r.sel rm; omega⟩
  case addRm8Imm8 rm imm => exact ⟨by omega, by have := RM.length_encode Reg8.sel 0 rm; omega⟩
  case subRm8Imm8 rm imm => exact ⟨by omega, by have := RM.length_encode Reg8.sel 5 rm; omega⟩
  case sub7Rm8Imm8 rm imm => exact ⟨by omega, by have := RM.length_encode Reg8.sel 7 rm; omega⟩
  case addRm8Imm8s rm imm => exact ⟨by omega, by have := RM.length_encode Reg8.sel 0 rm; omega⟩
  case subRm8Imm8s rm imm => exact ⟨by omega, by have := RM.length_encode Reg8.sel 5 rm; omega⟩
  case sub7Rm8Imm8s rm imm => exact ⟨by omega, by have := RM.length_encode Reg8.sel 7 rm; omega⟩
  case movRm8Imm8 rm imm => exact ⟨by omega, by have := RM.length_encode Reg8.sel 0 rm; omega⟩
  case addRmImm rm imm => exact ⟨by omega, by have := RM.length_encode Reg.sel 0 rm; omega⟩
  case subRmImm rm imm => exact ⟨by omega, by have := RM.length_encode Reg.sel 5 rm; omega⟩
  case sub7RmImm rm imm => exact ⟨by omega, by have := RM.length_encode Reg.sel 7 rm; omega⟩
  case addRmImm8 rm imm => exact ⟨by omega, by have := RM.length_encode Reg.sel 0 rm; omega⟩
  case subRmImm8 rm imm => exact ⟨by omega, by have := RM.length_encode Reg.sel 5 rm; omega⟩
  case sub7RmImm8 rm imm => exact ⟨by omega, by have := RM.length_encode Reg.sel 7 rm; omega⟩
  case movRmImm rm imm => exact ⟨by omega, by have := RM.length_encode Reg.sel 0 rm; omega⟩
  all_goals omega

theorem o16 (i : Instr) : Statement (.o16 i) := fun _ => by
  have := body_length true i
  simp only [encode, List.length_cons, immWidth, Width.bytes, if_true] at this ⊢
  omega
theorem addRm8R8 (rm : RM Reg8) (r : Reg8) : Statement (.addRm8R8 rm r) := fun _ => body_length false (.addRm8R8 rm r)
theorem addRmR (rm : RM Reg) (r : Reg) : Statement (.addRmR rm r) := fun _ => body_length false (.addRmR rm r)
theorem addR8Rm8 (r : Reg8) (rm : RM Reg8) : Statement (.addR8Rm8 r rm) := fun _ => body_length false (.addR8Rm8 r rm)
theorem addRRm (r : Reg) (rm : RM Reg) : Statement (.addRRm r rm) := fun _ => body_length false (.addRRm r rm)
theorem incR (r : Reg) : Statement (.incR r) := fun _ => body_length false (.incR r)
theorem decR (r : Reg) : Statement (.decR r) := fun _ => body_length false (.decR r)
theorem pushR (r : Reg) : Statement (.pushR r) := fun _ => body_length false (.pushR r)
theorem popR (r : Reg) : Statement (.popR r) := fun _ => body_length false (.popR r)
theorem pusha : Statement (.pusha) := fun _ => body_length false (.pusha)
theorem popa : Statement (.popa) := fun _ => body_length false (.popa)
theorem pushImm (imm : Word) : Statement (.pushImm imm) := fun _ => body_length false (.pushImm imm)
theorem pushImm8 (imm : Byte) : Statement (.pushImm8 imm) := fun _ => body_length false (.pushImm8 imm)
theorem jz (rel : Byte) : Statement (.jz rel) := fun _ => body_length false (.jz rel)
theorem jnz (rel : Byte) : Statement (.jnz rel) := fun _ => body_length false (.jnz rel)
theorem addRm8Imm8 (rm : RM Reg8) (imm : Byte) : Statement (.addRm8Imm8 rm imm) := fun _ => body_length false (.addRm8Imm8 rm imm)
theorem subRm8Imm8 (rm : RM Reg8) (imm : Byte) : Statement (.subRm8Imm8 rm imm) := fun _ => body_length false (.subRm8Imm8 rm imm)
theorem sub7Rm8Imm8 (rm : RM Reg8) (imm : Byte) : Statement (.sub7Rm8Imm8 rm imm) := fun _ => body_length false (.sub7Rm8Imm8 rm imm)
theorem addRmImm (rm : RM Reg) (imm : Word) : Statement (.addRmImm rm imm) := fun _ => body_length false (.addRmImm rm imm)
theorem subRmImm (rm : RM Reg) (imm : Word) : Statement (.subRmImm rm imm) := fun _ => body_length false (.subRmImm rm imm)
theorem sub7RmImm (rm : RM Reg) (imm : Word) : Statement (.sub7RmImm rm imm) := fun _ => body_length false (.sub7RmImm rm imm)
theorem addRm8Imm8s (rm : RM Reg8) (imm : Byte) : Statement (.addRm8Imm8s rm imm) := fun _ => body_length false (.addRm8Imm8s rm imm)
theorem subRm8Imm8s (rm : RM Reg8) (imm : Byte) : Statement (.subRm8Imm8s rm imm) := fun _ => body_length false (.subRm8Imm8s rm imm)
theorem sub7Rm8Imm8s (rm : RM Reg8) (imm : Byte) : Statement (.sub7Rm8Imm8s rm imm) := fun _ => body_length false (.sub7Rm8Imm8s rm imm)
theorem addRmImm8 (rm : RM Reg) (imm : Byte) : Statement (.addRmImm8 rm imm) := fun _ => body_length false (.addRmImm8 rm imm)
theorem subRmImm8 (rm : RM Reg) (imm : Byte) : Statement (.subRmImm8 rm imm) := fun _ => body_length false (.subRmImm8 rm imm)
theorem sub7RmImm8 (rm : RM Reg) (imm : Byte) : Statement (.sub7RmImm8 rm imm) := fun _ => body_length false (.sub7RmImm8 rm imm)
theorem movRm8R8 (rm : RM Reg8) (r : Reg8) : Statement (.movRm8R8 rm r) := fun _ => body_length false (.movRm8R8 rm r)
theorem movRmR (rm : RM Reg) (r : Reg) : Statement (.movRmR rm r) := fun _ => body_length false (.movRmR rm r)
theorem movR8Rm8 (r : Reg8) (rm : RM Reg8) : Statement (.movR8Rm8 r rm) := fun _ => body_length false (.movR8Rm8 r rm)
theorem movRRm (r : Reg) (rm : RM Reg) : Statement (.movRRm r rm) := fun _ => body_length false (.movRRm r rm)
theorem nop : Statement (.nop) := fun _ => body_length false (.nop)
theorem movR8Imm8 (r : Reg8) (imm : Byte) : Statement (.movR8Imm8 r imm) := fun _ => body_length false (.movR8Imm8 r imm)
theorem movRImm (r : Reg) (imm : Word) : Statement (.movRImm r imm) := fun _ => body_length false (.movRImm r imm)
theorem ret : Statement (.ret) := fun _ => body_length false (.ret)
theorem movRm8Imm8 (rm : RM Reg8) (imm : Byte) : Statement (.movRm8Imm8 rm imm) := fun _ => body_length false (.movRm8Imm8 rm imm)
theorem movRmImm (rm : RM Reg) (imm : Word) : Statement (.movRmImm rm imm) := fun _ => body_length false (.movRmImm rm imm)
theorem intImm8 (id : Byte) : Statement (.intImm8 id) := fun _ => body_length false (.intImm8 id)
theorem loopRel8 (rel : Byte) : Statement (.loopRel8 rel) := fun _ => body_length false (.loopRel8 rel)
theorem callRel (rel : Word) : Statement (.callRel rel) := fun _ => body_length false (.callRel rel)
theorem jmpRel (rel : Word) : Statement (.jmpRel rel) := fun _ => body_length false (.jmpRel rel)
theorem jmpRel8 (rel : Byte) : Statement (.jmpRel8 rel) := fun _ => body_length false (.jmpRel8 rel)
theorem hlt : Statement (.hlt) := fun _ => body_length false (.hlt)

end Sys2Proof.Laws.EncodeLength
end

