-- ==== Sys2Proof/Tests/Slice0.lean ====
section
/-! SUPPORT. The model's own tests. Expected results are those of spec/95_test_vectors.md (the V- names) and of the
examples inside the rules of files 30 to 44; encodings are written out from 30_encoding.md R96. -/

namespace Sys2Proof.Tests

open Sys2Proof Sys2Proof.Machine

/-! ### Well-formedness refuses each ill-formed shape -/

theorem test_wf_plain_base_is_not_the_sib_escape : (Instr.addRm8R8 (.mem (.base .none .esp)) .al).wf = false := by decide
theorem test_wf_plain_base_is_not_the_disp32_escape :
    (Instr.movRmR (.mem (.base .none .ebp)) .eax).wf = false := by decide
theorem test_wf_sib_base_is_not_the_disp32_escape :
    (Instr.movRRm .eax (.mem (.sib .none 0 .eax .ebp))).wf = false := by decide
theorem test_wf_prefixed_immediate_has_16_bits : (Instr.o16 (.movRImm .eax 0x10000)).wf = false := by decide
theorem test_wf_prefixed_displacement_has_16_bits : (Instr.o16 (.callRel 0xFFFFFFF6)).wf = false := by decide
theorem test_wf_one_prefix_only : (Instr.o16 (.o16 .nop)).wf = false := by decide
theorem test_wf_accepts : (Instr.o16 (.addRmImm (.mem (.sib (.d32 0x100) 2 .ecx .ebx)) 0x1234)).wf = true := by decide

/-! ### One encoding of every row, written out from R96 -/

/-- The bytes decode, to the last, to the instruction. -/
def Decodes (bs : List Byte) (i : Instr) : Bool :=
  match decodeBytes bs with
  | .ok (j, rest) => j == i && rest == []
  | .error _ => false

/-- The bytes fail as an unimplemented opcode with this byte recorded. -/
def Rejects (bs : List Byte) (b : Byte) : Bool :=
  match decodeBytes bs with
  | .ok _ => false
  | .error e => e == .unimplemented b

theorem test_decode_o16 : Decodes [0x66, 0xB8, 0x34, 0x12] (.o16 (.movRImm .eax 0x1234)) = true := by decide
theorem test_decode_addRm8R8 : Decodes [0x00, 0xC8] (.addRm8R8 (.reg .al) .cl) = true := by decide
theorem test_decode_addRmR : Decodes [0x01, 0x03] (.addRmR (.mem (.base .none .ebx)) .eax) = true := by decide
theorem test_decode_addR8Rm8 : Decodes [0x02, 0x03] (.addR8Rm8 .al (.mem (.base .none .ebx))) = true := by decide
theorem test_decode_addRRm : Decodes [0x03, 0xCA] (.addRRm .ecx (.reg .edx)) = true := by decide
theorem test_decode_incR : Decodes [0x44] (.incR .esp) = true := by decide
theorem test_decode_decR : Decodes [0x49] (.decR .ecx) = true := by decide
theorem test_decode_pushR : Decodes [0x56] (.pushR .esi) = true := by decide
theorem test_decode_popR : Decodes [0x5B] (.popR .ebx) = true := by decide
theorem test_decode_pusha : Decodes [0x60] .pusha = true := by decide
theorem test_decode_popa : Decodes [0x61] .popa = true := by decide
theorem test_decode_pushImm : Decodes [0x68, 0xEF, 0xBE, 0xAD, 0xDE] (.pushImm 0xDEADBEEF) = true := by decide
theorem test_decode_pushImm8 : Decodes [0x6A, 0xFE] (.pushImm8 0xFE) = true := by decide
theorem test_decode_jz : Decodes [0x74, 0x02] (.jz 2) = true := by decide
theorem test_decode_jnz : Decodes [0x75, 0xF0] (.jnz 0xF0) = true := by decide
theorem test_decode_addRm8Imm8 : Decodes [0x80, 0x40, 0x10, 0x07]
    (.addRm8Imm8 (.mem (.base (.d8 0x10) .eax)) 7) = true := by decide
theorem test_decode_subRm8Imm8 : Decodes [0x80, 0xEB, 0x10] (.subRm8Imm8 (.reg .bl) 0x10) = true := by decide
theorem test_decode_sub7Rm8Imm8 : Decodes [0x80, 0xFB, 0x01] (.sub7Rm8Imm8 (.reg .bl) 1) = true := by decide
theorem test_decode_addRmImm : Decodes [0x81, 0x84, 0x8B, 0x00, 0x01, 0x00, 0x00, 0x78, 0x56, 0x34, 0x12]
    (.addRmImm (.mem (.sib (.d32 0x100) 2 .ecx .ebx)) 0x12345678) = true := by decide
theorem test_decode_subRmImm : Decodes [0x81, 0xEA, 0xE8, 0x03, 0x00, 0x00] (.subRmImm (.reg .edx) 1000) = true := by
  decide
theorem test_decode_sub7RmImm : Decodes [0x81, 0xFA, 0xE8, 0x03, 0x00, 0x00] (.sub7RmImm (.reg .edx) 1000) = true := by
  decide
theorem test_decode_addRm8Imm8s : Decodes [0x82, 0xC0, 0x02] (.addRm8Imm8s (.reg .al) 2) = true := by decide
theorem test_decode_subRm8Imm8s : Decodes [0x82, 0xE8, 0x03] (.subRm8Imm8s (.reg .al) 3) = true := by decide
theorem test_decode_sub7Rm8Imm8s : Decodes [0x82, 0xF8, 0x04] (.sub7Rm8Imm8s (.reg .al) 4) = true := by decide
theorem test_decode_addRmImm8 : Decodes [0x83, 0xC0, 0x05] (.addRmImm8 (.reg .eax) 5) = true := by decide
theorem test_decode_subRmImm8 : Decodes [0x83, 0x6C, 0xB3, 0x08, 0x01]
    (.subRmImm8 (.mem (.sib (.d8 8) 2 .esi .ebx)) 1) = true := by decide
theorem test_decode_sub7RmImm8 : Decodes [0x83, 0xF9, 0x01] (.sub7RmImm8 (.reg .ecx) 1) = true := by decide
theorem test_decode_movRm8R8 : Decodes [0x88, 0xE0] (.movRm8R8 (.reg .al) .ah) = true := by decide
theorem test_decode_movRmR : Decodes [0x89, 0xC3] (.movRmR (.reg .ebx) .eax) = true := by decide
theorem test_decode_movR8Rm8 : Decodes [0x8A, 0x04, 0x8D, 0x00, 0x01, 0x00, 0x00]
    (.movR8Rm8 .al (.mem (.sibAbs 2 .ecx 0x100))) = true := by decide
theorem test_decode_movRRm : Decodes [0x8B, 0x05, 0x78, 0x56, 0x34, 0x12]
    (.movRRm .eax (.mem (.abs 0x12345678))) = true := by decide
theorem test_decode_nop : Decodes [0x90] .nop = true := by decide
theorem test_decode_movR8Imm8 : Decodes [0xB4, 0xAB] (.movR8Imm8 .ah 0xAB) = true := by decide
theorem test_decode_movRImm : Decodes [0xB8, 0x40, 0x00, 0x00, 0x00] (.movRImm .eax 64) = true := by decide
theorem test_decode_ret : Decodes [0xC3] .ret = true := by decide
theorem test_decode_movRm8Imm8 : Decodes [0xC6, 0x00, 0x58] (.movRm8Imm8 (.mem (.base .none .eax)) 0x58) = true := by
  decide
theorem test_decode_movRmImm : Decodes [0xC7, 0x44, 0xB3, 0x08, 0x01, 0x00, 0x00, 0x00]
    (.movRmImm (.mem (.sib (.d8 8) 2 .esi .ebx)) 1) = true := by decide
theorem test_decode_intImm8 : Decodes [0xCD, 0x80] (.intImm8 0x80) = true := by decide
theorem test_decode_loopRel8 : Decodes [0xE2, 0xFD] (.loopRel8 0xFD) = true := by decide
theorem test_decode_callRel : Decodes [0xE8, 0x02, 0x00, 0x00, 0x00] (.callRel 2) = true := by decide
theorem test_decode_jmpRel : Decodes [0x66, 0xE9, 0x00, 0x80] (.o16 (.jmpRel 0x8000)) = true := by decide
theorem test_decode_jmpRel8 : Decodes [0xEB, 0xFE] (.jmpRel8 0xFE) = true := by decide
theorem test_decode_hlt : Decodes [0xF4] .hlt = true := by decide

/-- V-EA1 to V-EA18: the bytes after opcode 8B and the addressing shape they name. -/
theorem test_decode_addressing :
    [([0x03], Instr.movRRm .eax (.mem (.base .none .ebx))),
     ([0x04, 0x24], .movRRm .eax (.mem (.sib .none 0 .esp .esp))),
     ([0x04, 0x8B], .movRRm .eax (.mem (.sib .none 2 .ecx .ebx))),
     ([0x04, 0x4D, 0x10, 0, 0, 0], .movRRm .eax (.mem (.sibAbs 1 .ecx 0x10))),
     ([0x45, 0xFC], .movRRm .eax (.mem (.base (.d8 0xFC) .ebp))),
     ([0x44, 0x24, 0x08], .movRRm .eax (.mem (.sib (.d8 8) 0 .esp .esp))),
     ([0x84, 0xF7, 0xF0, 0xFF, 0xFF, 0xFF], .movRRm .eax (.mem (.sib (.d32 0xFFFFFFF0) 3 .esi .edi))),
     ([0x85, 0, 0, 0, 0], .movRRm .eax (.mem (.base (.d32 0) .ebp))),
     ([0xC1], .movRRm .eax (.reg .ecx)),
     ([0x0C, 0x24], .movRRm .ecx (.mem (.sib .none 0 .esp .esp)))].all
      (fun p => Decodes (0x8B :: p.1) p.2) = true := by decide

/-- R97, R84, R160, D5: V-DE1 to V-DE3, V-DE9, V-AR8, V-AR9, V-DM7, V-CT18 to V-CT20, V-ST16, V-SY17, V-SY18. -/
theorem test_decode_rejects :
    [([0x66, 0x66, 0x90], (0x66 : Byte)), ([0xF0, 0x90], 0xF0), ([0x2E, 0x90], 0x2E), ([0xD6], 0xD6),
     ([0x80, 0xC8, 0x01], 0x80), ([0x83, 0xE0, 0x0F], 0x83), ([0xC6, 0x08, 0x01], 0xC6), ([0xC2, 0x04, 0x00], 0xC2),
     ([0xEA, 0, 0, 0, 0, 0, 0], 0xEA), ([0xE3, 0x05], 0xE3), ([0x62, 0x00], 0x62), ([0xCC], 0xCC),
     ([0x0F, 0x05], 0x0F)].all (fun p => Rejects p.1 p.2) = true := by decide

theorem test_table_word_opcode_is_most_significant :
    decodeTableWord 16 0x8128 = some (.subRmImm (.mem (.base .none .eax)) 0) := by decide
theorem test_table_word_operand_bytes_are_zero :
    decodeTableWord 8 0x68 = some (.pushImm 0) := by decide

/-! ### Steps -/

/-- The conventions of 95_test_vectors.md: a zero store of 0x1000 bytes with `bs` at address `ip`, where IP stands. -/
def vec (ip : Word) (bs : List Byte) : State :=
  State.launch { Config.default with memSize := 0x1000 } (placeBytes [] ip bs) ip 0 []

def zeros : Regs := State.reset.regs

/-- Bytes put in the store of a start state. -/
def poke (s : State) (a : Nat) (bs : List Byte) : State := { s with mem := s.mem.writeBytes a bs }

def withRegs (s : State) (x : Regs) : State := { s with regs := x }

/-- What one step leaves, seen through `f`. -/
def after {α : Type} (s : State) (f : State → α) : Option α :=
  match step s with
  | .next t => some (f t)
  | .fault _ => none
  | .refused _ => none

/-- The failure one step raises. -/
def faultOf (s : State) : Option Fault :=
  match step s with
  | .next _ => none
  | .fault r => some r
  | .refused _ => none

def flagsOf (t : State) : Bool × Bool := (t.getFlag .cf, t.getFlag .zf)

/-- The same start under the corrected ZF. -/
def resultZero (s : State) : State := { s with cfg := { s.cfg with zfMode := .resultZero } }

-- Data movement
theorem test_movR8Imm8_high : after (withRegs (vec 0 [0xB4, 0xAB]) { zeros with eax := 0x11223344 })
    (fun t => (t.regs.eax, t.ip)) = some (0x1122AB44, 2) := by decide
theorem test_movR8Imm8_prefixed : after (vec 0 [0x66, 0xB0, 0x12]) (fun t => (t.regs.eax, t.ip, t.o16))
    = some (0x12, 3, false) := by decide
theorem test_movRImm : after (vec 0 [0xBF, 0x78, 0x56, 0x34, 0x12]) (fun t => (t.regs.edi, t.ip))
    = some (0x12345678, 5) := by decide
theorem test_movRImm_prefixed : after (withRegs (vec 0 [0x66, 0xB8, 0x34, 0x12]) { zeros with eax := 0xAABBCCDD })
    (fun t => (t.regs.eax, t.ip)) = some (0xAABB1234, 4) := by decide
theorem test_movRm8Imm8 : after (withRegs (vec 0 [0xC6, 0x00, 0x58]) { zeros with eax := 64 })
    (fun t => (t.mem.read 64, t.ip)) = some (0x58, 3) := by decide
theorem test_movRmImm_prefixed : after (withRegs (poke (vec 0 [0x66, 0xC7, 0x00, 0x34, 0x12]) 0x102 [0x77])
    { zeros with eax := 0x100 }) (fun t => (t.mem.bytes 0x100 3, t.ip)) = some ([0x34, 0x12, 0x77], 5) := by decide
theorem test_movRm8R8_high_source : after (withRegs (vec 0 [0x88, 0xE0]) { zeros with eax := 0x1234 })
    (fun t => t.regs.eax) = some 0x1212 := by decide
theorem test_movRm8R8_last_byte : after (withRegs (vec 0 [0x88, 0x05, 0xFF, 0x0F, 0, 0]) { zeros with eax := 0x42 })
    (fun t => (t.mem.read 0xFFF, t.ip)) = some (0x42, 6) := by decide
theorem test_movRmR_misaligned : after (withRegs (vec 0 [0x89, 0x00]) { zeros with eax := 0x101 })
    (fun t => (t.mem.bytes 0x101 4, t.regs.eax)) = some ([1, 1, 0, 0], 0x101) := by decide
theorem test_movRmR_prefixed : after (withRegs (poke (vec 0 [0x66, 0x89, 0x08]) 0x102 [0x77])
    { zeros with eax := 0x100, ecx := 0xAAAABBCC }) (fun t => t.mem.bytes 0x100 3) = some [0xCC, 0xBB, 0x77] := by decide
theorem test_movR8Rm8 : after (withRegs (poke (vec 0 [0x8A, 0x38]) 64 [0x58]) { zeros with eax := 64 })
    (fun t => t.regs.ebx) = some 0x5800 := by decide
theorem test_movR8Rm8_index_without_base : after (withRegs (poke (vec 0 [0x8A, 0x04, 0x8D, 0, 1, 0, 0]) 0x108 [0x5A])
    { zeros with ecx := 2 }) (fun t => (t.regs.eax, t.ip)) = some (0x5A, 7) := by decide
theorem test_movRRm : after (withRegs (poke (vec 0 [0x8B, 0x45, 0xFC]) 0x100 [1, 2, 3, 4]) { zeros with ebp := 0x104 })
    (fun t => (t.regs.eax, t.ip)) = some (0x04030201, 3) := by decide
theorem test_movRRm_out_of_bounds : faultOf (vec 0 [0x8B, 0x05, 0xFE, 0x0F, 0, 0]) = some (.outOfBounds 0xFFE) := by
  decide

-- Arithmetic
theorem test_addRm8R8 : after (withRegs (poke (vec 0 [0x00, 0x20]) 0x140 [0xFF]) { zeros with eax := 0x140 })
    (fun t => (t.mem.read 0x140, flagsOf t, t.regs.eax)) = some (0, (true, false), 0x140) := by decide
theorem test_addRmR : after (withRegs (poke (vec 0 [0x01, 0x03]) 0x40 [0xFB, 0xFF, 0xFF, 0xFF])
    { zeros with eax := 5, ebx := 0x40 }) (fun t => (t.mem.bytes 0x40 4, flagsOf t, t.ip))
    = some ([0, 0, 0, 0], (true, false), 2) := by decide
theorem test_addRmR_result_zero : after (resultZero (withRegs (vec 0 [0x01, 0xD8])
    { zeros with eax := 0xFFFFFFFF, ebx := 1 })) (fun t => (t.regs.eax, flagsOf t)) = some (0, (true, true)) := by decide
theorem test_addR8Rm8 : after (withRegs (vec 0 [0x02, 0xC0]) { zeros with eax := 0x80 })
    (fun t => (t.regs.eax, flagsOf t)) = some (0, (true, true)) := by decide
theorem test_addRRm : after (withRegs (poke (vec 0 [0x03, 0x03]) 0x40 [7]) { zeros with eax := 7, ebx := 0x40 })
    (fun t => (t.regs.eax, flagsOf t)) = some (14, (false, true)) := by decide
theorem test_addRRm_result_zero : after (resultZero (withRegs (poke (vec 0 [0x03, 0x03]) 0x40 [7])
    { zeros with eax := 7, ebx := 0x40 })) (fun t => (t.regs.eax, flagsOf t)) = some (14, (false, false)) := by decide
theorem test_addRm8Imm8 : after (withRegs (poke (vec 0 [0x80, 0x40, 0x10, 0x07]) 0x110 [0xFA]) { zeros with eax := 0x100 })
    (fun t => (t.mem.read 0x110, flagsOf t, t.ip)) = some (1, (true, false), 4) := by decide
theorem test_subRm8Imm8 : after (withRegs (vec 0 [0x80, 0xEB, 0x10]) { zeros with ebx := 0x10 })
    (fun t => (t.regs.ebx, flagsOf t)) = some (0, (false, true)) := by decide
theorem test_sub7Rm8Imm8_writes_back : after (withRegs (vec 0 [0x80, 0xFB, 0x01]) { zeros with ebx := 0x10 })
    (fun t => (t.regs.ebx, flagsOf t)) = some (0x0F, (false, false)) := by decide
theorem test_addRmImm : after (poke (vec 0 [0x81, 0x05, 0, 2, 0, 0, 0x10, 0, 0, 0]) 0x200 [0xF0, 0xFF, 0xFF, 0xFF])
    (fun t => (t.mem.bytes 0x200 4, flagsOf t, t.ip)) = some ([0, 0, 0, 0], (true, false), 10) := by decide
theorem test_addRmImm_prefixed : after (withRegs (vec 0 [0x66, 0x81, 0xC0, 0xFF, 0xFF]) { zeros with eax := 0x10001 })
    (fun t => (t.regs.eax, flagsOf t, t.ip)) = some (0x10000, (true, false), 5) := by decide
theorem test_subRmImm_prefixed : after (withRegs (vec 0 [0x66, 0x81, 0xE9, 1, 0]) { zeros with ecx := 0x10000 })
    (fun t => (t.regs.ecx, flagsOf t)) = some (0x1FFFF, (true, false)) := by decide
theorem test_sub7RmImm : after (withRegs (vec 0 [0x81, 0xFA, 0xE8, 3, 0, 0]) { zeros with edx := 1000 })
    (fun t => (t.regs.edx, flagsOf t)) = some (0, (false, true)) := by decide
theorem test_addRm8Imm8s : after (withRegs (vec 0 [0x82, 0xC0, 2]) { zeros with eax := 1 })
    (fun t => (t.regs.eax, flagsOf t)) = some (3, (false, false)) := by decide
theorem test_subRm8Imm8s : after (withRegs (vec 0 [0x82, 0xE8, 3]) { zeros with eax := 3 })
    (fun t => (t.regs.eax, flagsOf t)) = some (0, (false, true)) := by decide
theorem test_sub7Rm8Imm8s : after (withRegs (vec 0 [0x82, 0xF8, 4]) { zeros with eax := 3 })
    (fun t => (t.regs.eax, flagsOf t)) = some (0xFF, (true, false)) := by decide
theorem test_addRmImm8_negative : after (withRegs (vec 0 [0x83, 0xC0, 0xFF]) { zeros with eax := 1 })
    (fun t => (t.regs.eax, flagsOf t)) = some (0, (true, false)) := by decide
theorem test_addRmImm8_prefixed : after (withRegs (vec 0 [0x66, 0x83, 0xC1, 0x80]) { zeros with ecx := 0xAAAA0080 })
    (fun t => (t.regs.ecx, flagsOf t, t.ip)) = some (0xAAAA0000, (true, false), 4) := by decide
theorem test_subRmImm8 : after (withRegs (vec 0 [0x83, 0xE9, 0x80]) zeros)
    (fun t => (t.regs.ecx, flagsOf t, t.ip)) = some (0x80, (true, false), 3) := by decide
theorem test_subRmImm8_memory : after (withRegs (poke (vec 18 [0x83, 0x6C, 0xB3, 8, 1]) 0x90 [1])
    { zeros with ebx := 0x80, esi := 2 }) (fun t => (t.mem.bytes 0x90 4, flagsOf t, t.ip))
    = some ([0, 0, 0, 0], (false, true), 23) := by decide
theorem test_sub7RmImm8 : after (vec 0 [0x83, 0xF9, 1]) (fun t => (t.regs.ecx, flagsOf t))
    = some (0xFFFFFFFF, (true, false)) := by decide
theorem test_incR_keeps_flags : after { withRegs (vec 0 [0x40]) { zeros with eax := 0xFFFFFFFF } with flags := 1 }
    (fun t => (t.regs.eax, t.flags, t.ip)) = some (0, 1, 1) := by decide
theorem test_incR_prefixed : after (withRegs (vec 0 [0x66, 0x40]) { zeros with eax := 0x1234FFFF })
    (fun t => (t.regs.eax, t.ip)) = some (0x12340000, 2) := by decide
theorem test_decR : after (vec 0 [0x48]) (fun t => (t.regs.eax, t.flags)) = some (0xFFFFFFFF, 0) := by decide
theorem test_decR_prefixed : after (withRegs (vec 0 [0x66, 0x4F]) { zeros with edi := 0x50000 })
    (fun t => t.regs.edi) = some 0x5FFFF := by decide

-- Control transfer
theorem test_jz_taken : after { vec 0 [0x74, 0x7F] with flags := 0x40 } (fun t => t.ip) = some 0x81 := by decide
theorem test_jz_prefixed : after { vec 0 [0x66, 0x74, 0x10] with flags := 0x40 } (fun t => t.ip) = some 0x13 := by decide
theorem test_jnz_taken : after (vec 0x10 [0x75, 0xF0]) (fun t => t.ip) = some 2 := by decide
theorem test_jnz_not_taken : after { vec 0x10 [0x75, 0xF0] with flags := 0x40 } (fun t => t.ip) = some 0x12 := by decide
theorem test_loopRel8_last : after (withRegs (vec 0 [0xE2, 0xFE]) { zeros with ecx := 1 })
    (fun t => (t.regs.ecx, t.ip)) = some (0, 2) := by decide
theorem test_loopRel8_prefixed : after (withRegs (vec 0 [0x66, 0xE2, 0xFE]) { zeros with ecx := 0x10000 })
    (fun t => (t.regs.ecx, t.ip)) = some (0xFFFF, 1) := by decide
theorem test_callRel : after (withRegs (vec 0x20 [0xE8, 0x10, 0, 0, 0]) { zeros with esp := 0x800 })
    (fun t => (t.mem.bytes 0x7FC 4, t.regs.esp, t.ip)) = some ([0x25, 0, 0, 0], 0x7FC, 0x35) := by decide
theorem test_callRel_prefixed : after (withRegs (vec 0x20 [0x66, 0xE8, 0x10, 0]) { zeros with esp := 0x800 })
    (fun t => (t.mem.bytes 0x7FE 2, t.regs.esp, t.ip)) = some ([0x24, 0], 0x7FE, 0x34) := by decide
theorem test_jmpRel : after (vec 0 [0xE9, 0, 0x10, 0, 0]) (fun t => t.ip) = some 0x1005 := by decide
theorem test_jmpRel_prefixed : after (vec 0x10 [0x66, 0xE9, 0, 0x80]) (fun t => t.ip) = some 0x8014 := by decide
theorem test_jmpRel8 : after (vec 0x20 [0xEB, 0xF0]) (fun t => t.ip) = some 0x12 := by decide
theorem test_jmpRel8_prefixed : after { vec 0x1FFF0 [0x66, 0xEB, 0] with
    cfg := { Config.default with memSize := 0x20000 } } (fun t => t.ip) = some 0xFFF3 := by decide
theorem test_ret : after (withRegs (poke (vec 0 [0xC3]) 0x7FC [0x25]) { zeros with esp := 0x7FC })
    (fun t => (t.ip, t.regs.esp)) = some (0x25, 0x800) := by decide
theorem test_ret_prefixed : after { withRegs (poke (vec 0x10000 [0x66, 0xC3]) 0x7FE [0x34, 0x12])
    { zeros with esp := 0x7FE } with cfg := { Config.default with memSize := 0x20000 } }
    (fun t => (t.ip, t.regs.esp)) = some (0x1234, 0x800) := by decide

-- Stack
theorem test_pushR : after (withRegs (vec 0 [0x50]) { zeros with esp := 0x100, eax := 0x12345678 })
    (fun t => (t.mem.bytes 0xFC 4, t.regs.esp)) = some ([0x78, 0x56, 0x34, 0x12], 0xFC) := by decide
theorem test_pushR_esp_after : after { withRegs (vec 0 [0x54]) { zeros with esp := 0x100 } with
    cfg := { Config.default with espPushValue := .after } }
    (fun t => (t.mem.bytes 0xFC 4, t.regs.esp)) = some ([0xFC, 0, 0, 0], 0xFC) := by decide
theorem test_popR_prefixed : after (withRegs (poke (vec 0 [0x66, 0x58]) 0xFE [0x34, 0x12])
    { zeros with esp := 0xFE, eax := 0xFFFFFFFF }) (fun t => (t.regs.eax, t.regs.esp)) = some (0xFFFF1234, 0x100) := by
  decide
theorem test_popR_esp_plus_step : after { withRegs (poke (vec 0 [0x5C]) 0xFC [0, 2]) { zeros with esp := 0xFC } with
    cfg := { Config.default with popEspResult := .poppedPlusStep } } (fun t => t.regs.esp) = some 0x204 := by decide
theorem test_pushImm_prefixed : after (withRegs (vec 0 [0x66, 0x68, 0x34, 0x12]) { zeros with esp := 0x100 })
    (fun t => (t.mem.bytes 0xFE 2, t.regs.esp, t.ip)) = some ([0x34, 0x12], 0xFE, 4) := by decide
theorem test_pushImm8 : after (withRegs (vec 0 [0x6A, 0x80]) { zeros with esp := 0x100 })
    (fun t => (t.mem.bytes 0xFC 4, t.regs.esp)) = some ([0x80, 0xFF, 0xFF, 0xFF], 0xFC) := by decide
theorem test_pushImm8_prefixed : after (withRegs (vec 0 [0x66, 0x6A, 0x80]) { zeros with esp := 0x100 })
    (fun t => (t.mem.bytes 0xFE 2, t.regs.esp)) = some ([0x80, 0xFF], 0xFE) := by decide
/-- The registers of R206's example. -/
def pushaRegs : Regs := { eax := 1, ecx := 2, edx := 3, ebx := 4, esp := 0x100, ebp := 6, esi := 7, edi := 8 }
theorem test_pusha_prefixed : after (withRegs (vec 0 [0x66, 0x60]) pushaRegs) (fun t => (t.mem.bytes 0xF0 16, t.regs.esp))
    = some ([8, 0, 7, 0, 6, 0, 0, 1, 4, 0, 3, 0, 2, 0, 1, 0], 0xF0) := by decide
theorem test_pusha_esp_after : after { withRegs (vec 0 [0x60]) pushaRegs with
    cfg := { Config.default with espPushValue := .after } }
    (fun t => (t.mem.bytes 0xEC 4, t.mem.bytes 0xFC 4, t.regs.esp)) = some ([0xEC, 0, 0, 0], [1, 0, 0, 0], 0xE0) := by decide
theorem test_popa_discards_esp_slot : after (withRegs (poke (vec 0 [0x61]) 0xE0
      [8, 0, 0, 0, 7, 0, 0, 0, 6, 0, 0, 0, 0x78, 0x56, 0x34, 0x12, 4, 0, 0, 0, 3, 0, 0, 0, 2, 0, 0, 0, 1, 0, 0, 0])
    { zeros with esp := 0xE0 }) (fun t => t.regs) = some pushaRegs := by decide
theorem test_push_out_of_bounds : faultOf (withRegs (vec 0 [0x50]) { zeros with esp := 2 })
    = some (.outOfBounds 0xFFFFFFFE) := by decide

-- System
theorem test_nop_prefixed : after (vec 0 [0x66, 0x90]) (fun t => (t.ip, t.regs, t.flags)) = some (2, zeros, 0) := by decide
theorem test_hlt : after (vec 0 [0xF4]) (fun t => (t.status, t.ip)) = some (.halted, 1) := by decide
/-- R40, R265: a normal end shows the host input still to be read; a running state shows nothing. -/
theorem test_observation_shows_the_remaining_input :
    after { vec 0 [0xF4] with input := [.line [0x61], .eof] } (fun t => t.observation.map (·.input))
      = some (some [.line [0x61], .eof]) ∧ (vec 0 [0xF4]).observation = none := by decide
theorem test_int_exit : after (withRegs (vec 0 [0xCD, 0x80]) { zeros with eax := 1, ebx := 0xFFFFFFFF })
    (fun t => (t.status, t.ip)) = some (.exited 0xFFFFFFFF, 2) := by decide
theorem test_int_read_cut : after { withRegs (vec 0 [0xCD, 0x80]) { zeros with eax := 3, ecx := 0x100, edx := 5 } with
    input := [.line [0x68, 0x65, 0x6C, 0x6C, 0x6F]] }
    (fun t => (t.mem.bytes 0x100 6, t.input, t.ip)) = some ([0x68, 0x65, 0x6C, 0x6C, 0x6F, 0], [], 2) := by decide
theorem test_int_read_newline : after { withRegs (vec 0 [0xCD, 0x80]) { zeros with eax := 3, ecx := 0x100, edx := 1 } with
    input := [.line []] } (fun t => t.mem.read 0x100) = some 0x0A := by decide
theorem test_int_write : after (withRegs (poke (vec 0 [0xCD, 0x80]) 0x100 [0x41])
    { zeros with eax := 4, ebx := 2, ecx := 0x100, edx := 1 }) (fun t => (t.output, t.regs.ecx)) = some ([0x41], 0x100) := by
  decide
theorem test_int_write_nothing : after (withRegs (vec 0 [0xCD, 0x80]) { zeros with eax := 4, ecx := 0xFFFFFFFF })
    (fun t => t.output) = some [] := by decide
theorem test_int_faults :
    [faultOf (vec 0 [0xCD, 0x21]), faultOf (withRegs (vec 0 [0xCD, 0x80]) { zeros with eax := 2 }),
     faultOf { withRegs (vec 0 [0xCD, 0x80]) { zeros with eax := 3 } with
       cfg := { Config.default with hasReadSyscall := false } },
     faultOf (withRegs (vec 0 [0xCD, 0x80]) { zeros with eax := 4, ecx := 0xFFE, edx := 4 })]
    = [some (.unimplementedInterrupt 0x21), some (.unknownSyscall 2), some (.unknownSyscall 3),
       some (.outOfBounds 0xFFE)] := by decide

-- Fetching and failing in order
/-- V-DE6 to V-DE8, and R255: with the operand of 81 and its immediate both past the store, the operand's read fails
first (R147). -/
theorem test_fetch_faults :
    [faultOf (vec 0xFFC [0xB8]), faultOf (vec 0x1000 []), faultOf (vec 0xFFF [0x66]),
     faultOf (vec 0xFFA [0x81, 0x05, 0xFE, 0x0F, 0, 0]), faultOf (vec 0xFFA [0x81, 0x05, 0xFC, 0x0F, 0, 0])]
    = [some (.outOfBounds 0xFFD), some (.outOfBounds 0x1000), some (.outOfBounds 0x1000),
       some (.outOfBounds 0xFFE), some (.outOfBounds 0x1000)] := by decide
theorem test_not_running_stops : faultOf { vec 0 [0x90] with status := .halted } = some .notRunning := by decide

/-- An instruction may lie across the top of a 2^32-byte store (R29): B8 at 0xFFFFFFFF, its immediate at 0. -/
theorem test_fetch_wraps : after (State.launch Config.default (placeBytes [] 0xFFFFFFFF [0xB8, 1, 2, 3, 4]) 0xFFFFFFFF 0 [])
    (fun t => (t.regs.eax, t.ip)) = some (0x04030201, 4) := by decide

theorem test_withFetchWord_runs_as_first_instruction :
    after (State.reset.withFetchWord 16 0x8000) (fun t => (t.ip, t.regs, t.status)) = some (3, zeros, .running) := by decide

theorem test_launchImage_zero_fills_then_copies :
    (match launchImage { Config.default with memSize := 0x1000 } [(0x101, 9), (0x103, 9)]
        [{ vaddr := 0x100, memsz := 3, data := [5] }] 0x100 0x800 [] with
     | .ok s => some (s.mem.bytes 0x100 4, s.ip, s.regs.esp)
     | .error _ => none) = some ([5, 0, 0, 9], 0x100, 0x800) := by decide

/-! ### The hypotheses of the statements can be met, at the edges of each clause -/

open Sys2Proof.Claims

/-- A store of 64 bytes with the eight registers given, between instructions. -/
def small (x : Regs) : State := { withRegs (vec 0 []) x with cfg := { Config.default with memSize := 64 } }

/-- The same state inside a prefixed instruction. -/
def latched (s : State) : State := { s with o16 := true }

/-- Registers whose ESP is `a`. -/
def espAt (a : Word) : Regs := { zeros with esp := a }

theorem witness_DecodeOfEncodeIsTheInstruction : (Instr.o16 (.addRmImm (.mem (.sib (.d32 1) 3 .edi .ebp)) 0xFFFF)).wf = true ∧
    (Instr.movRm8Imm8 (.mem (.base (.d8 0) .ebp)) 0).wf = true := by decide
theorem witness_DecodedBytesAreTheEncoding : decodeBytes [0x66, 0x90, 0xC3] = .ok (.o16 .nop, [0xC3]) := rfl
theorem witness_ResolvedOperandIsResolveEA : (2 : BitVec 2) ≠ 3 := by decide
theorem witness_OperandTakesTheBytesOfTheTable :
    decodeRm Reg.ofSel (fetchList [0x45, 0x10]) 0x44 0 = .ok (.mem (.sib (.d8 0x10) 1 .eax .ebp), 2) := rfl
theorem witness_StepRunsTheDecodedInstruction :
    (vec 0 [0x90]).status = .running ∧ (vec 0 [0x90]).decodeHere = .ok (.nop, 1) := ⟨rfl, rfl⟩
/-- The encoding ends with the store. -/
theorem witness_StepRunsTheStoredInstruction :
    let s := vec 0xFFB (encode (.movRImm .eax 5))
    s.status = .running ∧ s.cfg.memSize ≤ 4294967296 ∧ (Instr.movRImm .eax 5).wf = true ∧
      Holds s (encode (.movRImm .eax 5)) := ⟨rfl, by decide, rfl, by unfold Holds; decide⟩
theorem witness_UndefinedEncodingsAreUnimplemented :
    (0xD6 : Byte) ∉ tableOpcodes ∧ (0x66 : Byte) ∉ tableOpcodes ∧ Holds (vec 0xFFF [0xD6]) [0xD6] ∧
      Holds (vec 0xFFE [0x66, 0x66]) [0x66, 0x66] ∧ fieldMid 0xC8 ∉ [0, 5, 7] ∧
      Holds (vec 0xFFE [0x80, 0xC8]) [0x80, 0xC8] ∧ fieldMid 0x08 ≠ 0 ∧
      Holds (vec 0xFFD [0x66, 0xC6, 0x08]) [0x66, 0xC6, 0x08] := by unfold Holds; decide
theorem witness_FetchPastTheStoreFails :
    (vec 0x1000 []).status = .running ∧ (vec 0x1000 []).cfg.memSize ≤ (vec 0x1000 []).ip.toNat := by decide
/-- The operand's last byte is the store's last, and one past it; the immediate lacks its last byte. -/
theorem witness_OperandReadFailsBeforeImmediateFetch : [(0xFFC : Word), 0xFFD].all fun a =>
    let s := vec 0xFF7 (0x81 :: 0x05 :: leBytes 4 a.toNat)
    s.status == .running && decide (s.cfg.memSize ≤ 4294967296) && decide (s.ip.toNat + 6 ≤ s.cfg.memSize) &&
      ((List.range 6).all fun k => s.mem.read (s.ip.toNat + k) == (0x81 :: 0x05 :: leBytes 4 a.toNat).getD k 0) &&
      decide (s.ip.toNat + 6 < 4294967296) && decide (s.cfg.memSize < s.ip.toNat + 10) := by decide
theorem witness_FailuresAreTheFourReasons :
    (vec 0x1000 []).status = .running ∧ faultOf (vec 0x1000 []) = some (.outOfBounds 0x1000) := by decide
theorem witness_StoppedStatesDoNotStep : ({ vec 0 [] with status := .halted } : State).status ≠ .running ∧
    (vec 0 [0x90]).status = .running ∧ faultOf (vec 0 [0xD6]) = some (.unimplementedOpcode 0xD6) ∧
    after (vec 0 [0x90]) (fun t => t.status) = some .running := by decide
theorem witness_EveryStepKeepsTheInvariant :
    (vec 0 [0x90]).Inv ∧ after (vec 0 [0x90]) (fun t => t.ip) = some 1 :=
  ⟨⟨by decide, by decide, by decide, by decide, rfl, by decide⟩, by decide⟩
/-- A segment that ends with the store, with file bytes and zeros. -/
theorem witness_LoadedSegmentIsFileBytesThenZeros :
    (small zeros).mem.wf ∧ (match loadSegment { vaddr := 60, memsz := 4, data := [1, 2] } (small zeros) with
      | .ok t => t.mem.bytes 60 4 == [1, 2, 0, 0]
      | .error _ => false) = true := by decide
/-- An access that ends with the store, and one that passes it by one byte. -/
theorem witness_MemReadIsLittleEndian : (60 : Word).toNat + Width.w32.bytes ≤ (small zeros).cfg.memSize ∧
    (small zeros).cfg.memSize < (63 : Word).toNat + Width.w16.bytes := by decide
theorem witness_MemWriteStoresTheLowBytes : (small zeros).mem.wf ∧
    (63 : Word).toNat + Width.w8.bytes ≤ (small zeros).cfg.memSize ∧
    (small zeros).cfg.memSize < (61 : Word).toNat + Width.w32.bytes := by decide
theorem witness_FetchSeesTheLastStore : (small zeros).mem.wf ∧ ∃ t, memWrite 62 .w16 0xABCD (small zeros) = .ok t :=
  ⟨by decide, _, rfl⟩
/-- Operands at the ends of the 8-bit range: an addition that just wraps and one that just does not, a subtraction that
just borrows and one that just does not. -/
theorem witness_AluAddWrapsAndCarries : (0xFF : Word).toNat < 2 ^ bits .w8 ∧ aluAdd .w8 0xFF 1 = (0, true) ∧
    aluAdd .w8 0xFE 1 = (0xFF, false) := by decide
theorem witness_AluSubWrapsAndBorrows : (0xFF : Word).toNat < 2 ^ bits .w8 ∧ aluSub .w8 0 1 = (0xFF, true) ∧
    aluSub .w8 1 1 = (0, false) := by decide
theorem witness_ZfModesAgreeForSubtraction : (0xFFFFFFFF : Word).toNat < 2 ^ bits .w32 := by decide
theorem witness_PrefixRunsItsInstructionUnderTheLatch :
    (∀ j, Instr.incR .eax ≠ .o16 j) ∧ (∃ t, exec (.incR .eax) (latched (small zeros)) = .next t) ∧
      exec (.popR .eax) (latched (small (espAt 63))) = .fault (.outOfBounds 63) := ⟨nofun, ⟨_, rfl⟩, rfl⟩
theorem witness_PrefixedRegisterFormsKeepTheUpperHalf : (small zeros).o16 = false := rfl

/-- A memory operand that ends with the store, at each width; a register operand. -/
theorem witness_Reachable : (small zeros).mem.wf ∧
    Reachable (small zeros) ((small zeros).loc8 (.mem (.abs 63))) .w8 ∧
    Reachable (small zeros) ((small zeros).locW (.mem (.abs 60))) (small zeros).width ∧
    Reachable (latched (small zeros)) ((latched (small zeros)).locW (.mem (.abs 62))) (latched (small zeros)).width ∧
    Reachable (small zeros) ((small zeros).loc8 (.reg .bh)) .w8 ∧
    Reachable (small zeros) ((small zeros).locW (.reg .edi)) (small zeros).width :=
  ⟨by decide, (by decide : (63 : Word).toNat + 1 ≤ 64), (by decide : (60 : Word).toNat + 4 ≤ 64),
    (by decide : (62 : Word).toNat + 2 ≤ 64), trivial, trivial⟩
theorem witness_MovStoresItsSource : (small zeros).mem.wf ∧
    Reachable (small zeros) ((small zeros).loc8 (.mem (.abs 63))) .w8 :=
  ⟨witness_Reachable.1, witness_Reachable.2.1⟩
theorem witness_MovLoadsItsSource : Reachable (small zeros) ((small zeros).locW (.mem (.abs 60))) (small zeros).width :=
  witness_Reachable.2.2.1
theorem witness_AddToOperandAddsAndSetsFlags : (small zeros).mem.wf ∧
    Reachable (small zeros) ((small zeros).locW (.mem (.abs 60))) (small zeros).width :=
  ⟨witness_Reachable.1, witness_Reachable.2.2.1⟩
theorem witness_AddToRegisterAddsAndSetsFlags : Reachable (small zeros) ((small zeros).loc8 (.reg .bh)) .w8 :=
  witness_Reachable.2.2.2.2.1
theorem witness_AddImmediateAddsAndSetsFlags : (small zeros).mem.wf ∧
    Reachable (small zeros) ((small zeros).locW (.reg .edi)) (small zeros).width :=
  ⟨witness_Reachable.1, witness_Reachable.2.2.2.2.2⟩
theorem witness_SubImmediateSubtractsAndSetsFlags : (latched (small zeros)).mem.wf ∧
    Reachable (latched (small zeros)) ((latched (small zeros)).locW (.mem (.abs 62))) (latched (small zeros)).width :=
  ⟨witness_Reachable.1, witness_Reachable.2.2.2.1⟩
theorem witness_SubOpcodeSevenSubtractsAndWritesBack : (small zeros).mem.wf ∧
    Reachable (small zeros) ((small zeros).loc8 (.mem (.abs 63))) .w8 :=
  ⟨witness_Reachable.1, witness_Reachable.2.1⟩
/-- The operand ends with the store, and passes it by one byte. -/
theorem witness_MemoryOperandsFailOnlyPastTheStore :
    memOperand (small zeros) (.movRRm .eax (.mem (.abs 60))) = some (60, .w32) ∧
      (∃ t, exec (.movRRm .eax (.mem (.abs 60))) (small zeros) = .next t) ∧
      memOperand (small zeros) (.movRRm .eax (.mem (.abs 61))) = some (61, .w32) ∧
      exec (.movRRm .eax (.mem (.abs 61))) (small zeros) = .fault (.outOfBounds 61) := ⟨rfl, ⟨_, rfl⟩, rfl, rfl⟩

/-- The pushed slot is the store's last, and its first; popped likewise. -/
theorem witness_CallPushesTheNextAddressAndJumps : (small (espAt 64)).mem.wf ∧ CanPush (small (espAt 64)) ∧
    CanPush (small (espAt 4)) := by unfold CanPush; decide
theorem witness_RetPopsIp : SlotInside (small (espAt 60)) ((small (espAt 60)).reg .esp) := by unfold SlotInside; decide
theorem witness_RetReturnsAfterTheCall :
    (small (espAt 64)).mem.wf ∧ ∃ t, exec (.callRel 8) (small (espAt 64)) = .next t := ⟨by decide, _, rfl⟩
theorem witness_PushStoresBelowEsp : (latched (small (espAt 2))).mem.wf ∧ CanPush (latched (small (espAt 2))) := by
  unfold CanPush
  decide
/-- A push that wraps below 0, a pop one byte past; the fifth push of PUSHA and the fourth pop of POPA fail first. -/
theorem witness_StackAccessesPastTheStoreFail :
    ¬ SlotInside (small (espAt 0)) (slotBelow (small (espAt 0)) 1) ∧
    ¬ SlotInside (small (espAt 61)) ((small (espAt 61)).reg .esp) ∧
    (∀ j, 1 ≤ j → j < 5 → SlotInside (small (espAt 16)) (slotBelow (small (espAt 16)) j)) ∧
    ¬ SlotInside (small (espAt 16)) (slotBelow (small (espAt 16)) 5) ∧
    (∀ j, j < 3 → SlotInside (small (espAt 52)) (slotAbove (small (espAt 52)) j)) ∧
    ¬ SlotInside (small (espAt 52)) (slotAbove (small (espAt 52)) 3) := by
  unfold SlotInside
  refine ⟨by decide, by decide, fun j h1 h2 => ?_, by decide, by decide, by decide⟩
  interval_cases j <;> decide
theorem witness_PopLoadsFromEsp : SlotInside (small (espAt 60)) ((small (espAt 60)).reg .esp) := witness_RetPopsIp
theorem witness_PushThenPopRestores : (small (espAt 64)).mem.wf ∧ (small (espAt 64)).cfg.espPushValue = .before ∧
    (small (espAt 64)).cfg.popEspResult = .popped ∧ ∃ t, exec (.pushR .esp) (small (espAt 64)) = .next t :=
  ⟨by decide, rfl, rfl, _, rfl⟩
/-- The eight slots fill the lower half of the store, and wrap below 0 in a store of 2^32 bytes. -/
theorem witness_PushaStoresAllRegisters :
    (small (espAt 32)).mem.wf ∧ (small (espAt 32)).cfg.memSize ≤ 4294967296 ∧
    (∀ k, 1 ≤ k → k ≤ 8 → SlotInside (small (espAt 32)) (slotBelow (small (espAt 32)) k)) ∧
    ∀ k, 1 ≤ k → k ≤ 8 → SlotInside State.reset (slotBelow State.reset k) := by
  unfold SlotInside
  refine ⟨by decide, by decide, fun k h1 h2 => ?_, fun k h1 h2 => ?_⟩ <;> interval_cases k <;> decide
theorem witness_PopaLoadsAllRegistersButEsp :
    ∀ k, k < 8 → SlotInside (small (espAt 32)) (slotAbove (small (espAt 32)) k) := by unfold SlotInside; decide
theorem witness_PushaThenPopaRestores : (small (espAt 32)).mem.wf ∧ (small (espAt 32)).cfg.memSize ≤ 4294967296 ∧
    ∃ t, exec .pusha (small (espAt 32)) = .next t := ⟨by decide, by decide, _, rfl⟩

theorem witness_IntSelectsTheSyscall : (0x7F : Byte) ≠ 0x80 ∧
    ((small zeros).reg .eax ≠ 1 ∧ (small zeros).reg .eax ≠ 4 ∧ (small zeros).reg .eax ≠ 3) ∧
    (small { zeros with eax := 1 }).reg .eax = 1 ∧
    ({ small { zeros with eax := 3 } with cfg := { Config.default with hasReadSyscall := false } } : State).cfg.hasReadSyscall
      = false := by decide
/-- Nothing to write past the store; a write that ends with the store; one that passes it by one byte. -/
theorem witness_WriteSyscallOutputsTheBytes : [((0xFFFFFFFF : Word), (0 : Word)), (62, 2), (62, 3)].all (fun p =>
    let s := small { zeros with eax := 4, ecx := p.1, edx := p.2 }
    s.reg .eax == 4 && (decide (s.reg .edx = 0 ∨ (s.reg .ecx).toNat + (s.reg .edx).toNat ≤ s.cfg.memSize)
      || decide (s.reg .edx ≠ 0 ∧ s.cfg.memSize < (s.reg .ecx).toNat + (s.reg .edx).toNat))) = true := by decide
/-- End of input; a line one byte shorter than the room for it, which gets its newline and ends with the store; a line that
just fills the room and passes the store by one byte. -/
theorem witness_ReadSyscallStoresTheLine :
    let s := fun (a : Word) (input : List HostLine) =>
      ({ small { zeros with eax := 3, ecx := a, edx := 2 } with input := input } : State)
    (s 0 []).mem.wf ∧ (s 0 []).reg .eax = 3 ∧ (s 0 []).cfg.hasReadSyscall = true ∧ (s 0 []).input = [] ∧
    (s 62 [.line [1]]).input = [.line [1]] ∧ (([1] : List Byte).length < ((s 62 [.line [1]]).reg .edx).toNat ∧ (62 : Word).toNat + [1, 0x0A].length ≤ 64) ∧
    ¬ ([1, 2] : List Byte).length < ((s 63 [.line [1, 2]]).reg .edx).toNat ∧ 64 < (63 : Word).toNat + [1, 2].length := by
  decide
theorem witness_FileDescriptorIsIgnored : (small { zeros with eax := 4 }).reg .eax = 4 ∧
    ∃ t, exec (.intImm8 0x80) (small { zeros with eax := 4 }) = .next t := ⟨rfl, _, rfl⟩

theorem witness_OnlyAddAndSubWriteFlags :
    writesFlags (body (.o16 (.incR .eax))) = false ∧ ∃ t, exec (.o16 (.incR .eax)) (small zeros) = .next t := ⟨rfl, _, rfl⟩
theorem witness_OnlyNamedSlotsAreWritten :
    Reg.ebx ∉ writtenSlots (body (.incR .eax)) ∧ ∃ t, exec (.incR .eax) (small zeros) = .next t := ⟨by decide, _, rfl⟩
theorem witness_OnlyTransfersWriteIp : transfers (body .hlt) = false ∧ ∃ t, exec .hlt (small zeros) = .next t :=
  ⟨rfl, _, rfl⟩
theorem witness_OnlyHltAndIntStopAndOnlyIntReachesTheHost :
    mayStop (body .nop) = false ∧ reachesHost (body .nop) = false ∧ ∃ t, exec .nop (small zeros) = .next t :=
  ⟨rfl, rfl, _, rfl⟩
theorem witness_StepsKeepTheParameters : after (vec 0 [0x90]) (fun t => t.cfg.memSize) = some 0x1000 := by decide

end Sys2Proof.Tests
end

section
/-! Proofs of the statements on 00_scope.md: what a step is (R9, R10), and what it keeps (R7, R31, R38, R50). Every
meaning is a chain of the operations that instructions share, so a property each of them keeps is kept by every step. -/

namespace Sys2Proof.Machine

open Host (Outcome)

/-! ### One step (R9, R10) -/

theorem step_of_decodeHere {s : State} {i : Instr} {ip : Word} (hs : s.status = .running)
    (hd : s.decodeHere = .ok (i, ip)) : step s = exec i (s.fetched ip) := by
  simp only [step, hs, hd]

theorem step_of_decodeHere_error {s : State} {e : DecodeError} (hs : s.status = .running)
    (hd : s.decodeHere = .error e) : step s = .fault (s.decodeFault e) := by
  simp only [step, hs, hd, raise, finish_error]

theorem step_of_not_running {s : State} (hs : s.status ≠ .running) : step s = .fault .notRunning := by
  unfold step
  cases h : s.status with
  | running => exact absurd h hs
  | halted | exited | failed => rfl

/-- A step that goes on ran the instruction decoded at IP of a running state. -/
theorem step_eq_next {s t : State} :
    step s = .next t ↔ s.status = .running ∧
      ∃ i ip, s.decodeHere = .ok (i, ip) ∧ exec i (s.fetched ip) = .next t := by
  constructor
  · intro h
    by_cases hs : s.status = .running
    · cases hd : s.decodeHere with
      | error e => simp [step_of_decodeHere_error hs hd] at h
      | ok p => exact ⟨hs, p.1, p.2, rfl, step_of_decodeHere hs hd ▸ h⟩
    · simp [step_of_not_running hs] at h
  · rintro ⟨hs, i, ip, hd, hx⟩
    rw [step_of_decodeHere hs hd, hx]

theorem settle_of_not_running {s : State} (hs : s.status ≠ .running) : s.settle = s := by
  unfold State.settle
  cases h : s.status with
  | running => exact absurd h hs
  | halted | exited | failed => rfl

theorem settle_of_fault {s : State} {r : Fault} (hs : s.status = .running) (h : step s = .fault r) :
    s.settle = { s with status := .failed r } := by
  simp only [State.settle, hs, h]

theorem settle_of_next {s t : State} (h : step s = .next t) : s.settle = t := by
  simp only [State.settle, (step_eq_next.1 h).1, h]

/-! ### The operations a meaning is made of -/

/-- `t` follows from `s` by one of the operations that the meanings of the instructions share. -/
inductive SharedOp (s : State) : State → Prop where
  | jump (a : Word) : SharedOp s (s.jump a)
  | set (r : RegRef) (v : Word) : SharedOp s (s.set r v)
  | setCfZf (c z : Bool) : SharedOp s (s.setCfZf c z)
  | writeLoc {l : Loc} {w : Width} {v : Word} {t : State} (h : writeLoc l w v s = .ok t) : SharedOp s t
  | push {v : Word} {t : State} (h : push v s = .ok t) : SharedOp s t
  | pop {v : Word} {t : State} (h : pop s = .ok (v, t)) : SharedOp s t
  | pushAll {esp0 : Word} {rs : List Reg} {t : State} (h : pushAll esp0 rs s = .ok t) : SharedOp s t
  | popAll {rs : List Reg} {t : State} (h : popAll rs s = .ok t) : SharedOp s t
  | halt : SharedOp s { s with status := .halted }
  | syscall {t : State} (h : syscall s = .ok t) : SharedOp s t

/-- `t` follows from `s` by shared operations, one after the other. -/
abbrev OpChain : State → State → Prop := Relation.ReflTransGen SharedOp

theorem SharedOp.keeps_sound {s t : State} (h : SharedOp s t) (hs : s.Sound) : t.Sound := by
  cases h with
  | jump a => exact hs.congr rfl rfl rfl rfl
  | set r v => exact hs.set r v
  | setCfZf c z => exact hs.setCfZf c z
  | writeLoc h => exact hs.writeLoc h
  | push h => exact hs.push h
  | pop h => exact hs.pop h
  | pushAll h => exact hs.pushAll h
  | popAll h => exact hs.popAll h
  | halt => exact hs.congr rfl rfl rfl rfl
  | syscall h => exact hs.syscall h

/-- No shared operation touches the parameters or the operand-size latch. -/
theorem SharedOp.frame {s t : State} (h : SharedOp s t) : t.cfg = s.cfg ∧ t.o16 = s.o16 := by
  cases h with
  | jump a => exact ⟨rfl, rfl⟩
  | set r v => exact ⟨State.set_cfg s r v, State.set_o16 s r v⟩
  | setCfZf c z => exact ⟨rfl, rfl⟩
  | writeLoc h => rw [writeLoc_frame h]; exact ⟨rfl, rfl⟩
  | push h => rw [push_frame h]; exact ⟨rfl, rfl⟩
  | pop h => rw [pop_frame h]; exact ⟨rfl, rfl⟩
  | pushAll h => rw [pushAll_frame h]; exact ⟨rfl, rfl⟩
  | popAll h => rw [popAll_frame h]; exact ⟨rfl, rfl⟩
  | halt => exact ⟨rfl, rfl⟩
  | syscall h => rw [syscall_frame h]; exact ⟨rfl, rfl⟩

/-- What every shared operation keeps, a chain of them keeps. -/
theorem opChain_keeps {P : State → Prop} (op : ∀ s t, SharedOp s t → P s → P t) {s t : State} (h : OpChain s t)
    (hs : P s) : P t := by
  induction h with
  | refl => exact hs
  | tail _ hop ih => exact op _ _ hop ih

/-! ### Every meaning is a chain of them -/

theorem movToReg_opChain {ref : RegRef} {l : Loc} {w : Width} {s t : State} (h : movToReg ref l w s = .ok t) :
    OpChain s t := by
  obtain ⟨v, -, rfl⟩ := movToReg_eq_ok.1 h
  exact .single (.set ref v)

theorem addToLoc_opChain {l : Loc} {w : Width} {ref : RegRef} {s t : State} (h : addToLoc l w ref s = .ok t) :
    OpChain s t := by
  obtain ⟨b, u, -, hu, rfl⟩ := addToLoc_eq_ok.1 h
  exact .tail (.single (.writeLoc hu)) (.setCfZf _ _)

theorem addToReg_opChain {ref : RegRef} {l : Loc} {w : Width} {s t : State} (h : addToReg ref l w s = .ok t) :
    OpChain s t := by
  obtain ⟨b, -, rfl⟩ := addToReg_eq_ok.1 h
  exact .tail (.single (.set ref _)) (.setCfZf _ _)

theorem group1_opChain {alu : Width → Word → Word → Word × Bool} {l : Loc} {w : Width} {imm : Word} {s t : State}
    (h : group1 alu l w imm s = .ok t) : OpChain s t := by
  obtain ⟨a, u, -, hu, rfl⟩ := group1_eq_ok.1 h
  exact .tail (.single (.writeLoc hu)) (.setCfZf _ _)

/-- A branch that is taken or not, after the operations `h`. -/
theorem opChain_ite_jump {s u : State} (h : OpChain s u) (c : Prop) [Decidable c] (a : Word) :
    OpChain s (if c then u.jump a else u) := by
  split
  · exact h.tail (.jump a)
  · exact h

theorem popInto_sharedOp (s : State) (r : Reg) (v : Word) : SharedOp s (s.popInto r v) := by
  unfold State.popInto
  split <;> exact .set _ _

/-- An instruction that is not `o16` is a chain of shared operations. -/
theorem exec_opChain {i : Instr} {s t : State} (hi : ∀ j, i ≠ .o16 j) (h : exec i s = .next t) : OpChain s t := by
  cases i with
  | o16 j => exact absurd rfl (hi j)
  | addRm8R8 | addRmR => exact addToLoc_opChain (finish_eq_next.1 h)
  | addR8Rm8 | addRRm => exact addToReg_opChain (finish_eq_next.1 h)
  | addRm8Imm8 | subRm8Imm8 | sub7Rm8Imm8 | addRmImm | subRmImm | sub7RmImm | addRm8Imm8s | subRm8Imm8s
  | sub7Rm8Imm8s | addRmImm8 | subRmImm8 | sub7RmImm8 => exact group1_opChain (finish_eq_next.1 h)
  | movRm8R8 | movRmR | movRm8Imm8 | movRmImm => exact .single (.writeLoc (finish_eq_next.1 h))
  | movR8Rm8 | movRRm => exact movToReg_opChain (finish_eq_next.1 h)
  | movR8Imm8 | movRImm | incR | decR =>
    obtain rfl := Except.ok.inj (finish_eq_next.1 h)
    exact .single (.set _ _)
  | pushR | pushImm | pushImm8 => exact .single (.push (finish_eq_next.1 h))
  | pusha => exact .single (.pushAll (finish_eq_next.1 h))
  | popa => exact .single (.popAll (finish_eq_next.1 h))
  | popR r =>
    obtain ⟨⟨v, u⟩, hu, ht⟩ := bind_eq_ok.1 (finish_eq_next.1 h)
    obtain rfl := Except.ok.inj ht
    exact .tail (.single (.pop hu)) (popInto_sharedOp u r v)
  | ret =>
    obtain ⟨⟨v, u⟩, hu, ht⟩ := bind_eq_ok.1 (finish_eq_next.1 h)
    obtain rfl := Except.ok.inj ht
    exact .tail (.single (.pop hu)) (.jump v)
  | callRel =>
    obtain ⟨u, hu, ht⟩ := bind_eq_ok.1 (finish_eq_next.1 h)
    obtain rfl := Except.ok.inj ht
    exact .tail (.single (.push hu)) (.jump _)
  | jmpRel | jmpRel8 =>
    obtain rfl := Except.ok.inj (finish_eq_next.1 h)
    exact .single (.jump _)
  | jz =>
    obtain rfl := Except.ok.inj (finish_eq_next.1 h)
    exact opChain_ite_jump .refl _ _
  | jnz =>
    obtain rfl := Except.ok.inj (finish_eq_next.1 h)
    rw [← ite_not]
    exact opChain_ite_jump .refl _ _
  | loopRel8 =>
    obtain rfl := Except.ok.inj (finish_eq_next.1 h)
    rw [← ite_not]
    exact opChain_ite_jump (.single (.set (.r32 .ecx) _)) _ _
  | nop =>
    obtain rfl := Except.ok.inj (finish_eq_next.1 h)
    exact .refl
  | hlt =>
    obtain rfl := Except.ok.inj (finish_eq_next.1 h)
    exact .single .halt
  | intImm8 id =>
    have hx := finish_eq_next.1 h
    split at hx
    · exact .single (.syscall hx)
    · cases hx

/-- A prefixed instruction that goes on ran its body, not itself `o16`, under the latch, and cleared it (R83, R84). -/
theorem exec_o16_eq_next {j : Instr} {s t : State} (h : exec (.o16 j) s = .next t) :
    (∀ k, j ≠ .o16 k) ∧ ∃ u, exec j { s with o16 := true } = .next u ∧ t = { u with o16 := false } := by
  have hj : ∀ k, j ≠ .o16 k := by
    rintro k rfl
    cases h
  have hx : clearLatch (exec j { s with o16 := true }) = .next t := execBody_eq_exec j _ hj ▸ h
  cases hu : exec j { s with o16 := true } with
  | next u =>
    rw [hu] at hx
    exact ⟨hj, u, rfl, (Outcome.next.inj hx).symm⟩
  | fault r => rw [hu] at hx; cases hx
  | refused r => rw [hu] at hx; cases hx

/-- What the latch does not bear on and every shared operation keeps, every instruction keeps, prefixed or not. -/
theorem exec_keeps {P : State → Prop} (latch : ∀ (s : State) (b : Bool), P s → P { s with o16 := b })
    (op : ∀ s t, SharedOp s t → P s → P t) {i : Instr} {s t : State} (h : exec i s = .next t) (hs : P s) : P t := by
  by_cases hi : ∃ j, i = .o16 j
  · obtain ⟨j, rfl⟩ := hi
    obtain ⟨hj, u, hu, rfl⟩ := exec_o16_eq_next h
    exact latch u false (opChain_keeps op (exec_opChain hj hu) (latch s true hs))
  · exact opChain_keeps op (exec_opChain (not_exists.1 hi) h) hs

theorem exec_keeps_sound {i : Instr} {s t : State} (h : exec i s = .next t) (hs : s.Sound) : t.Sound :=
  exec_keeps (P := State.Sound) (fun _ _ hs => hs.congr rfl rfl rfl rfl) (fun _ _ => SharedOp.keeps_sound) h hs

theorem exec_cfg {i : Instr} {s t : State} (h : exec i s = .next t) : t.cfg = s.cfg :=
  exec_keeps (P := fun u => u.cfg = s.cfg) (fun _ _ hu => hu) (fun _ _ hop hu => hop.frame.1.trans hu) h rfl

/-- A clear latch is clear again after the instruction (R38). -/
theorem exec_o16 {i : Instr} {s t : State} (h : exec i s = .next t) (hs : s.o16 = false) : t.o16 = false := by
  by_cases hi : ∃ j, i = .o16 j
  · obtain ⟨j, rfl⟩ := hi
    obtain ⟨-, u, -, rfl⟩ := exec_o16_eq_next h
    rfl
  · exact opChain_keeps (P := fun u => u.o16 = false) (fun _ _ hop hu => hop.frame.2.trans hu)
      (exec_opChain (not_exists.1 hi) h) hs

end Sys2Proof.Machine

namespace Sys2Proof.Proofs

open Sys2Proof.Machine

/-- Settles O15: a chain of shared operations keeps soundness, and the latch is clear after every instruction. -/
theorem everyStepKeepsTheInvariant : Obligations.EveryStepKeepsTheInvariant := by
  intro s t hs h
  obtain ⟨-, i, ip, -, hx⟩ := step_eq_next.1 h
  obtain ⟨hsound, -⟩ := s.inv_iff.1 hs
  have hfetched : (s.fetched ip).Sound := hsound.congr rfl rfl rfl rfl
  exact t.inv_iff.2 ⟨exec_keeps_sound hx hfetched, exec_o16 hx rfl⟩

/-- Settles O60: neither the fetch nor any shared operation touches the parameters. -/
theorem stepsKeepTheParameters : Obligations.StepsKeepTheParameters := by
  intro s t h
  obtain ⟨-, i, ip, -, hx⟩ := step_eq_next.1 h
  calc t.cfg = (s.fetched ip).cfg := exec_cfg hx
    _ = s.cfg := rfl

/-- Settles O6: the step's own equation where the fetch decodes. -/
theorem stepRunsTheDecodedInstruction : Obligations.StepRunsTheDecodedInstruction :=
  fun _ _ _ hs hd => step_of_decodeHere hs hd

/-- Settles O12: by the equations of `step` and `settle` for a stopped, a failing and a continuing state. -/
theorem stoppedStatesDoNotStep : Obligations.StoppedStatesDoNotStep := by
  intro s
  refine ⟨fun hs => ⟨step_of_not_running hs, settle_of_not_running hs⟩, ?_, fun t => settle_of_next⟩
  intro r hs h
  rw [settle_of_fault hs h]

end Sys2Proof.Proofs
end

section
/-! Proofs of the statements on 10_state.md: what views and flags show after a write (R22 to R24, R32), which parts of
the state an instruction may change (R26, R28, R33), and the state a run starts in (R41). -/

namespace Sys2Proof.Machine

open Sys2Proof.Claims

/-! ### Views as shifts and masks (R22, R23) -/

/-- A view is its slot shifted to the view's first bit and cut to its width. -/
theorem State.get_eq_trunc (s : State) (r : RegRef) : s.get r = r.width.trunc (s.reg r.slot >>> r.start) := by
  apply BitVec.eq_of_getLsbD_eq
  intro i _
  rw [State.getLsbD_get, ← BitVec.testBit_toNat (r.width.trunc _), Width.toNat_trunc, Nat.testBit_mod_two_pow,
    BitVec.testBit_toNat, BitVec.getLsbD_ushiftRight]

theorem trunc_w8_eq_and (v : Word) : Width.w8.trunc v = v &&& 0xFF := by
  apply BitVec.eq_of_toNat_eq
  rw [Width.toNat_trunc, BitVec.toNat_and]
  exact (Nat.and_two_pow_sub_one_eq_mod v.toNat 8).symm

theorem trunc_w16_eq_and (v : Word) : Width.w16.trunc v = v &&& 0xFFFF := by
  apply BitVec.eq_of_toNat_eq
  rw [Width.toNat_trunc, BitVec.toNat_and]
  exact (Nat.and_two_pow_sub_one_eq_mod v.toNat 16).symm

theorem State.get_r8 (s : State) (r : Reg8) :
    s.get (.r8 r) = (s.reg r.slot >>> if r.isHigh then 8 else 0) &&& 0xFF :=
  (s.get_eq_trunc (.r8 r)).trans (trunc_w8_eq_and _)

/-- The 8-bit selectors 0 to 3 name the low bytes of slots 0 to 3. -/
theorem Reg8.ofSel_low : ∀ i : BitVec 3, i.toNat ≤ 3 →
    (Reg8.ofSel i).slot = Reg.ofSel i ∧ (Reg8.ofSel i).isHigh = false := by decide

/-- The 8-bit selectors 4 to 7 name the second bytes of slots 0 to 3. -/
theorem Reg8.ofSel_high : ∀ i : BitVec 3, ¬ i.toNat ≤ 3 →
    (Reg8.ofSel i).slot = Reg.ofSel (i - 4) ∧ (Reg8.ofSel i).isHigh = true := by decide

/-! ### Fetching past the store (R29, R56) -/

theorem State.fetch_eq_none {s : State} {a : Word} {w : Width} (h : s.cfg.memSize < a.toNat + w.bytes) :
    s.fetch a w = none := by
  simp only [State.fetch, memRead_eq_error.2 ⟨h, rfl⟩]

theorem decode_of_fetch_eq_none {f : Fetch} {ip : Word} (h : f ip .w8 = none) :
    decode f ip = .error (.outOfBounds ip none) := by
  have hb : fetchByte f ip none = .error (.outOfBounds ip none) := by
    simp only [fetchByte, fetchAt, h, error_bind]
  rw [decode, hb, error_bind]

/-! ### What an operation may change (R26, R28, R33) -/

/-- From `s` to `t` at most the general-purpose slots `slots` change, the flags slot only if `flags` allows it, and IP
only if `ip` does. -/
structure ChangesOnly (slots : List Reg) (flags ip : Bool) (s t : State) : Prop where
  reg_eq : ∀ r, r ∉ slots → t.reg r = s.reg r
  flags_eq : flags = false → t.flags = s.flags
  ip_eq : ip = false → t.ip = s.ip

/-- The slot a location's write may change. -/
def Loc.slots : Loc → List Reg
  | .reg r => [r.slot]
  | .mem _ => []

theorem State.slots_loc8 (s : State) (rm : RM Reg8) : (s.loc8 rm).slots = rmSlot8 rm := by
  cases rm <;> rfl

theorem State.slots_locW (s : State) (rm : RM Reg) : (s.locW rm).slots = rmSlot rm := by
  cases rm with
  | reg r => exact congrArg (fun q => [q]) (s.wideRef_slot r)
  | mem a => rfl

theorem State.wideRef_slot_mem (s : State) (r : Reg) : (s.wideRef r).slot ∈ [r] :=
  List.mem_singleton.2 (s.wideRef_slot r)

section
variable {slots : List Reg} {fl ip : Bool} {s t u : State}

theorem ChangesOnly.refl (s : State) : ChangesOnly slots fl ip s s :=
  ⟨fun _ _ => rfl, fun _ => rfl, fun _ => rfl⟩

theorem ChangesOnly.trans (h : ChangesOnly slots fl ip s t) (h' : ChangesOnly slots fl ip t u) :
    ChangesOnly slots fl ip s u where
  reg_eq r hr := (h'.reg_eq r hr).trans (h.reg_eq r hr)
  flags_eq hf := (h'.flags_eq hf).trans (h.flags_eq hf)
  ip_eq hi := (h'.ip_eq hi).trans (h.ip_eq hi)

theorem set_changesOnly {ref : RegRef} (h : ref.slot ∈ slots) (s : State) (v : Word) :
    ChangesOnly slots fl ip s (s.set ref v) where
  reg_eq _ hr := s.reg_set_of_ne ref v fun heq => hr (heq ▸ h)
  flags_eq _ := s.set_flags ref v
  ip_eq _ := s.set_ip ref v

theorem setCfZf_changesOnly (s : State) (c z : Bool) : ChangesOnly slots true ip s (s.setCfZf c z) where
  reg_eq _ _ := rfl
  flags_eq h := nomatch h
  ip_eq _ := rfl

theorem jump_changesOnly (s : State) (a : Word) : ChangesOnly slots fl true s (s.jump a) where
  reg_eq _ _ := rfl
  flags_eq _ := rfl
  ip_eq h := nomatch h

theorem ite_jump_changesOnly (h : ChangesOnly slots fl true s u) (c : Prop) [Decidable c] (a : Word) :
    ChangesOnly slots fl true s (if c then u.jump a else u) := by
  split
  · exact h.trans (jump_changesOnly u a)
  · exact h

theorem writeLoc_changesOnly {l : Loc} {w : Width} {v : Word} (hl : l.slots = slots) (h : writeLoc l w v s = .ok t) :
    ChangesOnly slots fl ip s t := by
  subst hl
  rw [writeLoc_eq_ok] at h
  cases l with
  | reg r =>
    subst h
    exact set_changesOnly (List.mem_singleton_self _) s v
  | mem a =>
    obtain ⟨-, rfl⟩ := h
    exact ⟨fun _ _ => rfl, fun _ => rfl, fun _ => rfl⟩

theorem push_changesOnly {v : Word} (hesp : .esp ∈ slots) (h : push v s = .ok t) : ChangesOnly slots fl ip s t := by
  obtain ⟨-, rfl⟩ := push_eq_ok.1 h
  exact ⟨fun r hr => s.regs.get_set_of_ne _ fun heq => hr (heq ▸ hesp), fun _ => rfl, fun _ => rfl⟩

theorem pop_changesOnly {v : Word} (hesp : .esp ∈ slots) (h : pop s = .ok (v, t)) : ChangesOnly slots fl ip s t := by
  obtain ⟨-, -, rfl⟩ := pop_eq_ok.1 h
  exact set_changesOnly (ref := .r32 .esp) hesp s _

theorem popInto_changesOnly {r : Reg} (hr : r ∈ slots) (s : State) (v : Word) :
    ChangesOnly slots fl ip s (s.popInto r v) := by
  have hset (q : Reg) (hq : q ∈ slots) (x : Word) : ChangesOnly slots fl ip s (s.set (s.wideRef q) x) :=
    set_changesOnly ((s.wideRef_slot q).symm ▸ hq) s x
  unfold State.popInto
  split
  · next h => exact hset .esp (h.1 ▸ hr) _
  · exact hset r hr v

theorem pushAll_changesOnly {esp0 : Word} {rs : List Reg} (hesp : .esp ∈ slots) (h : pushAll esp0 rs s = .ok t) :
    ChangesOnly slots fl ip s t := by
  induction rs generalizing s with
  | nil =>
    obtain rfl := Except.ok.inj h
    exact .refl s
  | cons r rs ih =>
    obtain ⟨u, hu, hr⟩ := bind_eq_ok.1 h
    exact (push_changesOnly hesp hu).trans (ih hr)

/-- POPA's pops may reach every slot. -/
theorem popAll_changesOnly {rs : List Reg} (hall : ∀ r, r ∈ slots) (h : popAll rs s = .ok t) :
    ChangesOnly slots fl ip s t where
  reg_eq r hr := absurd (hall r) hr
  flags_eq _ := by rw [popAll_frame h]
  ip_eq _ := by rw [popAll_frame h]

theorem drawEax_reg_of_ne (s : State) {r : Reg} (hr : r ≠ .eax) : s.drawEax.reg r = s.reg r :=
  s.regs.get_set_of_ne _ hr

/-- A syscall changes no slot but EAX (44_system.md R230). -/
theorem syscall_reg_of_ne {r : Reg} (hr : r ≠ .eax) (h : syscall s = .ok t) : t.reg r = s.reg r := by
  simp only [syscall] at h
  split at h
  · rw [sysExit_eq_ok.1 h]
    rfl
  · split at h
    · obtain ⟨u, hu, rfl⟩ := sysRead_eq_ok.1 h
      rw [drawEax_reg_of_ne u hr, (blockWrite_eq_ok.1 hu).2, inLine_frame]
      rfl
    · split at h
      · rw [(sysWrite_eq_ok.1 h).2, drawEax_reg_of_ne _ hr]
        rfl
      · cases h

theorem syscall_changesOnly (heax : .eax ∈ slots) (h : syscall s = .ok t) : ChangesOnly slots fl ip s t where
  reg_eq _ hr := syscall_reg_of_ne (fun heq => hr (heq ▸ heax)) h
  flags_eq _ := by rw [syscall_frame h]
  ip_eq _ := by rw [syscall_frame h]

theorem movToReg_changesOnly {ref : RegRef} {l : Loc} {w : Width} (hr : ref.slot ∈ slots)
    (h : movToReg ref l w s = .ok t) : ChangesOnly slots fl ip s t := by
  obtain ⟨v, -, rfl⟩ := movToReg_eq_ok.1 h
  exact set_changesOnly hr s v

theorem addToLoc_changesOnly {l : Loc} {w : Width} {ref : RegRef} (hl : l.slots = slots)
    (h : addToLoc l w ref s = .ok t) : ChangesOnly slots true ip s t := by
  obtain ⟨b, u, -, hu, rfl⟩ := addToLoc_eq_ok.1 h
  exact (writeLoc_changesOnly hl hu).trans (setCfZf_changesOnly u _ _)

theorem addToReg_changesOnly {ref : RegRef} {l : Loc} {w : Width} (hr : ref.slot ∈ slots)
    (h : addToReg ref l w s = .ok t) : ChangesOnly slots true ip s t := by
  obtain ⟨b, -, rfl⟩ := addToReg_eq_ok.1 h
  exact (set_changesOnly hr s _).trans (setCfZf_changesOnly _ _ _)

theorem group1_changesOnly {alu : Width → Word → Word → Word × Bool} {l : Loc} {w : Width} {imm : Word}
    (hl : l.slots = slots) (h : group1 alu l w imm s = .ok t) : ChangesOnly slots true ip s t := by
  obtain ⟨a, u, -, hu, rfl⟩ := group1_eq_ok.1 h
  exact (writeLoc_changesOnly hl hu).trans (setCfZf_changesOnly u _ _)

end

/-! ### What an instruction may change -/

/-- An instruction that is not `o16` changes its named slots, the flags if it is ADD or SUB, and IP if it is a control
transfer. -/
theorem exec_changesOnly {i : Instr} {s t : State} (hi : ∀ j, i ≠ .o16 j) (h : exec i s = .next t) :
    ChangesOnly (writtenSlots i) (writesFlags i) (transfers i) s t := by
  cases i with
  | o16 j => exact absurd rfl (hi j)
  | addRm8R8 rm => exact addToLoc_changesOnly (s.slots_loc8 rm) (finish_eq_next.1 h)
  | addRmR rm => exact addToLoc_changesOnly (s.slots_locW rm) (finish_eq_next.1 h)
  | addR8Rm8 => exact addToReg_changesOnly (List.mem_singleton_self _) (finish_eq_next.1 h)
  | addRRm r => exact addToReg_changesOnly (s.wideRef_slot_mem r) (finish_eq_next.1 h)
  | addRm8Imm8 rm | subRm8Imm8 rm | sub7Rm8Imm8 rm | addRm8Imm8s rm | subRm8Imm8s rm | sub7Rm8Imm8s rm =>
    exact group1_changesOnly (s.slots_loc8 rm) (finish_eq_next.1 h)
  | addRmImm rm | subRmImm rm | sub7RmImm rm | addRmImm8 rm | subRmImm8 rm | sub7RmImm8 rm =>
    exact group1_changesOnly (s.slots_locW rm) (finish_eq_next.1 h)
  | movRm8R8 rm | movRm8Imm8 rm => exact writeLoc_changesOnly (s.slots_loc8 rm) (finish_eq_next.1 h)
  | movRmR rm | movRmImm rm => exact writeLoc_changesOnly (s.slots_locW rm) (finish_eq_next.1 h)
  | movR8Rm8 => exact movToReg_changesOnly (List.mem_singleton_self _) (finish_eq_next.1 h)
  | movRRm r => exact movToReg_changesOnly (s.wideRef_slot_mem r) (finish_eq_next.1 h)
  | movR8Imm8 r =>
    obtain rfl := Except.ok.inj (finish_eq_next.1 h)
    exact set_changesOnly (ref := .r8 r) (List.mem_singleton_self r.slot) s _
  | movRImm r | incR r | decR r =>
    obtain rfl := Except.ok.inj (finish_eq_next.1 h)
    exact set_changesOnly (s.wideRef_slot_mem r) s _
  | pushR | pushImm | pushImm8 => exact push_changesOnly (List.mem_singleton_self _) (finish_eq_next.1 h)
  | pusha => exact pushAll_changesOnly (List.mem_singleton_self _) (finish_eq_next.1 h)
  | popa =>
    have hall (r : Reg) : r ∈ writtenSlots .popa := by cases r <;> decide
    exact popAll_changesOnly hall (finish_eq_next.1 h)
  | popR r =>
    obtain ⟨⟨v, u⟩, hu, ht⟩ := bind_eq_ok.1 (finish_eq_next.1 h)
    obtain rfl := Except.ok.inj ht
    have hr : r ∈ writtenSlots (.popR r) := List.mem_cons_of_mem _ (List.mem_singleton_self r)
    exact (pop_changesOnly List.mem_cons_self hu).trans (popInto_changesOnly hr u v)
  | ret =>
    obtain ⟨⟨v, u⟩, hu, ht⟩ := bind_eq_ok.1 (finish_eq_next.1 h)
    obtain rfl := Except.ok.inj ht
    exact (pop_changesOnly (List.mem_singleton_self _) hu).trans (jump_changesOnly u v)
  | callRel =>
    obtain ⟨u, hu, ht⟩ := bind_eq_ok.1 (finish_eq_next.1 h)
    obtain rfl := Except.ok.inj ht
    exact (push_changesOnly (List.mem_singleton_self _) hu).trans (jump_changesOnly u _)
  | jmpRel | jmpRel8 =>
    obtain rfl := Except.ok.inj (finish_eq_next.1 h)
    exact jump_changesOnly s _
  | jz =>
    obtain rfl := Except.ok.inj (finish_eq_next.1 h)
    exact ite_jump_changesOnly (.refl s) _ _
  | jnz =>
    obtain rfl := Except.ok.inj (finish_eq_next.1 h)
    rw [← ite_not]
    exact ite_jump_changesOnly (.refl s) _ _
  | loopRel8 =>
    obtain rfl := Except.ok.inj (finish_eq_next.1 h)
    rw [← ite_not]
    exact ite_jump_changesOnly (set_changesOnly (ref := .r32 .ecx) (List.mem_singleton_self _) s _) _ _
  | nop =>
    obtain rfl := Except.ok.inj (finish_eq_next.1 h)
    exact .refl s
  | hlt =>
    obtain rfl := Except.ok.inj (finish_eq_next.1 h)
    exact ⟨fun _ _ => rfl, fun _ => rfl, fun _ => rfl⟩
  | intImm8 id =>
    have hx := finish_eq_next.1 h
    split at hx
    · exact syscall_changesOnly (List.mem_singleton_self _) hx
    · cases hx

theorem body_of_ne_o16 {i : Instr} (hi : ∀ j, i ≠ .o16 j) : body i = i := by
  cases i with
  | o16 j => exact absurd rfl (hi j)
  | _ => rfl

/-- A prefixed instruction changes no more than its body may. -/
theorem exec_changesOnly_body {i : Instr} {s t : State} (h : exec i s = .next t) :
    ChangesOnly (writtenSlots (body i)) (writesFlags (body i)) (transfers (body i)) s t := by
  by_cases hi : ∃ j, i = .o16 j
  · obtain ⟨j, rfl⟩ := hi
    obtain ⟨hj, u, hu, rfl⟩ := exec_o16_eq_next h
    obtain ⟨hreg, hflags, hip⟩ := exec_changesOnly hj hu
    exact ⟨hreg, hflags, hip⟩
  · rw [body_of_ne_o16 (not_exists.1 hi)]
    exact exec_changesOnly (not_exists.1 hi) h

end Sys2Proof.Machine

namespace Sys2Proof.Proofs

open Sys2Proof.Machine Sys2Proof.Claims

/-- Settles O17: a view is its slot, shifted and cut; the selector decides the slot and the shift. -/
theorem viewsShowTheirBits : Obligations.ViewsShowTheirBits := by
  intro s i
  refine ⟨rfl, ?_, fun is16 => ?_⟩
  · exact (s.get_eq_trunc _).trans (trunc_w16_eq_and _)
  · refine (s.get_r8 (Reg8.ofSel i)).trans ?_
    by_cases hlow : i.toNat ≤ 3
    · obtain ⟨hslot, hhigh⟩ := Reg8.ofSel_low i hlow
      rw [if_pos hlow, hslot, hhigh]
      rfl
    · obtain ⟨hslot, hhigh⟩ := Reg8.ofSel_high i hlow
      rw [if_neg hlow, hslot, hhigh]
      rfl

/-- Settles O18: the view reads back cut to its width, and bit by bit nothing else moved. -/
theorem viewWritesDisturbNothingElse : Obligations.ViewWritesDisturbNothingElse := by
  intro s r v
  refine ⟨?_, fun i hi => ?_, fun q hq => s.reg_set_of_ne r v hq, s.set_eq r v⟩
  · rw [State.get_set_self, Width.toNat_trunc]
    rfl
  · by_cases h32 : i < 32
    · rw [State.getLsbD_set s r v i h32]
      exact if_neg hi
    · rw [BitVec.getLsbD_of_ge _ i (Nat.le_of_not_lt h32), BitVec.getLsbD_of_ge _ i (Nat.le_of_not_lt h32)]

/-- Settles O22: by what `putBit` leaves in each bit. -/
theorem setFlagWritesOneBit : Obligations.SetFlagWritesOneBit := by
  intro s f b
  have hpos : f.pos < 32 := by cases f <;> decide
  have hbit (i : Nat) : (s.setFlag f b).flags.getLsbD i = if i = f.pos then b else s.flags.getLsbD i :=
    getLsbD_putBit s.flags f.pos b i hpos
  exact ⟨(hbit f.pos).trans (if_pos rfl), fun i hi => (hbit i).trans (if_neg hi), rfl⟩

/-- Settles O56: by what an instruction may change. -/
theorem onlyAddAndSubWriteFlags : Obligations.OnlyAddAndSubWriteFlags :=
  fun _ _ _ h => (exec_changesOnly_body h).flags_eq

/-- Settles O57: by what an instruction may change. -/
theorem onlyNamedSlotsAreWritten : Obligations.OnlyNamedSlotsAreWritten :=
  fun _ _ _ r h => (exec_changesOnly_body h).reg_eq r

/-- Settles O58: by what an instruction may change. -/
theorem onlyTransfersWriteIp : Obligations.OnlyTransfersWriteIp :=
  fun _ _ _ h => (exec_changesOnly_body h).ip_eq

/-- Settles O9: the fetch of the opcode byte fails, and with it the decoding. -/
theorem fetchPastTheStoreFails : Obligations.FetchPastTheStoreFails := by
  intro s hs hip
  have hfetch : s.fetch s.ip .w8 = none := State.fetch_eq_none (Nat.lt_succ_of_le hip)
  exact step_of_decodeHere_error hs (decode_of_fetch_eq_none hfetch)

/-- Settles O13: every slot but ESP is literally 0 in the launch state, and the other fields are the launch's. -/
theorem launchLeavesTheResetValues : Obligations.LaunchLeavesTheResetValues := by
  intro cfg m entry esp input
  refine ⟨fun r hr => ?_, rfl, rfl, rfl, rfl, rfl, rfl, rfl⟩
  cases r with
  | esp => exact absurd rfl hr
  | _ => rfl

/-- Settles O14: the store and the input are empty, the flags and the latch clear, and 2^32 is a legal size. -/
theorem resetMeetsTheInvariant : Obligations.ResetMeetsTheInvariant where
  cfg_wf := by decide
  mem_wf := by decide
  mem_within := by decide
  reserved_zero := by decide
  latch_clear := rfl
  input_wf := by decide

end Sys2Proof.Proofs
end

section
/-! Proofs of the statements on 20_memory.md: what a scalar access reads, stores and leaves unchanged (R53, R54), when
it fails (R56), what a fetch sees after a store (R63), and when an instruction with a memory operand fails (R68). -/

namespace Sys2Proof.Machine

open Sys2Proof.Claims

/-! ### Reading and storing (R53, R54, R63) -/

/-- A loaded word has the value of its bytes. -/
theorem toNat_leWord_bytes_eq_storeValue (m : Memory) (a : Nat) (w : Width) :
    (leWord (m.bytes a w.bytes)).toNat = storeValue m a w.bytes :=
  (toNat_leWord_bytes m a w).trans (leNat_bytes m a w.bytes)

/-- Writing the little-endian bytes of a value stores its low bytes and no other. -/
theorem stored_writeBytes_leBytes {s : State} (h : s.mem.wf) (a n v : Nat) :
    Stored s { s with mem := s.mem.writeBytes a (leBytes n v) } a n v := by
  refine ⟨fun k hk => ?_, fun x hx => ?_⟩
  · dsimp only
    rw [Memory.read_writeBytes h, length_leBytes, if_pos (by omega), Nat.add_sub_cancel_left, getD_leBytes n v k hk]
  · dsimp only
    rw [Memory.read_writeBytes h, length_leBytes, if_neg (by omega)]

/-- A scalar that was written reads back cut to its width. -/
theorem memRead_of_memWrite {s t : State} {a : Word} {w : Width} {v : Word} (hm : s.mem.wf)
    (h : memWrite a w v s = .ok t) : memRead t a w = .ok (w.trunc v) := by
  obtain ⟨hin, rfl⟩ := memWrite_eq_ok.1 h
  exact memRead_eq_ok.2 ⟨hin, (leWord_bytes_writeBytes hm a.toNat w v).symm⟩

theorem State.fetch_of_memRead {s : State} {a : Word} {w : Width} {v : Word} (h : memRead s a w = .ok v) :
    s.fetch a w = some v := by
  simp only [State.fetch, h]

/-! ### Failing at an address (R56) -/

/-- The operation fails exactly when `w.bytes` bytes from `a` pass the end of the store, and then with `a`. -/
def FailsPastEnd {α : Type} (s : State) (a : Word) (w : Width) (x : Except Fault α) : Prop :=
  ∀ r, x = .error r ↔ s.cfg.memSize < a.toNat + w.bytes ∧ r = .outOfBounds a

section
variable {s : State} {a : Word} {w : Width}

theorem memRead_failsPastEnd : FailsPastEnd s a w (memRead s a w) := fun _ => memRead_eq_error

theorem memWrite_failsPastEnd {v : Word} : FailsPastEnd s a w (memWrite a w v s) := fun _ => memWrite_eq_error

/-- What comes after the access adds no failure, if it fails for the same reason or not at all. -/
theorem FailsPastEnd.bind {α β : Type} {x : Except Fault α} {f : α → Except Fault β} (hx : FailsPastEnd s a w x)
    (hf : ∀ v r, f v = .error r → s.cfg.memSize < a.toNat + w.bytes ∧ r = .outOfBounds a) :
    FailsPastEnd s a w (x >>= f) := by
  intro r
  cases x with
  | ok v =>
    have hin : ¬ s.cfg.memSize < a.toNat + w.bytes := fun hlt => nomatch (hx _).2 ⟨hlt, rfl⟩
    exact ⟨hf v r, fun h => absurd h.1 hin⟩
  | error e => simpa only [error_bind, Except.error.injEq] using hx r

/-- The operand is read and nothing after it can fail. -/
theorem movToReg_failsPastEnd {ref : RegRef} : FailsPastEnd s a w (movToReg ref (.mem a) w s) :=
  memRead_failsPastEnd.bind (by nofun)

theorem addToReg_failsPastEnd {ref : RegRef} : FailsPastEnd s a w (addToReg ref (.mem a) w s) :=
  memRead_failsPastEnd.bind (by nofun)

/-- The operand is read, then written back at the same address and width. -/
theorem addToLoc_failsPastEnd {ref : RegRef} : FailsPastEnd s a w (addToLoc (.mem a) w ref s) :=
  memRead_failsPastEnd.bind fun _ r => (memWrite_failsPastEnd.bind (by nofun) r).1

theorem group1_failsPastEnd {alu : Width → Word → Word → Word × Bool} {imm : Word} :
    FailsPastEnd s a w (group1 alu (.mem a) w imm s) :=
  memRead_failsPastEnd.bind fun _ r => (memWrite_failsPastEnd.bind (by nofun) r).1

theorem FailsPastEnd.finish_eq_fault {x : Except Fault State} (hx : FailsPastEnd s a w x) (r : Fault) :
    finish x = .fault r ↔ s.cfg.memSize < a.toNat + w.bytes ∧ r = .outOfBounds a :=
  Machine.finish_eq_fault.trans (hx r)

end

/-- An instruction with a memory operand has no failure but that operand's. In each group `h` rules out the register
form and fixes the address and width of the memory form. -/
theorem exec_eq_fault_of_memOperand {i : Instr} {s : State} {a : Word} {w : Width}
    (h : memOperand s i = some (a, w)) (r : Fault) :
    exec i s = .fault r ↔ s.cfg.memSize < a.toNat + w.bytes ∧ r = .outOfBounds a := by
  cases i with
  | movRm8R8 rm | movRmR rm | movRm8Imm8 rm | movRmImm rm =>
    cases rm <;> cases h
    exact memWrite_failsPastEnd.finish_eq_fault r
  | movR8Rm8 _ rm | movRRm _ rm =>
    cases rm <;> cases h
    exact movToReg_failsPastEnd.finish_eq_fault r
  | addR8Rm8 _ rm | addRRm _ rm =>
    cases rm <;> cases h
    exact addToReg_failsPastEnd.finish_eq_fault r
  | addRm8R8 rm | addRmR rm =>
    cases rm <;> cases h
    exact addToLoc_failsPastEnd.finish_eq_fault r
  | addRm8Imm8 rm | subRm8Imm8 rm | sub7Rm8Imm8 rm | addRmImm rm | subRmImm rm | sub7RmImm rm | addRm8Imm8s rm
  | subRm8Imm8s rm | sub7Rm8Imm8s rm | addRmImm8 rm | subRmImm8 rm | sub7RmImm8 rm =>
    cases rm <;> cases h
    exact group1_failsPastEnd.finish_eq_fault r
  | _ => cases h

end Sys2Proof.Machine

namespace Sys2Proof.Proofs

open Sys2Proof.Machine Sys2Proof.Claims

/-- Settles O19: the access's own two cases, and the value of the loaded bytes as the sum of R53. -/
theorem memReadIsLittleEndian : Obligations.MemReadIsLittleEndian := by
  intro s a w
  refine ⟨fun hin => ?_, fun hpast => memRead_eq_error.2 ⟨hpast, rfl⟩⟩
  exact ⟨_, memRead_eq_ok.2 ⟨hin, rfl⟩, toNat_leWord_bytes_eq_storeValue s.mem a.toNat w⟩

/-- Settles O20: the access's own two cases, and what writing little-endian bytes stores. -/
theorem memWriteStoresTheLowBytes : Obligations.MemWriteStoresTheLowBytes := by
  intro s a w v hm
  refine ⟨fun hin => ?_, fun hpast => memWrite_eq_error.2 ⟨hpast, rfl⟩⟩
  exact ⟨_, memWrite_eq_ok.2 ⟨hin, rfl⟩, stored_writeBytes_leBytes hm a.toNat w.bytes v.toNat, rfl⟩

/-- Settles O21: a fetch is a read, and a read gives back the scalar cut to its width. -/
theorem fetchSeesTheLastStore : Obligations.FetchSeesTheLastStore :=
  fun _ _ _ w v hm h => ⟨w.trunc v, State.fetch_of_memRead (memRead_of_memWrite hm h), Width.toNat_trunc w v⟩

/-- Settles O31: the operand's failure is the instruction's only one. -/
theorem memoryOperandsFailOnlyPastTheStore : Obligations.MemoryOperandsFailOnlyPastTheStore := by
  intro i s a w h
  rw [exec_eq_fault_of_memOperand h]
  exact (and_iff_left rfl).symm

end Sys2Proof.Proofs
end

section
/-! Proofs of the statements on 30_encoding.md: decoding and encoding are inverse to each other (R81 to R96), the
decoder's memory operand is the pseudocode's (R89, R102), the step runs the stored instruction (R80 to R83), and what
an instruction means after 66 (R83, R104). -/

namespace Sys2Proof

open Sys2Proof.Machine (ok_bind bind_eq_ok)

/-! ### The opcode byte of a handler (R86, R96) -/

/-- The opcode byte that selects a handler with its sub-variant bits. -/
def Op.byte : Op → Byte
  | .add false false => 0x00
  | .add false true => 0x01
  | .add true false => 0x02
  | .add true true => 0x03
  | .inc r => opcodeReg 0x40 r.sel
  | .dec r => opcodeReg 0x48 r.sel
  | .push r => opcodeReg 0x50 r.sel
  | .pop r => opcodeReg 0x58 r.sel
  | .pusha => 0x60
  | .popa => 0x61
  | .pushImm => 0x68
  | .pushImm8 => 0x6A
  | .jcc false => 0x74
  | .jcc true => 0x75
  | .group1 false false => 0x80
  | .group1 false true => 0x81
  | .group1 true false => 0x82
  | .group1 true true => 0x83
  | .mov false false => 0x88
  | .mov false true => 0x89
  | .mov true false => 0x8A
  | .mov true true => 0x8B
  | .nop => 0x90
  | .movImm8 r => opcodeReg 0xB0 r.sel
  | .movImm r => opcodeReg 0xB8 r.sel
  | .ret => 0xC3
  | .movRmImm false => 0xC6
  | .movRmImm true => 0xC7
  | .int => 0xCD
  | .loop => 0xE2
  | .call => 0xE8
  | .jmp => 0xE9
  | .jmpShort => 0xEB
  | .hlt => 0xF4

/-- The dispatch table finds a handler under its opcode byte. -/
theorem opOf_byte (op : Op) : opOf op.byte = some op := by
  cases op with
  | add d w | group1 d w | mov d w => cases d <;> cases w <;> rfl
  | jcc b | movRmImm b => cases b <;> rfl
  | inc r | dec r | push r | pop r | movImm8 r | movImm r => cases r <;> rfl
  | _ => rfl

/-- The dispatch table names a handler under no other byte, by inspection of all 256. -/
theorem eq_byte_of_opOf {b : Byte} {op : Op} (h : opOf b = some op) : b = op.byte := by
  have hall : ∀ b : Byte, (opOf b).all (fun op => b == op.byte) = true := by decide
  simpa [h] using hall b

theorem byte_ne_66 (op : Op) : op.byte ≠ 0x66 := by
  intro h
  have hop := opOf_byte op
  rw [h] at hop
  cases hop

theorem decodeOpcode_byte (o16 : Bool) (op : Op) (f : Fetch) (ip : Word) :
    decodeOpcode o16 op.byte f ip = decodeOp o16 op.byte op f ip := by
  rw [decodeOpcode, opOf_byte]

/-! ### The group 80-83 (R147) -/

/-- The sub-opcode that selects an operation of the group. -/
def SubOp.sel : SubOp → BitVec 3
  | .add => 0
  | .sub => 5
  | .sub7 => 7

theorem subOpOf_sel (op : SubOp) : subOpOf op.sel = some op := by cases op <;> rfl

theorem eq_sel_of_subOpOf {i : BitVec 3} {op : SubOp} (h : subOpOf i = some op) : i = op.sel := by
  have hall : ∀ i : BitVec 3, (subOpOf i).all (fun op => i == op.sel) = true := by decide
  simpa [h] using hall i

/-- The instruction 80 (`s` false) or 82 (`s` true) with its sub-opcode. -/
def SubOp.rm8Imm8 : SubOp → Bool → RM Reg8 → Byte → Instr
  | .add, false => .addRm8Imm8
  | .sub, false => .subRm8Imm8
  | .sub7, false => .sub7Rm8Imm8
  | .add, true => .addRm8Imm8s
  | .sub, true => .subRm8Imm8s
  | .sub7, true => .sub7Rm8Imm8s

/-- The instruction 81 with its sub-opcode. -/
def SubOp.rmImm : SubOp → RM Reg → Word → Instr
  | .add => .addRmImm
  | .sub => .subRmImm
  | .sub7 => .sub7RmImm

/-- The instruction 83 with its sub-opcode. -/
def SubOp.rmImm8 : SubOp → RM Reg → Byte → Instr
  | .add => .addRmImm8
  | .sub => .subRmImm8
  | .sub7 => .sub7RmImm8

section
variable {o16 s : Bool} {op : SubOp} {rm : RM Reg} {rm8 : RM Reg8} {imm : Byte} {immW : Word}

theorem encodeBody_rm8Imm8 : encodeBody o16 (op.rm8Imm8 s rm8 imm) =
    (Op.group1 s false).byte :: (rm8.encode Reg8.sel op.sel ++ [imm]) := by
  cases op <;> cases s <;> rfl

theorem encodeBody_rmImm : encodeBody o16 (op.rmImm rm immW) =
    (Op.group1 false true).byte :: (rm.encode Reg.sel op.sel ++ encodeImm o16 immW) := by
  cases op <;> rfl

theorem encodeBody_rmImm8 : encodeBody o16 (op.rmImm8 rm imm) =
    (Op.group1 true true).byte :: (rm.encode Reg.sel op.sel ++ [imm]) := by
  cases op <;> rfl

theorem fits_rm8Imm8 : (op.rm8Imm8 s rm8 imm).fits o16 = rm8.wf := by
  cases op <;> cases s <;> rfl

theorem fits_rmImm : (op.rmImm rm immW).fits o16 = (rm.wf && immFits o16 immW) := by
  cases op <;> rfl

theorem fits_rmImm8 : (op.rmImm8 rm imm).fits o16 = rm.wf := by
  cases op <;> rfl

end

/-! ### Decoding what the fetch supplies of an encoding -/

section
variable {f : Fetch} {ip : Word} {o16 : Bool}

theorem add_ofNat_add (ip : Word) (m n : Nat) :
    ip + BitVec.ofNat 32 m + BitVec.ofNat 32 n = ip + BitVec.ofNat 32 (m + n) := by
  rw [BitVec.add_assoc, ← BitVec.ofNat_add]

theorem add_one_add_ofNat (ip : Word) (n : Nat) : ip + 1 + BitVec.ofNat 32 n = ip + BitVec.ofNat 32 (n + 1) :=
  (add_ofNat_add ip 1 n).trans (by rw [Nat.add_comm])

theorem fetchImm_encode {imm : Word} (hfits : immFits o16 imm = true) (h : Supplies f ip (encodeImm o16 imm))
    (r : Option (Addr × Width)) :
    fetchAt f (immWidth o16) ip r = .ok (imm, ip + BitVec.ofNat 32 (encodeImm o16 imm).length) := by
  rw [encodeImm, length_leBytes]
  exact fetchAt_leBytes (rest := []) (by rwa [List.append_nil]) (trunc_of_immFits hfits) r

theorem decodeByteForm_supplied {mk : Byte → Instr} {v : Byte} (h : Supplies f ip [v]) :
    decodeByteForm mk f ip = .ok (mk v, ip + 1) := by
  rw [decodeByteForm, fetchByte_supplied h, ok_bind]
  rfl

theorem decodeWordForm_encode {mk : Word → Instr} {imm : Word} (hfits : immFits o16 imm = true)
    (h : Supplies f ip (encodeImm o16 imm)) :
    decodeWordForm o16 mk f ip = .ok (mk imm, ip + BitVec.ofNat 32 (encodeImm o16 imm).length) := by
  rw [decodeWordForm, fetchImm_encode hfits h, ok_bind]
  rfl

/-- ModRM and the r/m operand of an encoding, with `reg` in the middle field, decode to the operand; `rest` follows. -/
theorem decodeRm_supplied {ρ : Type} {sel : ρ → BitVec 3} {ofSel : BitVec 3 → ρ} (hs : ∀ r, ofSel (sel r) = r)
    {rm : RM ρ} {reg : BitVec 3} {rest : List Byte} (hwf : rm.wf = true)
    (h : Supplies f ip (rm.encode sel reg ++ rest)) :
    ∃ m, fetchByte f ip none = .ok (m, ip + 1) ∧ fieldMid m = reg ∧
      decodeRm ofSel f m (ip + 1) = .ok (rm, ip + BitVec.ofNat 32 (rm.encode sel reg).length) := by
  obtain ⟨m, bs, he⟩ := rm.encode_eq_cons sel reg
  rw [he] at h ⊢
  obtain ⟨hrm, hreg⟩ := decodeRm_encode hs hwf he h.tail
  rw [add_one_add_ofNat] at hrm
  exact ⟨m, fetchByte_supplied h none, hreg, hrm⟩

theorem decodeModRM_encode {ρ : Type} {sel : ρ → BitVec 3} {ofSel : BitVec 3 → ρ} (hs : ∀ r, ofSel (sel r) = r)
    {rm : RM ρ} {r : ρ} (hwf : rm.wf = true) (h : Supplies f ip (rm.encode sel (sel r))) :
    decodeModRM ofSel f ip = .ok (rm, r, ip + BitVec.ofNat 32 (rm.encode sel (sel r)).length) := by
  obtain ⟨m, hm, hreg, hrm⟩ := decodeRm_supplied (rest := []) hs hwf (by rwa [List.append_nil])
  simp only [decodeModRM, hm, ok_bind, hrm, hreg, hs]
  rfl

theorem decodeGroup1_rm8Imm8 {s : Bool} {b : Byte} {op : SubOp} {rm : RM Reg8} {imm : Byte} (hwf : rm.wf = true)
    (h : Supplies f ip (rm.encode Reg8.sel op.sel ++ [imm])) :
    decodeGroup1 o16 s false b f ip =
      .ok (op.rm8Imm8 s rm imm, ip + BitVec.ofNat 32 (rm.encode Reg8.sel op.sel ++ [imm]).length) := by
  obtain ⟨m, hm, hreg, hrm⟩ := decodeRm_supplied Reg8.ofSel_sel hwf h
  rw [List.length_append, ← add_ofNat_add]
  simp only [decodeGroup1, hm, ok_bind, hreg, subOpOf_sel, hrm, Bool.false_eq_true, if_false,
    fetchByte_supplied h.right]
  cases op <;> cases s <;> rfl

theorem decodeGroup1_rmImm {b : Byte} {op : SubOp} {rm : RM Reg} {imm : Word}
    (hfits : (rm.wf && immFits o16 imm) = true) (h : Supplies f ip (rm.encode Reg.sel op.sel ++ encodeImm o16 imm)) :
    decodeGroup1 o16 false true b f ip =
      .ok (op.rmImm rm imm, ip + BitVec.ofNat 32 (rm.encode Reg.sel op.sel ++ encodeImm o16 imm).length) := by
  obtain ⟨hwf, himm⟩ := Bool.and_eq_true_iff.1 hfits
  obtain ⟨m, hm, hreg, hrm⟩ := decodeRm_supplied Reg.ofSel_sel hwf h
  rw [List.length_append, ← add_ofNat_add]
  simp only [decodeGroup1, hm, ok_bind, hreg, subOpOf_sel, hrm, Bool.false_eq_true, if_false, if_true,
    fetchImm_encode himm h.right]
  cases op <;> rfl

theorem decodeGroup1_rmImm8 {b : Byte} {op : SubOp} {rm : RM Reg} {imm : Byte} (hwf : rm.wf = true)
    (h : Supplies f ip (rm.encode Reg.sel op.sel ++ [imm])) :
    decodeGroup1 o16 true true b f ip =
      .ok (op.rmImm8 rm imm, ip + BitVec.ofNat 32 (rm.encode Reg.sel op.sel ++ [imm]).length) := by
  obtain ⟨m, hm, hreg, hrm⟩ := decodeRm_supplied Reg.ofSel_sel hwf h
  rw [List.length_append, ← add_ofNat_add]
  simp only [decodeGroup1, hm, ok_bind, hreg, subOpOf_sel, hrm, if_true, fetchByte_supplied h.right]
  cases op <;> rfl

theorem decodeMovRmImm_rm8Imm8 {b : Byte} {rm : RM Reg8} {imm : Byte} (hwf : rm.wf = true)
    (h : Supplies f ip (rm.encode Reg8.sel 0 ++ [imm])) :
    decodeMovRmImm o16 false b f ip =
      .ok (.movRm8Imm8 rm imm, ip + BitVec.ofNat 32 (rm.encode Reg8.sel 0 ++ [imm]).length) := by
  obtain ⟨m, hm, hreg, hrm⟩ := decodeRm_supplied Reg8.ofSel_sel hwf h
  rw [List.length_append, ← add_ofNat_add]
  simp only [decodeMovRmImm, hm, ok_bind, hreg, hrm, Bool.false_eq_true, if_false, if_true,
    fetchByte_supplied h.right]
  rfl

theorem decodeMovRmImm_rmImm {b : Byte} {rm : RM Reg} {imm : Word}
    (hfits : (rm.wf && immFits o16 imm) = true) (h : Supplies f ip (rm.encode Reg.sel 0 ++ encodeImm o16 imm)) :
    decodeMovRmImm o16 true b f ip =
      .ok (.movRmImm rm imm, ip + BitVec.ofNat 32 (rm.encode Reg.sel 0 ++ encodeImm o16 imm).length) := by
  obtain ⟨hwf, himm⟩ := Bool.and_eq_true_iff.1 hfits
  obtain ⟨m, hm, hreg, hrm⟩ := decodeRm_supplied Reg.ofSel_sel hwf h
  rw [List.length_append, ← add_ofNat_add]
  simp only [decodeMovRmImm, hm, ok_bind, hreg, hrm, if_true, fetchImm_encode himm h.right]
  rfl

/-- A ModRM form with a register: the decoder makes its instruction of the operand and the register. -/
theorem decodeModRM_form {ρ : Type} {sel : ρ → BitVec 3} {ofSel : BitVec 3 → ρ} (hs : ∀ r, ofSel (sel r) = r)
    {rm : RM ρ} {r : ρ} (mk : RM ρ → ρ → Instr) (hwf : rm.wf = true) (h : Supplies f ip (rm.encode sel (sel r))) :
    (decodeModRM ofSel f ip >>= fun p => pure (mk p.1 p.2.1, p.2.2)) =
      Except.ok (mk rm r, ip + BitVec.ofNat 32 (rm.encode sel (sel r)).length) := by
  rw [decodeModRM_encode hs hwf h, ok_bind]
  rfl

theorem ok_add_zero (i : Instr) (ip : Word) :
    (Except.ok (i, ip) : Except DecodeError (Instr × Word)) = .ok (i, ip + BitVec.ofNat 32 0) := by
  simp

/-- Every body has a handler, whose opcode byte begins its encoding and which decodes the bytes after it. -/
theorem exists_decodeOp_encodeBody {i : Instr} (hfits : i.fits o16 = true)
    (h : Supplies f ip (encodeBody o16 i).tail) :
    ∃ op : Op, encodeBody o16 i = op.byte :: (encodeBody o16 i).tail ∧
      decodeOp o16 op.byte op f ip = .ok (i, ip + BitVec.ofNat 32 (encodeBody o16 i).tail.length) := by
  cases i with
  | o16 j => cases hfits
  | addRm8R8 rm r => exact ⟨.add false false, rfl, decodeModRM_form Reg8.ofSel_sel .addRm8R8 hfits h⟩
  | addRmR rm r => exact ⟨.add false true, rfl, decodeModRM_form Reg.ofSel_sel .addRmR hfits h⟩
  | addR8Rm8 r rm => exact ⟨.add true false, rfl, decodeModRM_form Reg8.ofSel_sel (fun rm r => .addR8Rm8 r rm) hfits h⟩
  | addRRm r rm => exact ⟨.add true true, rfl, decodeModRM_form Reg.ofSel_sel (fun rm r => .addRRm r rm) hfits h⟩
  | movRm8R8 rm r => exact ⟨.mov false false, rfl, decodeModRM_form Reg8.ofSel_sel .movRm8R8 hfits h⟩
  | movRmR rm r => exact ⟨.mov false true, rfl, decodeModRM_form Reg.ofSel_sel .movRmR hfits h⟩
  | movR8Rm8 r rm => exact ⟨.mov true false, rfl, decodeModRM_form Reg8.ofSel_sel (fun rm r => .movR8Rm8 r rm) hfits h⟩
  | movRRm r rm => exact ⟨.mov true true, rfl, decodeModRM_form Reg.ofSel_sel (fun rm r => .movRRm r rm) hfits h⟩
  | incR r => exact ⟨.inc r, rfl, ok_add_zero _ ip⟩
  | decR r => exact ⟨.dec r, rfl, ok_add_zero _ ip⟩
  | pushR r => exact ⟨.push r, rfl, ok_add_zero _ ip⟩
  | popR r => exact ⟨.pop r, rfl, ok_add_zero _ ip⟩
  | pusha => exact ⟨.pusha, rfl, ok_add_zero _ ip⟩
  | popa => exact ⟨.popa, rfl, ok_add_zero _ ip⟩
  | nop => exact ⟨.nop, rfl, ok_add_zero _ ip⟩
  | ret => exact ⟨.ret, rfl, ok_add_zero _ ip⟩
  | hlt => exact ⟨.hlt, rfl, ok_add_zero _ ip⟩
  | pushImm8 imm => exact ⟨.pushImm8, rfl, decodeByteForm_supplied h⟩
  | jz rel => exact ⟨.jcc false, rfl, decodeByteForm_supplied h⟩
  | jnz rel => exact ⟨.jcc true, rfl, decodeByteForm_supplied h⟩
  | movR8Imm8 r imm => exact ⟨.movImm8 r, rfl, decodeByteForm_supplied h⟩
  | intImm8 id => exact ⟨.int, rfl, decodeByteForm_supplied h⟩
  | loopRel8 rel => exact ⟨.loop, rfl, decodeByteForm_supplied h⟩
  | jmpRel8 rel => exact ⟨.jmpShort, rfl, decodeByteForm_supplied h⟩
  | pushImm imm => exact ⟨.pushImm, rfl, decodeWordForm_encode hfits h⟩
  | movRImm r imm => exact ⟨.movImm r, rfl, decodeWordForm_encode hfits h⟩
  | callRel rel => exact ⟨.call, rfl, decodeWordForm_encode hfits h⟩
  | jmpRel rel => exact ⟨.jmp, rfl, decodeWordForm_encode hfits h⟩
  | addRm8Imm8 rm imm => exact ⟨.group1 false false, rfl, decodeGroup1_rm8Imm8 (op := .add) hfits h⟩
  | subRm8Imm8 rm imm => exact ⟨.group1 false false, rfl, decodeGroup1_rm8Imm8 (op := .sub) hfits h⟩
  | sub7Rm8Imm8 rm imm => exact ⟨.group1 false false, rfl, decodeGroup1_rm8Imm8 (op := .sub7) hfits h⟩
  | addRm8Imm8s rm imm => exact ⟨.group1 true false, rfl, decodeGroup1_rm8Imm8 (op := .add) hfits h⟩
  | subRm8Imm8s rm imm => exact ⟨.group1 true false, rfl, decodeGroup1_rm8Imm8 (op := .sub) hfits h⟩
  | sub7Rm8Imm8s rm imm => exact ⟨.group1 true false, rfl, decodeGroup1_rm8Imm8 (op := .sub7) hfits h⟩
  | addRmImm rm imm => exact ⟨.group1 false true, rfl, decodeGroup1_rmImm (op := .add) hfits h⟩
  | subRmImm rm imm => exact ⟨.group1 false true, rfl, decodeGroup1_rmImm (op := .sub) hfits h⟩
  | sub7RmImm rm imm => exact ⟨.group1 false true, rfl, decodeGroup1_rmImm (op := .sub7) hfits h⟩
  | addRmImm8 rm imm => exact ⟨.group1 true true, rfl, decodeGroup1_rmImm8 (op := .add) hfits h⟩
  | subRmImm8 rm imm => exact ⟨.group1 true true, rfl, decodeGroup1_rmImm8 (op := .sub) hfits h⟩
  | sub7RmImm8 rm imm => exact ⟨.group1 true true, rfl, decodeGroup1_rmImm8 (op := .sub7) hfits h⟩
  | movRm8Imm8 rm imm => exact ⟨.movRmImm false, rfl, decodeMovRmImm_rm8Imm8 hfits h⟩
  | movRmImm rm imm => exact ⟨.movRmImm true, rfl, decodeMovRmImm_rmImm hfits h⟩

/-- The encoding of a body that fits decodes to it, after the opcode byte is fetched. -/
theorem decodeOpcode_encodeBody {i : Instr} (hfits : i.fits o16 = true) (h : Supplies f ip (encodeBody o16 i)) :
    ∃ b, fetchByte f ip none = .ok (b, ip + 1) ∧ b ≠ 0x66 ∧
      decodeOpcode o16 b f (ip + 1) = .ok (i, ip + BitVec.ofNat 32 (encodeBody o16 i).length) := by
  obtain ⟨b, bs, hb⟩ := List.exists_cons_of_length_pos (Laws.EncodeLength.body_length o16 i).1
  have htail : Supplies f (ip + 1) (encodeBody o16 i).tail := by
    rw [hb] at h ⊢
    exact h.tail
  obtain ⟨op, he, hop⟩ := exists_decodeOp_encodeBody hfits htail
  rw [he] at h
  refine ⟨op.byte, fetchByte_supplied h none, byte_ne_66 op, ?_⟩
  rw [decodeOpcode_byte, hop, add_one_add_ofNat, ← List.length_cons, ← he]

theorem encode_of_ne_o16 {i : Instr} (hi : ∀ j, i ≠ .o16 j) : encode i = encodeBody false i := by
  cases i with
  | o16 j => exact absurd rfl (hi j)
  | _ => rfl

theorem wf_of_ne_o16 {i : Instr} (hi : ∀ j, i ≠ .o16 j) : i.wf = i.fits false := by
  cases i with
  | o16 j => exact absurd rfl (hi j)
  | _ => rfl

/-- What the encoding of a well-formed instruction supplies decodes to that instruction. -/
theorem decode_encode {i : Instr} (hwf : i.wf = true) (h : Supplies f ip (encode i)) :
    decode f ip = .ok (i, ip + BitVec.ofNat 32 (encode i).length) := by
  by_cases hi : ∃ j, i = .o16 j
  · obtain ⟨j, rfl⟩ := hi
    obtain ⟨b, hb, -, hop⟩ := decodeOpcode_encodeBody (o16 := true) hwf (Supplies.tail h)
    simp only [decode, fetchByte_supplied (b := 0x66) h, hb, hop, ok_bind, if_true, add_one_add_ofNat]
    rfl
  · rw [encode_of_ne_o16 (not_exists.1 hi)] at h ⊢
    rw [wf_of_ne_o16 (not_exists.1 hi)] at hwf
    obtain ⟨b, hb, hne, hop⟩ := decodeOpcode_encodeBody hwf h
    simp only [decode, hb, ok_bind, hne, if_false, hop]

end

theorem length_encode_le (i : Instr) : (encode i).length ≤ 12 := by
  have hbody (o16 : Bool) (j : Instr) : (encodeBody o16 j).length ≤ 11 := by
    have hlen := (Laws.EncodeLength.body_length o16 j).2
    have hw := (immWidth o16).bytes_le
    omega
  by_cases hi : ∃ j, i = .o16 j
  · obtain ⟨j, rfl⟩ := hi
    exact Nat.succ_le_succ (hbody true j)
  · rw [encode_of_ne_o16 (not_exists.1 hi)]
    exact Nat.le_succ_of_le (hbody false i)

/-! ### What each part of the decoder can answer -/

section
variable {f : Fetch} {ip ip' : Word} {mod : BitVec 2} {rm : BitVec 3}

theorem fetchAt_eq_ok {w : Width} {r : Option (Addr × Width)} {v : Word} :
    fetchAt f w ip r = .ok (v, ip') ↔ f ip w = some v ∧ ip' = ip + BitVec.ofNat 32 w.bytes := by
  rw [fetchAt]
  cases f ip w with
  | none => simp
  | some u => simp [eq_comm]

theorem fetchByte_eq_ok {r : Option (Addr × Width)} {b : Byte} :
    fetchByte f ip r = .ok (b, ip') ↔ ∃ v, f ip .w8 = some v ∧ b = lowByte v ∧ ip' = ip + 1 := by
  rw [fetchByte, bind_eq_ok]
  constructor
  · rintro ⟨⟨v, ip1⟩, hv, h⟩
    obtain ⟨hf, rfl⟩ := fetchAt_eq_ok.1 hv
    cases h
    exact ⟨v, hf, rfl, rfl⟩
  · rintro ⟨v, hf, rfl, rfl⟩
    exact ⟨(v, ip + 1), fetchAt_eq_ok.2 ⟨hf, rfl⟩, rfl⟩

/-- A displacement is decoded by its `mod`. -/
theorem decodeDisp_cases {d : Disp} (hmod : mod ≠ 3) (h : decodeDisp f mod ip = .ok (d, ip')) :
    (mod = 0 ∧ d = .none ∧ ip' = ip) ∨
    (mod = 1 ∧ ∃ b, d = .d8 b ∧ fetchByte f ip none = .ok (b, ip')) ∨
    (mod = 2 ∧ ∃ v, d = .d32 v ∧ fetchAt f .w32 ip none = .ok (v, ip')) := by
  match mod with
  | 0 =>
    cases h
    exact .inl ⟨rfl, rfl, rfl⟩
  | 1 =>
    obtain ⟨⟨b, ip1⟩, hb, h⟩ := bind_eq_ok.1 h
    cases h
    exact .inr (.inl ⟨rfl, b, rfl, hb⟩)
  | 2 =>
    obtain ⟨⟨v, ip1⟩, hv, h⟩ := bind_eq_ok.1 h
    cases h
    exact .inr (.inr ⟨rfl, v, rfl, hv⟩)
  | 3 => exact absurd rfl hmod

/-- A memory operand is decoded by its shape: with or without a SIB byte, with a base or with a disp32 alone. -/
theorem decodeAddr_cases {a : Addr} (h : decodeAddr f mod rm ip = .ok (a, ip')) :
    (rm = 4 ∧ ∃ sib ip1, fetchByte f ip none = .ok (sib, ip1) ∧
      ((mod = 0 ∧ fieldLow sib = 5 ∧ ∃ d, a = .sibAbs (fieldHi sib) (Reg.ofSel (fieldMid sib)) d ∧
        fetchAt f .w32 ip1 none = .ok (d, ip')) ∨
      (¬ (mod = 0 ∧ fieldLow sib = 5) ∧
        ∃ d, a = .sib d (fieldHi sib) (Reg.ofSel (fieldMid sib)) (Reg.ofSel (fieldLow sib)) ∧
          decodeDisp f mod ip1 = .ok (d, ip')))) ∨
    (mod = 0 ∧ rm = 5 ∧ ∃ d, a = .abs d ∧ fetchAt f .w32 ip none = .ok (d, ip')) ∨
    (rm ≠ 4 ∧ ¬ (mod = 0 ∧ rm = 5) ∧ ∃ d, a = .base d (Reg.ofSel rm) ∧ decodeDisp f mod ip = .ok (d, ip')) := by
  unfold decodeAddr at h
  split at h
  · next hrm =>
    obtain ⟨⟨sib, ip1⟩, hsib, h⟩ := bind_eq_ok.1 h
    refine .inl ⟨hrm, sib, ip1, hsib, ?_⟩
    dsimp only at h
    split at h
    · next hbase =>
      obtain ⟨⟨d, ip2⟩, hd, h⟩ := bind_eq_ok.1 h
      cases h
      exact .inl ⟨hbase.1, hbase.2, d, rfl, hd⟩
    · next hbase =>
      obtain ⟨⟨d, ip2⟩, hd, h⟩ := bind_eq_ok.1 h
      cases h
      exact .inr ⟨hbase, d, rfl, hd⟩
  · next hrm =>
    split at h
    · next habs =>
      obtain ⟨⟨d, ip2⟩, hd, h⟩ := bind_eq_ok.1 h
      cases h
      exact .inr (.inl ⟨habs.1, habs.2, d, rfl, hd⟩)
    · next habs =>
      obtain ⟨⟨d, ip2⟩, hd, h⟩ := bind_eq_ok.1 h
      cases h
      exact .inr (.inr ⟨hrm, habs, d, rfl, hd⟩)

/-- The r/m operand is a register under `mod` 11 and memory under every other. -/
theorem decodeRm_cases {ρ : Type} {ofSel : BitVec 3 → ρ} {m : Byte} {x : RM ρ}
    (h : decodeRm ofSel f m ip = .ok (x, ip')) :
    (fieldHi m = 3 ∧ x = .reg (ofSel (fieldLow m)) ∧ ip' = ip) ∨
    (fieldHi m ≠ 3 ∧ ∃ a, x = .mem a ∧ decodeAddr f (fieldHi m) (fieldLow m) ip = .ok (a, ip')) := by
  unfold decodeRm at h
  split at h
  · next hreg =>
    cases h
    exact .inl ⟨hreg, rfl, rfl⟩
  · next hmem =>
    obtain ⟨⟨a, ip1⟩, ha, h⟩ := bind_eq_ok.1 h
    cases h
    exact .inr ⟨hmem, a, rfl, ha⟩

end

/-! ### The bytes that decoding a list takes -/

/-- In the list `bs`, the bytes from `ip` up to `ip'` are `xs`. -/
structure Took (bs : List Byte) (ip : Word) (xs : List Byte) (ip' : Word) : Prop where
  cursor : ip'.toNat = ip.toNat + xs.length
  drop_eq : bs.drop ip.toNat = xs ++ bs.drop ip'.toNat

section
variable {bs xs ys : List Byte} {ip ip' ip'' : Word}

theorem Took.nil : Took bs ip [] ip := ⟨rfl, rfl⟩

theorem Took.trans (h : Took bs ip xs ip') (h' : Took bs ip' ys ip'') : Took bs ip (xs ++ ys) ip'' where
  cursor := by rw [h'.cursor, h.cursor, List.length_append, Nat.add_assoc]
  drop_eq := by rw [h.drop_eq, h'.drop_eq, List.append_assoc]

/-- A fetch takes the little-endian bytes of what it answers, which is cut to the fetch's width. -/
theorem took_fetchAt {w : Width} {r : Option (Addr × Width)} {v : Word} (room : ip.toNat + 4 < 4294967296)
    (h : fetchAt (fetchList bs) w ip r = .ok (v, ip')) :
    Took bs ip (leBytes w.bytes v.toNat) ip' ∧ v.toNat < 256 ^ w.bytes := by
  obtain ⟨hf, rfl⟩ := fetchAt_eq_ok.1 h
  have hw := w.bytes_le
  unfold fetchList at hf
  split at hf
  · next hin =>
    obtain rfl := Option.some.inj hf
    have hlen : ((bs.drop ip.toNat).take w.bytes).length = w.bytes := by
      rw [List.length_take, List.length_drop]
      omega
    have hcur : (ip + BitVec.ofNat 32 w.bytes).toNat = ip.toNat + w.bytes := by
      rw [BitVec.toNat_add, BitVec.toNat_ofNat]
      omega
    have hbytes := leBytes_leWord ((bs.drop ip.toNat).take w.bytes) (by omega)
    rw [hlen] at hbytes
    refine ⟨⟨by rw [hcur, length_leBytes], ?_⟩, ?_⟩
    · rw [hbytes, hcur, ← List.drop_drop, List.take_append_drop]
    · have hlt := leNat_lt ((bs.drop ip.toNat).take w.bytes)
      rw [hlen] at hlt
      rwa [toNat_leWord _ (by omega)]
  · cases hf

theorem took_fetchByte {r : Option (Addr × Width)} {b : Byte} (room : ip.toNat + 4 < 4294967296)
    (h : fetchByte (fetchList bs) ip r = .ok (b, ip')) : Took bs ip [b] ip' := by
  obtain ⟨v, hf, rfl, rfl⟩ := fetchByte_eq_ok.1 h
  have hv : fetchAt (fetchList bs) .w8 ip r = .ok (v, ip + 1) := fetchAt_eq_ok.2 ⟨hf, rfl⟩
  exact (took_fetchAt room hv).1

theorem took_decodeDisp {mod : BitVec 2} {d : Disp} (room : ip.toNat + 4 < 4294967296) (hmod : mod ≠ 3)
    (h : decodeDisp (fetchList bs) mod ip = .ok (d, ip')) : d.mod = mod ∧ Took bs ip d.encode ip' := by
  obtain ⟨rfl, rfl, rfl⟩ | ⟨rfl, b, rfl, hb⟩ | ⟨rfl, v, rfl, hv⟩ := decodeDisp_cases hmod h
  · exact ⟨rfl, .nil⟩
  · exact ⟨rfl, took_fetchByte room hb⟩
  · exact ⟨rfl, (took_fetchAt room hv).1⟩

theorem Disp.not_escape {d : Disp} {base : BitVec 3} (h : ¬ (d.mod = 0 ∧ base = 5)) :
    (!(d == .none && Reg.ofSel base == .ebp)) = true := by
  rw [Disp.mod_eq_zero, ← Reg.sel_ofSel base, Reg.sel_eq_five] at h
  simpa [imp_iff_not_or] using h

/-- A decoded memory operand is well formed, and the bytes it took after ModRM are the rest of its encoding. -/
theorem took_decodeAddr {mod : BitVec 2} {rm : BitVec 3} {a : Addr} (room : ip.toNat + 5 < 4294967296)
    (hmod : mod ≠ 3) (h : decodeAddr (fetchList bs) mod rm ip = .ok (a, ip')) :
    a.wf = true ∧ ∃ xs, (∀ reg, a.encode reg = packByte mod reg rm :: xs) ∧ Took bs ip xs ip' := by
  obtain ⟨rfl, sib, ip1, hsib, hrest⟩ | ⟨rfl, rfl, d, rfl, hd⟩ | ⟨hsib, hbase, d, rfl, hd⟩ := decodeAddr_cases h
  · have tsib := took_fetchByte (by omega) hsib
    have hcur : ip1.toNat = ip.toNat + 1 := tsib.cursor
    obtain ⟨rfl, hbase, d, rfl, hd⟩ | ⟨hbase, d, rfl, hd⟩ := hrest
    · have hpack : packByte (fieldHi sib) (Reg.ofSel (fieldMid sib)).sel 5 = sib := by
        rw [Reg.sel_ofSel, ← hbase, packByte_fields]
      refine ⟨rfl, _, fun reg => rfl, ?_⟩
      rw [hpack]
      exact tsib.trans (took_fetchAt (by omega) hd).1
    · have hpack : packByte (fieldHi sib) (Reg.ofSel (fieldMid sib)).sel (Reg.ofSel (fieldLow sib)).sel = sib := by
        rw [Reg.sel_ofSel, Reg.sel_ofSel, packByte_fields]
      obtain ⟨rfl, td⟩ := took_decodeDisp (by omega) hmod hd
      refine ⟨Disp.not_escape hbase, _, fun reg => rfl, ?_⟩
      rw [hpack]
      exact tsib.trans td
  · exact ⟨rfl, _, fun reg => rfl, (took_fetchAt (by omega) hd).1⟩
  · obtain ⟨rfl, td⟩ := took_decodeDisp (by omega) hmod hd
    have hesp : (Reg.ofSel rm != .esp) = true := by
      rw [← Reg.sel_ofSel rm, ne_eq, Reg.sel_eq_four] at hsib
      simpa using hsib
    refine ⟨Bool.and_eq_true_iff.2 ⟨hesp, Disp.not_escape hbase⟩, _, fun reg => ?_, td⟩
    rw [Addr.encode, Reg.sel_ofSel]

/-- ModRM and the r/m operand after it take the operand's encoding, with ModRM's middle field. -/
theorem took_decodeRm {ρ : Type} {sel : ρ → BitVec 3} {ofSel : BitVec 3 → ρ} (hs : ∀ i, sel (ofSel i) = i)
    {m : Byte} {rm : RM ρ} (room : ip.toNat + 6 < 4294967296)
    (hm : fetchByte (fetchList bs) ip none = .ok (m, ip'))
    (h : decodeRm ofSel (fetchList bs) m ip' = .ok (rm, ip'')) :
    rm.wf = true ∧ Took bs ip (rm.encode sel (fieldMid m)) ip'' := by
  have tm := took_fetchByte (by omega) hm
  have hcur : ip'.toNat = ip.toNat + 1 := tm.cursor
  obtain ⟨hreg, rfl, rfl⟩ | ⟨hmem, a, rfl, ha⟩ := decodeRm_cases h
  · refine ⟨rfl, ?_⟩
    rw [RM.encode, hs, ← hreg, packByte_fields]
    exact tm
  · obtain ⟨hwf, xs, he, tx⟩ := took_decodeAddr (by omega) hmem ha
    refine ⟨hwf, ?_⟩
    rw [RM.encode, he, packByte_fields]
    exact tm.trans tx

theorem took_fetchImm {o16 : Bool} {r : Option (Addr × Width)} {imm : Word} (room : ip.toNat + 4 < 4294967296)
    (h : fetchAt (fetchList bs) (immWidth o16) ip r = .ok (imm, ip')) :
    Took bs ip (encodeImm o16 imm) ip' ∧ immFits o16 imm = true := by
  obtain ⟨ht, hlt⟩ := took_fetchAt room h
  refine ⟨ht, ?_⟩
  cases o16 with
  | false => rfl
  | true => exact decide_eq_true hlt

end

/-- From `ip` up to `ip'`, `bs` holds what the encoding of `i` has after the opcode byte of `op`, and `i` fits. -/
def TookAfter (o16 : Bool) (op : Op) (bs : List Byte) (ip : Word) (i : Instr) (ip' : Word) : Prop :=
  i.fits o16 = true ∧ ∃ xs, encodeBody o16 i = op.byte :: xs ∧ Took bs ip xs ip'

section
variable {o16 s : Bool} {op : Op} {b : Byte} {bs : List Byte} {ip ip' : Word} {i : Instr}

/-- A body that is its opcode byte takes nothing more. -/
theorem tookAfter_opcode {j : Instr} (hfits : j.fits o16 = true) (henc : encodeBody o16 j = [op.byte])
    (h : (Except.ok (j, ip) : Except DecodeError (Instr × Word)) = .ok (i, ip')) : TookAfter o16 op bs ip i ip' := by
  cases h
  exact ⟨hfits, [], henc, .nil⟩

theorem tookAfter_byteForm {mk : Byte → Instr} (room : ip.toNat + 10 < 4294967296)
    (hfits : ∀ v, (mk v).fits o16 = true) (henc : ∀ v, encodeBody o16 (mk v) = [op.byte, v])
    (h : decodeByteForm mk (fetchList bs) ip = .ok (i, ip')) : TookAfter o16 op bs ip i ip' := by
  obtain ⟨⟨v, ip1⟩, hv, h⟩ := bind_eq_ok.1 h
  cases h
  exact ⟨hfits v, [v], henc v, took_fetchByte (by omega) hv⟩

theorem tookAfter_wordForm {mk : Word → Instr} (room : ip.toNat + 10 < 4294967296)
    (hfits : ∀ v, (mk v).fits o16 = immFits o16 v)
    (henc : ∀ v, encodeBody o16 (mk v) = op.byte :: encodeImm o16 v)
    (h : decodeWordForm o16 mk (fetchList bs) ip = .ok (i, ip')) : TookAfter o16 op bs ip i ip' := by
  obtain ⟨⟨v, ip1⟩, hv, h⟩ := bind_eq_ok.1 h
  cases h
  obtain ⟨tv, hv⟩ := took_fetchImm (by omega) hv
  exact ⟨(hfits v).trans hv, _, henc v, tv⟩

theorem tookAfter_modRM {ρ : Type} {sel : ρ → BitVec 3} {ofSel : BitVec 3 → ρ} {mk : RM ρ → ρ → Instr}
    (hs : ∀ i, sel (ofSel i) = i) (room : ip.toNat + 10 < 4294967296)
    (hfits : ∀ rm r, (mk rm r).fits o16 = rm.wf)
    (henc : ∀ rm r, encodeBody o16 (mk rm r) = op.byte :: rm.encode sel (sel r))
    (h : (decodeModRM ofSel (fetchList bs) ip >>= fun p => pure (mk p.1 p.2.1, p.2.2)) = .ok (i, ip')) :
    TookAfter o16 op bs ip i ip' := by
  obtain ⟨⟨rm, r, ip1⟩, hmodrm, h⟩ := bind_eq_ok.1 h
  cases h
  obtain ⟨⟨m, ip2⟩, hm, hmodrm⟩ := bind_eq_ok.1 hmodrm
  obtain ⟨⟨x, ip3⟩, hrm, hmodrm⟩ := bind_eq_ok.1 hmodrm
  cases hmodrm
  obtain ⟨hwf, ht⟩ := took_decodeRm hs (by omega) hm hrm
  refine ⟨(hfits _ _).trans hwf, _, henc _ _, ?_⟩
  rwa [hs]

/-- An r/m operand leaves room for an immediate. -/
theorem Took.room_after_rm {ρ : Type} {sel : ρ → BitVec 3} {reg : BitVec 3} {rm : RM ρ}
    (h : Took bs ip (rm.encode sel reg) ip') (room : ip.toNat + 10 < 4294967296) : ip'.toNat + 4 < 4294967296 := by
  have hcur := h.cursor
  have hlen := (rm.length_encode sel reg).2
  omega

theorem tookAfter_group1 {w : Bool} (room : ip.toNat + 10 < 4294967296)
    (h : decodeGroup1 o16 s w b (fetchList bs) ip = .ok (i, ip')) : TookAfter o16 (.group1 s w) bs ip i ip' := by
  obtain ⟨⟨m, ip1⟩, hm, h⟩ := bind_eq_ok.1 h
  dsimp only at h
  split at h
  · cases h
  next op hop =>
  have hreg := eq_sel_of_subOpOf hop
  cases w with
  | false =>
    obtain ⟨⟨rm, ip2⟩, hrm, h⟩ := bind_eq_ok.1 h
    obtain ⟨⟨imm, ip3⟩, himm, h⟩ := bind_eq_ok.1 h
    obtain ⟨hwf, trm⟩ := took_decodeRm Reg8.sel_ofSel (by omega) hm hrm
    have timm := took_fetchByte (trm.room_after_rm room) himm
    obtain ⟨rfl, rfl⟩ : op.rm8Imm8 s rm imm = i ∧ ip3 = ip' := by
      cases op <;> cases s <;> cases h <;> exact ⟨rfl, rfl⟩
    exact ⟨fits_rm8Imm8.trans hwf, _, encodeBody_rm8Imm8, hreg ▸ trm.trans timm⟩
  | true =>
    obtain ⟨⟨rm, ip2⟩, hrm, h⟩ := bind_eq_ok.1 h
    obtain ⟨hwf, trm⟩ := took_decodeRm Reg.sel_ofSel (by omega) hm hrm
    cases s with
    | true =>
      obtain ⟨⟨imm, ip3⟩, himm, h⟩ := bind_eq_ok.1 h
      have timm := took_fetchByte (trm.room_after_rm room) himm
      obtain ⟨rfl, rfl⟩ : op.rmImm8 rm imm = i ∧ ip3 = ip' := by
        cases op <;> cases h <;> exact ⟨rfl, rfl⟩
      exact ⟨fits_rmImm8.trans hwf, _, encodeBody_rmImm8, hreg ▸ trm.trans timm⟩
    | false =>
      obtain ⟨⟨imm, ip3⟩, himm, h⟩ := bind_eq_ok.1 h
      obtain ⟨timm, hfits⟩ := took_fetchImm (trm.room_after_rm room) himm
      obtain ⟨rfl, rfl⟩ : op.rmImm rm imm = i ∧ ip3 = ip' := by
        cases op <;> cases h <;> exact ⟨rfl, rfl⟩
      exact ⟨fits_rmImm.trans (Bool.and_eq_true_iff.2 ⟨hwf, hfits⟩), _, encodeBody_rmImm, hreg ▸ trm.trans timm⟩

theorem tookAfter_movRmImm {w : Bool} (room : ip.toNat + 10 < 4294967296)
    (h : decodeMovRmImm o16 w b (fetchList bs) ip = .ok (i, ip')) : TookAfter o16 (.movRmImm w) bs ip i ip' := by
  obtain ⟨⟨m, ip1⟩, hm, h⟩ := bind_eq_ok.1 h
  dsimp only at h
  split at h
  next hreg =>
    cases w with
    | false =>
      obtain ⟨⟨rm, ip2⟩, hrm, h⟩ := bind_eq_ok.1 h
      obtain ⟨⟨imm, ip3⟩, himm, h⟩ := bind_eq_ok.1 h
      cases h
      obtain ⟨hwf, trm⟩ := took_decodeRm Reg8.sel_ofSel (by omega) hm hrm
      have timm := took_fetchByte (trm.room_after_rm room) himm
      exact ⟨hwf, _, rfl, hreg ▸ trm.trans timm⟩
    | true =>
      obtain ⟨⟨rm, ip2⟩, hrm, h⟩ := bind_eq_ok.1 h
      obtain ⟨⟨imm, ip3⟩, himm, h⟩ := bind_eq_ok.1 h
      cases h
      obtain ⟨hwf, trm⟩ := took_decodeRm Reg.sel_ofSel (by omega) hm hrm
      obtain ⟨timm, hfits⟩ := took_fetchImm (trm.room_after_rm room) himm
      exact ⟨Bool.and_eq_true_iff.2 ⟨hwf, hfits⟩, _, rfl, hreg ▸ trm.trans timm⟩
  · cases h

/-- Every handler answers a body that fits, and takes what the encoder writes after the opcode byte. -/
theorem tookAfter_decodeOp (room : ip.toNat + 10 < 4294967296)
    (h : decodeOp o16 b op (fetchList bs) ip = .ok (i, ip')) : TookAfter o16 op bs ip i ip' := by
  cases op with
  | add d w =>
    match d, w with
    | false, false => exact tookAfter_modRM (mk := .addRm8R8) Reg8.sel_ofSel room (fun _ _ => rfl) (fun _ _ => rfl) h
    | false, true => exact tookAfter_modRM (mk := .addRmR) Reg.sel_ofSel room (fun _ _ => rfl) (fun _ _ => rfl) h
    | true, false =>
      exact tookAfter_modRM (mk := fun rm r => .addR8Rm8 r rm) Reg8.sel_ofSel room (fun _ _ => rfl) (fun _ _ => rfl) h
    | true, true =>
      exact tookAfter_modRM (mk := fun rm r => .addRRm r rm) Reg.sel_ofSel room (fun _ _ => rfl) (fun _ _ => rfl) h
  | mov d w =>
    match d, w with
    | false, false => exact tookAfter_modRM (mk := .movRm8R8) Reg8.sel_ofSel room (fun _ _ => rfl) (fun _ _ => rfl) h
    | false, true => exact tookAfter_modRM (mk := .movRmR) Reg.sel_ofSel room (fun _ _ => rfl) (fun _ _ => rfl) h
    | true, false =>
      exact tookAfter_modRM (mk := fun rm r => .movR8Rm8 r rm) Reg8.sel_ofSel room (fun _ _ => rfl) (fun _ _ => rfl) h
    | true, true =>
      exact tookAfter_modRM (mk := fun rm r => .movRRm r rm) Reg.sel_ofSel room (fun _ _ => rfl) (fun _ _ => rfl) h
  | inc r | dec r | push r | pop r | pusha | popa | nop | ret | hlt => exact tookAfter_opcode rfl rfl h
  | pushImm8 | movImm8 r | int | loop | jmpShort => exact tookAfter_byteForm room (fun _ => rfl) (fun _ => rfl) h
  | jcc n => cases n <;> exact tookAfter_byteForm room (fun _ => rfl) (fun _ => rfl) h
  | pushImm | movImm r | call | jmp => exact tookAfter_wordForm room (fun _ => rfl) (fun _ => rfl) h
  | group1 s w => exact tookAfter_group1 room h
  | movRmImm w => exact tookAfter_movRmImm room h

/-- The opcode byte and what its handler takes are the encoding of the body. -/
theorem took_decodeOpcode {ip'' : Word} (room : ip.toNat + 11 < 4294967296)
    (hb : fetchByte (fetchList bs) ip none = .ok (b, ip'))
    (h : decodeOpcode o16 b (fetchList bs) ip' = .ok (i, ip'')) :
    i.fits o16 = true ∧ Took bs ip (encodeBody o16 i) ip'' := by
  have tb := took_fetchByte (by omega) hb
  have hcur : ip'.toNat = ip.toNat + 1 := tb.cursor
  unfold decodeOpcode at h
  split at h
  · cases h
  next op hop =>
  obtain rfl := eq_byte_of_opOf hop
  obtain ⟨hfits, xs, he, tx⟩ := tookAfter_decodeOp (by omega) h
  exact ⟨hfits, he ▸ tb.trans tx⟩

/-- What decodes is well formed and took its encoding. -/
theorem took_decode (room : ip.toNat + 12 < 4294967296) (h : decode (fetchList bs) ip = .ok (i, ip')) :
    i.wf = true ∧ Took bs ip (encode i) ip' := by
  obtain ⟨⟨b, ip1⟩, hb, h⟩ := bind_eq_ok.1 h
  dsimp only at h
  split at h
  · next hpre =>
    subst hpre
    have tpre := took_fetchByte (by omega) hb
    have hcur : ip1.toNat = ip.toNat + 1 := tpre.cursor
    obtain ⟨⟨b, ip2⟩, hb, h⟩ := bind_eq_ok.1 h
    obtain ⟨⟨j, ip3⟩, hj, h⟩ := bind_eq_ok.1 h
    cases h
    obtain ⟨hfits, tj⟩ := took_decodeOpcode (by omega) hb hj
    exact ⟨hfits, tpre.trans tj⟩
  · obtain ⟨hfits, ti⟩ := took_decodeOpcode (by omega) hb h
    have hi : ∀ j, i ≠ .o16 j := by
      rintro j rfl
      cases hfits
    rw [wf_of_ne_o16 hi, encode_of_ne_o16 hi]
    exact ⟨hfits, ti⟩

end

end Sys2Proof

namespace Sys2Proof

open Sys2Proof.Machine Sys2Proof.Claims

/-! ### The length of an r/m operand (R102) -/

/-- The displacement's bytes under a `mod` other than 11. -/
def dispBytes (mod : BitVec 2) : Nat := if mod = 0 then 0 else if mod = 1 then 1 else 4

/-- The rows with a base register: the SIB byte, where there is one, and the displacement. -/
theorem bytesAfterModRM_sib : ∀ (mod : BitVec 2) (base : BitVec 3), mod ≠ 3 → ¬ (mod = 0 ∧ base = 5) →
    bytesAfterModRM mod 4 base = dispBytes mod + 1 := by decide

theorem bytesAfterModRM_base : ∀ (mod : BitVec 2) (rm base : BitVec 3), mod ≠ 3 → rm ≠ 4 → ¬ (mod = 0 ∧ rm = 5) →
    bytesAfterModRM mod rm base = dispBytes mod := by decide

section
variable {f : Fetch} {ip ip' : Word}

theorem eq_lowByte_of_fetchByte {r : Option (Addr × Width)} {b : Byte} (h : fetchByte f ip r = .ok (b, ip')) :
    b = lowByte ((f ip .w8).getD 0) ∧ ip' = ip + 1 := by
  obtain ⟨v, hf, rfl, rfl⟩ := fetchByte_eq_ok.1 h
  rw [hf]
  exact ⟨rfl, rfl⟩

theorem cursor_of_fetchAt {w : Width} {r : Option (Addr × Width)} {v : Word} (h : fetchAt f w ip r = .ok (v, ip')) :
    ip' = ip + BitVec.ofNat 32 w.bytes := (fetchAt_eq_ok.1 h).2

theorem cursor_of_decodeDisp {mod : BitVec 2} {d : Disp} (hmod : mod ≠ 3) (h : decodeDisp f mod ip = .ok (d, ip')) :
    ip' = ip + BitVec.ofNat 32 (dispBytes mod) := by
  obtain ⟨rfl, rfl, rfl⟩ | ⟨rfl, b, rfl, hb⟩ | ⟨rfl, v, rfl, hv⟩ := decodeDisp_cases hmod h
  · exact (BitVec.add_zero ip').symm
  · exact (eq_lowByte_of_fetchByte hb).2
  · exact cursor_of_fetchAt hv

theorem cursor_of_decodeAddr {mod : BitVec 2} {rm : BitVec 3} {a : Addr} (hmod : mod ≠ 3)
    (h : decodeAddr f mod rm ip = .ok (a, ip')) :
    ip' = ip + BitVec.ofNat 32 (bytesAfterModRM mod rm (fieldLow (lowByte ((f ip .w8).getD 0)))) := by
  obtain ⟨rfl, sib, ip1, hsib, hrest⟩ | ⟨rfl, rfl, d, rfl, hd⟩ | ⟨hrm, hbase, d, rfl, hd⟩ := decodeAddr_cases h
  · obtain ⟨rfl, rfl⟩ := eq_lowByte_of_fetchByte hsib
    obtain ⟨rfl, hlow, d, rfl, hd⟩ | ⟨hbase, d, rfl, hd⟩ := hrest
    · rw [cursor_of_fetchAt hd, hlow]
      exact add_one_add_ofNat ip 4
    · rw [cursor_of_decodeDisp hmod hd, add_one_add_ofNat, bytesAfterModRM_sib _ _ hmod hbase]
  · exact cursor_of_fetchAt hd
  · rw [cursor_of_decodeDisp hmod hd, bytesAfterModRM_base _ _ _ hmod hrm hbase]

end

/-! ### The pseudocode of ResolveEA (R89) -/

section
variable {f : Fetch} {ip : Word}

theorem toOption_bind {ε α β : Type} (x : Except ε α) (g : α → Except ε β) :
    (x >>= g).toOption = x.toOption.bind fun a => (g a).toOption := by
  cases x <;> rfl

/-- A value made of a fetched one, at the cursor after it. -/
theorem toOption_bind_pure {ε α β : Type} (x : Except ε (α × Word)) (g : α → β) :
    (x >>= fun p => pure (g p.1, p.2)).toOption = x.toOption.map fun p => (g p.1, p.2) := by
  cases x <;> rfl

theorem toOption_fetchAt (w : Width) (r : Option (Addr × Width)) :
    (fetchAt f w ip r).toOption = (f ip w).map fun v => (v, ip + BitVec.ofNat 32 w.bytes) := by
  rw [fetchAt]
  cases f ip w <;> rfl

theorem toOption_fetchByte (r : Option (Addr × Width)) :
    (fetchByte f ip r).toOption = (f ip .w8).map fun v => (lowByte v, ip + 1) := by
  rw [fetchByte, toOption_bind, toOption_fetchAt]
  cases f ip .w8 <;> rfl

/-- What ResolveEA does once the base field, the index term and the cursor after any SIB byte are known. -/
def resolveBase (f : Fetch) (x : Reg → Word) (mod : BitVec 2) (base : BitVec 3) (idx ip : Word) :
    Option (Word × Word) :=
  if mod = 0 then
    if base = 5 then (f ip .w32).bind fun d => some (d + idx, ip + 4)
    else some (x (Reg.ofSel base) + idx, ip)
  else if mod = 1 then (f ip .w8).bind fun d => some (x (Reg.ofSel base) + (lowByte d).signExtend 32 + idx, ip + 1)
  else (f ip .w32).bind fun d => some (x (Reg.ofSel base) + d + idx, ip + 4)

theorem resolveEA_of_ne {x : Reg → Word} {mod : BitVec 2} {rm : BitVec 3} (h : rm ≠ 4) :
    resolveEA f x mod rm ip = resolveBase f x mod rm 0 ip := by
  unfold resolveEA
  rw [if_neg h]
  rfl

/-- The pseudocode's shifts and masks are the fields of the SIB byte (R88). -/
theorem sib_fields (sib : Word) : ((sib >>> 6) &&& 3).toNat = (fieldHi (lowByte sib)).toNat ∧
    (sib >>> 3).setWidth 3 = fieldMid (lowByte sib) ∧ sib.setWidth 3 = fieldLow (lowByte sib) := by
  refine ⟨?_, BitVec.eq_of_toNat_eq ?_, BitVec.eq_of_toNat_eq ?_⟩
  · have hmask : ((sib >>> 6) &&& 3).toNat = (sib.toNat >>> 6) % 2 ^ 2 := Nat.and_two_pow_sub_one_eq_mod _ 2
    simp only [hmask, fieldHi, lowByte, BitVec.extractLsb'_toNat, BitVec.toNat_setWidth, Nat.shiftRight_eq_div_pow]
    omega
  · simp only [BitVec.toNat_setWidth, BitVec.toNat_ushiftRight, fieldMid, lowByte, BitVec.extractLsb'_toNat,
      Nat.shiftRight_eq_div_pow]
    omega
  · simp only [BitVec.toNat_setWidth, fieldLow, lowByte, BitVec.extractLsb'_toNat, Nat.shiftRight_zero]
    omega

theorem scaledIndex_ofSel (s : State) (scale : BitVec 2) (index : BitVec 3) :
    s.scaledIndex scale (Reg.ofSel index) =
      if index ≠ 4 then s.reg (Reg.ofSel index) <<< scale.toNat else 0 := by
  simp only [State.scaledIndex, ← Reg.sel_eq_four, Reg.sel_ofSel, ne_eq, ite_not]

theorem resolveEA_four {s : State} {mod : BitVec 2} :
    resolveEA f s.reg mod 4 ip = (f ip .w8).bind fun sib =>
      resolveBase f s.reg mod (fieldLow (lowByte sib))
        (s.scaledIndex (fieldHi (lowByte sib)) (Reg.ofSel (fieldMid (lowByte sib)))) (ip + 1) := by
  unfold resolveEA
  rw [if_pos rfl]
  cases f ip .w8 with
  | none => rfl
  | some sib =>
    obtain ⟨hscale, hindex, hbase⟩ := sib_fields sib
    rw [Option.bind_some, scaledIndex_ofSel, ← hscale, ← hindex, ← hbase]
    rfl

/-- With a base register, the address is the base, the displacement and the index term. -/
theorem resolveBase_of_not_escape {x : Reg → Word} {mod : BitVec 2} {base : BitVec 3} {idx : Word} (hmod : mod ≠ 3)
    (h : ¬ (mod = 0 ∧ base = 5)) :
    resolveBase f x mod base idx ip =
      (decodeDisp f mod ip).toOption.map fun p => (x (Reg.ofSel base) + p.1.value + idx, p.2) := by
  match mod with
  | 0 =>
    have hbase : base ≠ 5 := fun hb => h ⟨rfl, hb⟩
    rw [resolveBase, if_pos rfl, if_neg hbase]
    exact congrArg (fun v => some (v + idx, ip)) (BitVec.add_zero _).symm
  | 1 =>
    change (f ip .w8).bind _ = (fetchByte f ip none >>= fun p => pure (Disp.d8 p.1, p.2)).toOption.map _
    rw [toOption_bind_pure, toOption_fetchByte]
    cases f ip .w8 <;> rfl
  | 2 =>
    change (f ip .w32).bind _ = (fetchAt f .w32 ip none >>= fun p => pure (Disp.d32 p.1, p.2)).toOption.map _
    rw [toOption_bind_pure, toOption_fetchAt]
    cases f ip .w32 <;> rfl
  | 3 => exact absurd rfl hmod

/-- On the disp32 path there is no base register; the index term is added there too (D12). -/
theorem resolveBase_escape {x : Reg → Word} {idx : Word} :
    resolveBase f x 0 5 idx ip = (fetchAt f .w32 ip none).toOption.map fun p => (p.1 + idx, p.2) := by
  change (f ip .w32).bind _ = _
  rw [toOption_fetchAt]
  cases f ip .w32 <;> rfl

theorem resolveEA_eq_decodeAddr {s : State} {mod : BitVec 2} {rm : BitVec 3} (hmod : mod ≠ 3) :
    resolveEA f s.reg mod rm ip = (decodeAddr f mod rm ip).toOption.map fun p => (s.resolve p.1, p.2) := by
  unfold decodeAddr
  split
  · next hrm =>
    rw [hrm, resolveEA_four, toOption_bind, toOption_fetchByte]
    cases f ip .w8 with
    | none => rfl
    | some sib =>
      dsimp only [Option.bind_some, Option.map_some]
      split
      · next hbase =>
        rw [hbase.1, hbase.2, resolveBase_escape]
        cases fetchAt f .w32 (ip + 1) none <;> rfl
      · next hbase =>
        rw [resolveBase_of_not_escape hmod hbase]
        cases decodeDisp f mod (ip + 1) <;> rfl
  · next hrm =>
    rw [resolveEA_of_ne hrm]
    split
    · next habs =>
      rw [habs.1, habs.2, resolveBase_escape]
      simp only [add_zero]
      cases fetchAt f .w32 ip none <;> rfl
    · next habs =>
      rw [resolveBase_of_not_escape hmod habs]
      simp only [add_zero]
      cases decodeDisp f mod ip <;> rfl

end

end Sys2Proof

namespace Sys2Proof.Machine

open Sys2Proof.Claims

/-! ### The stored instruction (R80) -/

theorem bytes_of_holds {s : State} {bs : List Byte} (h : Holds s bs) : s.mem.bytes s.ip.toNat bs.length = bs := by
  obtain ⟨-, hread⟩ := h
  refine List.ext_getElem (by simp) fun k hk hk' => ?_
  have hbyte := (Memory.getD_bytes s.mem s.ip.toNat bs.length k hk').trans (hread k hk')
  simpa only [List.getD_eq_getElem _ _ hk, List.getD_eq_getElem _ _ hk'] using hbyte

theorem supplies_of_holds {s : State} {bs : List Byte} (hsize : s.cfg.memSize ≤ 4294967296) (h : Holds s bs) :
    Supplies s.fetch s.ip bs :=
  supplies_store (bytes_of_holds h) h.1 hsize

/-! ### Prefixed instructions (R83) -/

/-- A prefixed body runs under the latch, which is clear after it. -/
theorem exec_o16_eq {i : Instr} (hi : ∀ j, i ≠ .o16 j) (s : State) :
    exec (.o16 i) s = clearLatch (exec i { s with o16 := true }) :=
  congrArg clearLatch (execBody_eq_exec i _ hi)

theorem toNat_trunc_w16 (v : Word) : (Width.w16.trunc v).toNat = v.toNat % 2 ^ 16 := Width.toNat_trunc .w16 v

/-- A view's write does not depend on the latch. -/
theorem set_with_o16 (s : State) (b : Bool) (r : RegRef) (v : Word) :
    State.set { s with o16 := b } r v = { s.set r v with o16 := b } := by
  cases r with
  | r32 r | r16 r => rfl
  | r8 r =>
    simp only [State.set]
    split <;> rfl

/-- A view written under the latch, which is clear before and after, is the view written. -/
theorem clearLatch_set {s : State} (hs : s.o16 = false) (r : RegRef) (v : Word) :
    clearLatch (.next (State.set { s with o16 := true } r v)) = .next (s.set r v) := by
  rw [clearLatch, set_with_o16]
  congr 1
  dsimp only
  rw [← hs, ← State.set_o16 s r v]

/-- A written view holds any value that agrees with the written one modulo the view's size. -/
theorem wroteView_set {s : State} {r : RegRef} {v : Word} {n : Nat}
    (h : v.toNat % 2 ^ bits r.width = n % 2 ^ bits r.width) : WroteView s (s.set r v) r n := by
  obtain ⟨hget, hrest⟩ := Proofs.viewWritesDisturbNothingElse s r v
  exact ⟨hget.trans h, hrest⟩

end Sys2Proof.Machine

namespace Sys2Proof.Proofs

open Sys2Proof.Machine Sys2Proof.Claims

/-- Settles O2: the byte list supplies the encoding, and each handler decodes what the encoder wrote for it. -/
theorem decodeOfEncodeIsTheInstruction : Obligations.DecodeOfEncodeIsTheInstruction := by
  intro i rest hwf
  have hlen := length_encode_le i
  have hd := decode_encode hwf (supplies_fetchList (encode i) rest (by omega))
  have hip : ((0 : Word) + BitVec.ofNat 32 (encode i).length).toNat = (encode i).length := by
    rw [zero_add, BitVec.toNat_ofNat, Nat.mod_eq_of_lt (by omega)]
  simp only [decodeBytes, hd, hip, List.drop_left]

/-- Settles O3: along the decoder, every part takes exactly the bytes the encoder writes for what it answers. -/
theorem decodedBytesAreTheEncoding : Obligations.DecodedBytesAreTheEncoding := by
  intro bs rest i h
  unfold decodeBytes at h
  split at h
  · next ip hd =>
    cases h
    obtain ⟨hwf, ht⟩ := took_decode (by decide) hd
    exact ⟨hwf, ht.drop_eq⟩
  · cases h

/-- Settles O4: both fetch a SIB byte, if any, and then a displacement by `mod`, and add the same terms. -/
theorem resolvedOperandIsResolveEA : Obligations.ResolvedOperandIsResolveEA := by
  intro f s mod rm ip hmod
  rw [resolveEA_eq_decodeAddr hmod]
  cases decodeAddr f mod rm ip <;> rfl

/-- Settles O5: every shape of an operand takes the bytes of its row. -/
theorem operandTakesTheBytesOfTheTable : Obligations.OperandTakesTheBytesOfTheTable := by
  intro f m rm ip ip' h
  obtain ⟨hreg, -, rfl⟩ | ⟨hmem, a, -, ha⟩ := decodeRm_cases h
  · rw [hreg]
    exact (BitVec.add_zero ip').symm
  · exact cursor_of_decodeAddr hmem ha

/-- Settles O7: the store supplies the encoding to the fetch, which decodes it. -/
theorem stepRunsTheStoredInstruction : Obligations.StepRunsTheStoredInstruction :=
  fun _ _ hs hsize hwf h => step_of_decodeHere hs (decode_encode hwf (supplies_of_holds hsize h))

/-- Settles O26: the prefixed instruction is its body's meaning under the latch, and the latch cleared. -/
theorem prefixRunsItsInstructionUnderTheLatch : Obligations.PrefixRunsItsInstructionUnderTheLatch := by
  intro i s hi
  rw [exec_o16_eq hi]
  refine ⟨fun t ht => ?_, fun r hr => ?_⟩
  · rw [ht]
    rfl
  · rw [hr]
    rfl

/-- Settles O27: under the latch each of the three writes the 16-bit view, with a value that is right modulo 2^16. -/
theorem prefixedRegisterFormsKeepTheUpperHalf : Obligations.PrefixedRegisterFormsKeepTheUpperHalf := by
  intro s r hs
  have hw : bits (RegRef.r16 r).width = 16 := rfl
  refine ⟨fun imm => ⟨_, clearLatch_set hs (.r16 r) imm, wroteView_set rfl⟩,
    ⟨s.set (.r16 r) (Width.w16.trunc (s.get (.r16 r) + 1)), clearLatch_set hs _ _, wroteView_set ?_⟩,
    ⟨s.set (.r16 r) (Width.w16.trunc (s.get (.r16 r) - 1)), clearLatch_set hs _ _, wroteView_set ?_⟩⟩
  · rw [hw, toNat_trunc_w16, BitVec.toNat_add, show (1 : Word).toNat = 1 from rfl]
    omega
  · rw [hw, toNat_trunc_w16, BitVec.toNat_sub, show (1 : Word).toNat = 1 from rfl]
    omega

/-- Settles O1: each word is the encoding of its instruction. -/
theorem tableWordsDecode : Obligations.TableWordsDecode := by
  have hdec (i : Instr) (hwf : i.wf = true) : decodeBytes (encode i) = .ok (i, []) := by
    simpa using decodeOfEncodeIsTheInstruction i [] hwf
  exact ⟨hdec (.movRImm .eax 64) rfl, hdec (.o16 (.subRmImm8 (.reg .eax) 0xFF)) rfl,
    hdec (.addRm8R8 (.reg .al) .cl) rfl, hdec (.callRel 2) rfl, hdec (.popR .ebx) rfl, hdec (.intImm8 0x80) rfl⟩

end Sys2Proof.Proofs
end

section
/-! Proofs of the statements on 40_data_movement.md: what each form of MOV writes and what it leaves unchanged (R120 to
R127), from what reading and writing an operand location can do (20_memory.md R68). -/

namespace Sys2Proof.Machine

open Sys2Proof.Claims

/-! ### Operand locations that can be accessed (R68) -/

/-- A location that can be accessed reads as the value it holds. -/
theorem readLoc_of_reachable {s : State} {l : Loc} {w : Width} (h : Reachable s l w) :
    ∃ v, readLoc s l w = .ok v ∧ v.toNat = held s l w := by
  cases l with
  | reg r => exact ⟨s.get r, rfl, rfl⟩
  | mem a => exact ⟨_, memRead_eq_ok.2 ⟨h, rfl⟩, toNat_leWord_bytes_eq_storeValue s.mem a.toNat w⟩

/-- A location that can be accessed takes the value written to it, and nothing else changes. -/
theorem writeLoc_of_reachable {s : State} {l : Loc} {w : Width} (hm : s.mem.wf) (h : Reachable s l w) (v : Word) :
    ∃ t, writeLoc l w v s = .ok t ∧ Wrote s t l w v.toNat := by
  cases l with
  | reg r => exact ⟨s.set r v, rfl, wroteView_set rfl⟩
  | mem a => exact ⟨_, memWrite_eq_ok.2 ⟨h, rfl⟩, stored_writeBytes_leBytes hm a.toNat w.bytes v.toNat, rfl⟩

/-! ### The ways MOV completes -/

/-- A meaning whose operation succeeds answers the state it gave. -/
theorem exists_finish_eq_next {x : Except Fault State} {P : State → Prop} (h : ∃ t, x = .ok t ∧ P t) :
    ∃ t, finish x = .next t ∧ P t := by
  simpa only [finish_eq_next] using h

/-- MOV to a location that can be accessed. -/
theorem finish_writeLoc_of_reachable {s : State} {l : Loc} {w : Width} (hm : s.mem.wf) (h : Reachable s l w)
    (v : Word) : ∃ t, finish (writeLoc l w v s) = .next t ∧ Wrote s t l w v.toNat :=
  exists_finish_eq_next (writeLoc_of_reachable hm h v)

/-- MOV to a register view from a location that can be accessed. -/
theorem finish_movToReg_of_reachable {s : State} {l : Loc} {w : Width} (h : Reachable s l w) (r : RegRef) :
    ∃ t, finish (movToReg r l w s) = .next t ∧ WroteView s t r (held s l w) := by
  obtain ⟨v, hread, hv⟩ := readLoc_of_reachable h
  exact exists_finish_eq_next ⟨s.set r v, movToReg_eq_ok.2 ⟨v, hread, rfl⟩, wroteView_set (by rw [hv])⟩

end Sys2Proof.Machine

namespace Sys2Proof.Proofs

open Sys2Proof.Machine Sys2Proof.Claims

/-- Settles O28: both forms are one write of a view, the second of the view the latch selects. -/
theorem movWritesItsImmediate : Obligations.MovWritesItsImmediate := by
  intro s
  refine ⟨fun r imm => ⟨s.set (.r8 r) (imm.setWidth 32), rfl, wroteView_set ?_⟩,
    fun r imm => ⟨s.set (s.wideRef r) imm, rfl, wroteView_set rfl⟩⟩
  rw [BitVec.toNat_setWidth_of_le (by decide)]

/-- Settles O29: every form is one write to its location, of an immediate or of what a register view shows. -/
theorem movStoresItsSource : Obligations.MovStoresItsSource := by
  intro s hm
  refine ⟨fun rm imm h => ?_, fun rm imm h => finish_writeLoc_of_reachable hm h imm,
    fun rm r h => finish_writeLoc_of_reachable hm h (s.get (.r8 r)),
    fun rm r h => finish_writeLoc_of_reachable hm h (s.get (s.wideRef r))⟩
  have himm : (imm.setWidth 32).toNat = imm.toNat := BitVec.toNat_setWidth_of_le (by decide)
  exact himm ▸ finish_writeLoc_of_reachable hm h (imm.setWidth 32)

/-- Settles O30: both forms read their location, then write the register view. -/
theorem movLoadsItsSource : Obligations.MovLoadsItsSource :=
  fun s => ⟨fun r _ h => finish_movToReg_of_reachable h (.r8 r),
    fun r _ h => finish_movToReg_of_reachable h (s.wideRef r)⟩

end Sys2Proof.Proofs
end

section
/-! Proofs of the statements on 41_arithmetic.md: the wrapped results and the flags of the ALU (R140 to R142), what ADD
and SUB write (R143 to R159), and how INC and DEC count (R161, R162). -/

namespace Sys2Proof.Machine

open Sys2Proof.Claims

/-! ### Values modulo a width (R12) -/

theorem two_pow_bits_dvd (w : Width) : 2 ^ bits w ∣ 2 ^ 32 := by
  have := w.bytes_le
  exact Nat.pow_dvd_pow 2 (by unfold bits; omega)

theorem one_lt_two_pow_bits (w : Width) : 1 < 2 ^ bits w := by cases w <;> decide

theorem toNat_trunc_eq_mod (w : Width) (v : Word) : (w.trunc v).toNat = v.toNat % 2 ^ bits w := Width.toNat_trunc w v

theorem toNat_trunc_add (w : Width) (a b : Word) : (w.trunc (a + b)).toNat = (a.toNat + b.toNat) % 2 ^ bits w := by
  rw [toNat_trunc_eq_mod, BitVec.toNat_add]
  exact Nat.mod_mod_of_dvd _ (two_pow_bits_dvd w)

/-- The difference modulo 2^32, cut to the width, is the difference modulo the width. -/
theorem toNat_trunc_sub (w : Width) (a : Word) {b : Word} (hb : b.toNat < 2 ^ bits w) :
    (w.trunc (a - b)).toNat = (a.toNat + (2 ^ bits w - b.toNat)) % 2 ^ bits w := by
  obtain ⟨k, hk⟩ := two_pow_bits_dvd w
  have hdrop : 2 ^ 32 - b.toNat + a.toNat = a.toNat + (2 ^ bits w - b.toNat) + 2 ^ bits w * (k - 1) := by
    cases k with
    | zero => simp at hk
    | succ k =>
      rw [hk, Nat.mul_succ, Nat.add_sub_cancel]
      omega
  calc (w.trunc (a - b)).toNat
      = (2 ^ 32 - b.toNat + a.toNat) % 2 ^ 32 % 2 ^ bits w := by rw [toNat_trunc_eq_mod, BitVec.toNat_sub]
    _ = (2 ^ 32 - b.toNat + a.toNat) % 2 ^ bits w := Nat.mod_mod_of_dvd _ (two_pow_bits_dvd w)
    _ = (a.toNat + (2 ^ bits w - b.toNat)) % 2 ^ bits w := by rw [hdrop, Nat.add_mul_mod_self_left]

/-- A sum of two values below `m` wraps exactly when it comes out below the first. -/
theorem add_mod_lt_left_iff {m a b : Nat} (ha : a < m) (hb : b < m) : (a + b) % m < a ↔ m ≤ a + b := by
  by_cases h : m ≤ a + b
  · rw [Nat.mod_eq_sub_mod h, Nat.mod_eq_of_lt (by omega)]
    omega
  · rw [Nat.mod_eq_of_lt (by omega)]
    omega

/-- The difference of two values below `m` is 0 modulo `m` exactly when they are equal. -/
theorem add_sub_mod_eq_zero_iff {m a b : Nat} (ha : a < m) (hb : b < m) : (a + (m - b)) % m = 0 ↔ a = b := by
  by_cases h : b ≤ a
  · rw [Nat.mod_eq_sub_mod (by omega), Nat.mod_eq_of_lt (by omega)]
    omega
  · rw [Nat.mod_eq_of_lt (by omega)]
    omega

/-! ### The ALU (R140 to R142) -/

theorem toNat_aluAdd (w : Width) (a b : Word) : (aluAdd w a b).1.toNat = sum w a.toNat b.toNat :=
  toNat_trunc_add w a b

theorem carry_aluAdd {w : Width} {a b : Word} (ha : a.toNat < 2 ^ bits w) (hb : b.toNat < 2 ^ bits w) :
    (aluAdd w a b).2 = decide (2 ^ bits w ≤ a.toNat + b.toNat) := by
  simp only [aluAdd, toNat_trunc_add, add_mod_lt_left_iff ha hb]

theorem toNat_aluSub {w : Width} (a : Word) {b : Word} (hb : b.toNat < 2 ^ bits w) :
    (aluSub w a b).1.toNat = diff w a.toNat b.toNat := by
  rw [diff, Nat.add_comm, Nat.add_sub_assoc hb.le]
  exact toNat_trunc_sub w a hb

theorem carry_aluSub (w : Width) (a b : Word) : (aluSub w a b).2 = decide (a.toNat < b.toNat) := rfl

theorem aluSub_eq_zero_iff {w : Width} {a b : Word} (ha : a.toNat < 2 ^ bits w) (hb : b.toNat < 2 ^ bits w) :
    (aluSub w a b).1 = 0 ↔ a = b := by
  rw [← BitVec.toNat_inj, ← BitVec.toNat_inj, aluSub, toNat_trunc_sub w a hb]
  exact add_sub_mod_eq_zero_iff ha hb

theorem zfOf_eq_wantedZf (s : State) (a b r : Word) :
    zfOf s.cfg.zfMode a b r = wantedZf s a.toNat b.toNat r.toNat := by
  unfold zfOf wantedZf
  cases s.cfg.zfMode with
  | operandEquality => exact decide_eq_decide.2 BitVec.toNat_inj.symm
  | resultZero => exact decide_eq_decide.2 (BitVec.toNat_inj (y := 0)).symm

/-! ### The value a location holds -/

theorem storeValue_lt (m : Memory) (a : Nat) (w : Width) : storeValue m a w.bytes < 2 ^ bits w :=
  toNat_leWord_bytes_eq_storeValue m a w ▸ leWord_bytes_lt m a w

theorem held_loc8_lt (s : State) (rm : RM Reg8) : held s (s.loc8 rm) .w8 < 2 ^ bits .w8 := by
  cases rm with
  | reg r => exact s.get_lt (.r8 r)
  | mem a => exact storeValue_lt s.mem _ .w8

theorem get_wideRef_lt (s : State) (r : Reg) : (s.get (s.wideRef r)).toNat < 2 ^ bits s.width :=
  s.wideRef_width r ▸ s.get_lt (s.wideRef r)

theorem held_locW_lt (s : State) (rm : RM Reg) : held s (s.locW rm) s.width < 2 ^ bits s.width := by
  cases rm with
  | reg r => exact get_wideRef_lt s r
  | mem a => exact storeValue_lt s.mem _ s.width

/-! ### Immediates (R94) -/

theorem toNat_sextImm (w : Width) (imm : Byte) : (sextImm w imm).toNat = signExtended w imm := by
  have hdvd : ((2 ^ bits w : Nat) : Int) ∣ ((2 ^ 32 : Nat) : Int) := Int.natCast_dvd_natCast.2 (two_pow_bits_dvd w)
  have hsext : ((imm.signExtend 32).toNat : Int) = imm.toInt % (2 ^ 32 : Nat) := by
    rw [BitVec.signExtend, BitVec.toNat_ofInt]
    exact Int.toNat_of_nonneg (Int.emod_nonneg _ (by decide))
  have hcast : (((sextImm w imm).toNat : Nat) : Int) = imm.toInt % (2 ^ bits w : Nat) := by
    rw [sextImm, toNat_trunc_eq_mod, Int.natCast_emod, hsext]
    exact Int.emod_emod_of_dvd _ hdvd
  rw [signExtended, ← Int.toNat_natCast (sextImm w imm).toNat, hcast, Nat.cast_pow, Nat.cast_ofNat]

theorem toNat_setWidth_byte (imm : Byte) : (imm.setWidth 32).toNat = imm.toNat :=
  BitVec.toNat_setWidth_of_le (by decide)

/-- Extended from 8 bits and cut to 8 bits again, an immediate is itself. -/
theorem toNat_sextImm_w8 (imm : Byte) : (sextImm .w8 imm).toNat = imm.toNat := by
  have hself : (imm.signExtend 32).setWidth 8 = imm := by
    ext i hi
    simp [BitVec.getElem_signExtend, hi, show i < 32 by omega]
  rw [sextImm, Width.trunc, hself]
  exact toNat_setWidth_byte imm

/-! ### An ALU result written with its flags (R143 to R159) -/

/-- `t` is `s` after writing the ALU's answer `x` for the operands `a` and `b`: the result in `l`, CF the ALU's, ZF by
ZF_MODE, and nothing else changed. -/
def WroteAlu (s t : State) (l : Loc) (w : Width) (a b : Word) (x : Word × Bool) : Prop :=
  FlagsAre s t x.2 (wantedZf s a.toNat b.toNat x.1.toNat) ∧ Wrote s { t with flags := s.flags } l w x.1.toNat

theorem WroteAlu.added {s t : State} {l : Loc} {w : Width} {a b : Word} (h : WroteAlu s t l w a b (aluAdd w a b))
    (ha : a.toNat < 2 ^ bits w) (hb : b.toNat < 2 ^ bits w) : Added s t l w a.toNat b.toNat := by
  rwa [WroteAlu, carry_aluAdd ha hb, toNat_aluAdd] at h

theorem WroteAlu.subtracted {s t : State} {l : Loc} {w : Width} {a b : Word}
    (h : WroteAlu s t l w a b (aluSub w a b)) (hb : b.toNat < 2 ^ bits w) : Subtracted s t l w a.toNat b.toNat := by
  rwa [WroteAlu, carry_aluSub, toNat_aluSub a hb] at h

theorem flags_of_wrote {s t : State} {l : Loc} {w : Width} {v : Nat} (h : Wrote s t l w v) : t.flags = s.flags := by
  cases l with
  | reg r =>
    obtain ⟨-, -, -, hframe⟩ := h
    rw [hframe]
  | mem a =>
    obtain ⟨-, hframe⟩ := h
    rw [hframe]

theorem flagsAre_setCfZf {s u : State} (h : u.flags = s.flags) (c z : Bool) : FlagsAre s (u.setCfZf c z) c z := by
  have hbit := u.getLsbD_setCfZf c z
  refine ⟨hbit 0, hbit 6, fun i h0 h6 => ?_⟩
  rw [hbit, if_neg h0, if_neg h6, h]

/-- Writing the result, then CF and ZF: the flags do not touch what was written, and the write no flag. -/
theorem wroteAlu_setCfZf {s u : State} {l : Loc} {w : Width} {x : Word × Bool} (h : Wrote s u l w x.1.toNat)
    (a b : Word) : WroteAlu s (u.setCfZf x.2 (zfOf s.cfg.zfMode a b x.1)) l w a b x := by
  have hflags := flags_of_wrote h
  constructor
  · rw [← zfOf_eq_wantedZf]
    exact flagsAre_setCfZf hflags _ _
  · have hundo : { u.setCfZf x.2 (zfOf s.cfg.zfMode a b x.1) with flags := s.flags } = u := by rw [← hflags]; rfl
    rwa [hundo]

/-! ### The ways ADD and SUB complete -/

/-- ADD of a register to a location that can be accessed. -/
theorem finish_addToLoc_of_reachable {s : State} {l : Loc} {w : Width} {ref : RegRef} (hm : s.mem.wf)
    (h : Reachable s l w) (hl : held s l w < 2 ^ bits w) (href : (s.get ref).toNat < 2 ^ bits w) :
    ∃ t, finish (addToLoc l w ref s) = .next t ∧ Added s t l w (s.get ref).toNat (held s l w) := by
  obtain ⟨b, hread, hb⟩ := readLoc_of_reachable h
  obtain ⟨u, hwrite, hu⟩ := writeLoc_of_reachable hm h (aluAdd w (s.get ref) b).1
  rw [← hb] at hl ⊢
  exact exists_finish_eq_next
    ⟨_, addToLoc_eq_ok.2 ⟨b, u, hread, hwrite, rfl⟩, (wroteAlu_setCfZf hu _ b).added href hl⟩

/-- ADD of a location that can be accessed to a register. -/
theorem finish_addToReg_of_reachable {s : State} {l : Loc} {w : Width} {ref : RegRef} (h : Reachable s l w)
    (hl : held s l w < 2 ^ bits w) (href : (s.get ref).toNat < 2 ^ bits w) :
    ∃ t, finish (addToReg ref l w s) = .next t ∧ Added s t (.reg ref) w (s.get ref).toNat (held s l w) := by
  obtain ⟨b, hread, hb⟩ := readLoc_of_reachable h
  have hu : Wrote s (s.set ref (aluAdd w (s.get ref) b).1) (.reg ref) w (aluAdd w (s.get ref) b).1.toNat :=
    wroteView_set rfl
  rw [← hb] at hl ⊢
  exact exists_finish_eq_next ⟨_, addToReg_eq_ok.2 ⟨b, hread, rfl⟩, (wroteAlu_setCfZf hu _ b).added href hl⟩

/-- Writing what `alu` answers for operands of the width is what `Result` says. -/
def AluMeets (alu : Width → Word → Word → Word × Bool) (Result : State → State → Loc → Width → Nat → Nat → Prop) :
    Prop :=
  ∀ (s t : State) (l : Loc) (w : Width) (a b : Word), a.toNat < 2 ^ bits w → b.toNat < 2 ^ bits w →
    WroteAlu s t l w a b (alu w a b) → Result s t l w a.toNat b.toNat

theorem aluAdd_meets_added : AluMeets aluAdd Added := fun _ _ _ _ _ _ ha hb h => h.added ha hb

theorem aluSub_meets_subtracted : AluMeets aluSub Subtracted := fun _ _ _ _ _ _ _ hb h => h.subtracted hb

section
variable {alu : Width → Word → Word → Word × Bool} {Result : State → State → Loc → Width → Nat → Nat → Prop} {s : State}

/-- The group 80-83 on a location that can be accessed and an immediate of value `n`. -/
theorem finish_group1_of_reachable (halu : AluMeets alu Result) {l : Loc} {w : Width} {imm : Word} {n : Nat}
    (hm : s.mem.wf) (h : Reachable s l w) (hl : held s l w < 2 ^ bits w) (himm : imm.toNat = n)
    (hn : n < 2 ^ bits w) : ∃ t, finish (group1 alu l w imm s) = .next t ∧ Result s t l w (held s l w) n := by
  obtain ⟨a, hread, ha⟩ := readLoc_of_reachable h
  obtain ⟨u, hwrite, hu⟩ := writeLoc_of_reachable hm h (alu w a imm).1
  subst himm
  rw [← ha] at hl ⊢
  exact exists_finish_eq_next
    ⟨_, group1_eq_ok.2 ⟨a, u, hread, hwrite, rfl⟩, halu s _ l w a imm hl hn (wroteAlu_setCfZf hu a imm)⟩

/-- 80 and 82 with one sub-opcode: both hand the ALU the immediate's own value. -/
theorem finish_group1_loc8 (halu : AluMeets alu Result) (hm : s.mem.wf) {rm : RM Reg8}
    (h : Reachable s (s.loc8 rm) .w8) {v : Word} {imm : Byte} (hv : v.toNat = imm.toNat) :
    ∃ t, finish (group1 alu (s.loc8 rm) .w8 v s) = .next t ∧
      Result s t (s.loc8 rm) .w8 (held s (s.loc8 rm) .w8) imm.toNat :=
  finish_group1_of_reachable halu hm h (held_loc8_lt s rm) hv imm.isLt

/-- 81 with one sub-opcode: the immediate is cut to the operand size. -/
theorem finish_group1_locW (halu : AluMeets alu Result) (hm : s.mem.wf) {rm : RM Reg}
    (h : Reachable s (s.locW rm) s.width) (imm : Word) :
    ∃ t, finish (group1 alu (s.locW rm) s.width (s.width.trunc imm) s) = .next t ∧
      Result s t (s.locW rm) s.width (held s (s.locW rm) s.width) (imm.toNat % 2 ^ bits s.width) :=
  finish_group1_of_reachable halu hm h (held_locW_lt s rm) (toNat_trunc_eq_mod s.width imm)
    (Nat.mod_lt _ (Nat.two_pow_pos _))

/-- 83 with one sub-opcode: the immediate is sign-extended to the operand size. -/
theorem finish_group1_locW_sext (halu : AluMeets alu Result) (hm : s.mem.wf) {rm : RM Reg}
    (h : Reachable s (s.locW rm) s.width) (imm : Byte) :
    ∃ t, finish (group1 alu (s.locW rm) s.width (sextImm s.width imm) s) = .next t ∧
      Result s t (s.locW rm) s.width (held s (s.locW rm) s.width) (signExtended s.width imm) :=
  finish_group1_of_reachable halu hm h (held_locW_lt s rm) (toNat_sextImm s.width imm)
    (toNat_sextImm s.width imm ▸ Width.trunc_lt s.width _)

end

/-! ### Counting (R161, R162) -/

/-- A value cut to the operand size, written to a view of that size. -/
theorem wroteView_set_trunc {s : State} {r : Reg} {v : Word} {n : Nat}
    (h : (s.width.trunc v).toNat = n % 2 ^ bits s.width) :
    WroteView s (s.set (s.wideRef r) (s.width.trunc v)) (s.wideRef r) n :=
  wroteView_set (by rw [h, s.wideRef_width, Nat.mod_mod])

end Sys2Proof.Machine

namespace Sys2Proof.Proofs

open Sys2Proof.Machine Sys2Proof.Claims

/-- Settles O23: the carry is the comparison, which holds exactly when the sum wraps. -/
theorem aluAddWrapsAndCarries : Obligations.AluAddWrapsAndCarries := by
  intro w a b ha hb
  refine ⟨toNat_aluAdd w a b, rfl, ?_⟩
  rw [carry_aluAdd ha hb]
  exact decide_eq_true_iff

/-- Settles O24: the difference modulo the width, and the borrow by its definition. -/
theorem aluSubWrapsAndBorrows : Obligations.AluSubWrapsAndBorrows := by
  intro w a b _ hb
  refine ⟨?_, decide_eq_true_iff⟩
  rw [Nat.add_sub_assoc hb.le]
  exact toNat_trunc_sub w a hb

/-- Settles O25: a difference is zero exactly for equal operands; the sum of FF and 01 is zero without them equal. -/
theorem zfModesAgreeForSubtraction : Obligations.ZfModesAgreeForSubtraction := by
  refine ⟨fun _ _ _ => rfl, fun _ _ _ => rfl, fun w a b ha hb => ?_, by decide, by decide⟩
  exact decide_eq_decide.2 (aluSub_eq_zero_iff ha hb).symm

/-- Settles O32: both forms read their location and write the sum back to it. -/
theorem addToOperandAddsAndSetsFlags : Obligations.AddToOperandAddsAndSetsFlags :=
  fun s hm =>
    ⟨fun rm r h => finish_addToLoc_of_reachable hm h (held_loc8_lt s rm) (s.get_lt (.r8 r)),
      fun rm r h => finish_addToLoc_of_reachable hm h (held_locW_lt s rm) (get_wideRef_lt s r)⟩

/-- Settles O33: both forms read their location and write the sum to the register. -/
theorem addToRegisterAddsAndSetsFlags : Obligations.AddToRegisterAddsAndSetsFlags :=
  fun s =>
    ⟨fun r rm h => finish_addToReg_of_reachable h (held_loc8_lt s rm) (s.get_lt (.r8 r)),
      fun r rm h => finish_addToReg_of_reachable h (held_locW_lt s rm) (get_wideRef_lt s r)⟩

/-- Settles O34: the group 80-83 with the ALU's addition. -/
theorem addImmediateAddsAndSetsFlags : Obligations.AddImmediateAddsAndSetsFlags :=
  fun _ hm =>
    ⟨fun _ imm h => ⟨finish_group1_loc8 aluAdd_meets_added hm h (toNat_setWidth_byte imm),
        finish_group1_loc8 aluAdd_meets_added hm h (toNat_sextImm_w8 imm)⟩,
      fun _ imm h => finish_group1_locW aluAdd_meets_added hm h imm,
      fun _ imm h => finish_group1_locW_sext aluAdd_meets_added hm h imm⟩

/-- Settles O35: the group 80-83 with the ALU's subtraction. -/
theorem subImmediateSubtractsAndSetsFlags : Obligations.SubImmediateSubtractsAndSetsFlags :=
  fun _ hm =>
    ⟨fun _ imm h => ⟨finish_group1_loc8 aluSub_meets_subtracted hm h (toNat_setWidth_byte imm),
        finish_group1_loc8 aluSub_meets_subtracted hm h (toNat_sextImm_w8 imm)⟩,
      fun _ imm h => finish_group1_locW aluSub_meets_subtracted hm h imm,
      fun _ imm h => finish_group1_locW_sext aluSub_meets_subtracted hm h imm⟩

/-- Settles O36: sub-opcode 7 has the meaning of sub-opcode 5, write-back included (D7). -/
theorem subOpcodeSevenSubtractsAndWritesBack : Obligations.SubOpcodeSevenSubtractsAndWritesBack :=
  subImmediateSubtractsAndSetsFlags

/-- Settles O37: both write the view of the operand size, with a value that is right modulo that size. -/
theorem incAndDecCountModuloTheirSize : Obligations.IncAndDecCountModuloTheirSize :=
  fun s r =>
    ⟨⟨_, rfl, wroteView_set_trunc (toNat_trunc_add s.width (s.get (s.wideRef r)) 1)⟩,
      ⟨_, rfl, wroteView_set_trunc (toNat_trunc_sub s.width (s.get (s.wideRef r)) (one_lt_two_pow_bits s.width))⟩⟩

end Sys2Proof.Proofs
end

section
/-! Proofs of the statements on 42_control_transfer.md: where each transfer goes (R181 to R187, R190), what CALL pushes
and RET pops (R185, R189), from what one push and one pop do (43_stack.md R200, R201). -/

namespace Sys2Proof.Machine

open Sys2Proof.Claims

/-! ### Targets (R180, R190) -/

/-- Cutting to the operand size is the mask of R190. -/
theorem trunc_width_eq_masked (s : State) (v : Word) : s.width.trunc v = masked s v := by
  cases h : s.o16 with
  | false => simp [State.width, immWidth, masked, Width.trunc, h]
  | true => simpa [State.width, immWidth, masked, h] using trunc_w16_eq_and v

/-- Extending from the operand size is the displacement of R95. -/
theorem targetS_eq (s : State) (rel : Word) : s.targetS rel = s.ip + displacement s rel := by
  cases h : s.o16 <;> simp [State.targetS, State.width, immWidth, displacement, Width.sext, h]

theorem jumpS_eq_jump_masked (s : State) (target : Word) : s.jumpS target = s.jump (masked s target) :=
  congrArg s.jump (trunc_width_eq_masked s target)

/-! ### One push and one pop (R200, R201) -/

/-- A push whose slot lies inside the store succeeds. -/
theorem push_of_canPush {s : State} (hm : s.mem.wf) (h : CanPush s) (v : Word) :
    ∃ t, push v s = .ok t ∧ Pushed s t v.toNat :=
  ⟨_, push_eq_ok.2 ⟨h, rfl⟩, State.reg_setReg_self s _ _, fun _ hq => State.reg_setReg_of_ne s _ hq,
    stored_writeBytes_leBytes hm _ _ _, rfl⟩

/-- A pop whose slot lies inside the store succeeds, with the value stored there. -/
theorem pop_of_slotInside {s : State} (h : SlotInside s (s.reg .esp)) :
    ∃ v, pop s = .ok (v, s.setReg .esp (s.reg .esp + s.stackStep)) ∧
      v.toNat = storeValue s.mem (s.reg .esp).toNat s.width.bytes :=
  ⟨_, pop_eq_ok.2 ⟨h, rfl, rfl⟩, toNat_leWord_bytes_eq_storeValue s.mem _ s.width⟩

/-- A pop undoes a push: it answers the value pushed, cut to the operand size, and restores every register. -/
theorem pop_of_push {s t : State} {v : Word} (hm : s.mem.wf) (h : push v s = .ok t) :
    pop t = .ok (s.width.trunc v, { s with mem := t.mem }) := by
  obtain ⟨hin, ht⟩ := push_eq_ok.1 h
  have hesp : t.reg .esp = s.reg .esp - s.stackStep := by simp [ht, State.reg_eq]
  refine pop_eq_ok.2 ?_
  rw [hesp, ht]
  refine ⟨hin, (leWord_bytes_writeBytes hm _ s.width v).symm, ?_⟩
  simp only [State.setReg, State.stackStep, State.width, Regs.set_set, sub_add_cancel, State.reg_eq, Regs.set_get_self]

/-- IP plays no part in a pop. -/
theorem pop_jump {s t : State} {v : Word} (a : Word) (h : pop s = .ok (v, t)) : pop (s.jump a) = .ok (v, t.jump a) := by
  obtain ⟨hin, rfl, rfl⟩ := pop_eq_ok.1 h
  exact pop_eq_ok.2 ⟨hin, rfl, rfl⟩

/-! ### LOOP (R183) -/

/-- The count LOOP writes is zero exactly when ECX was one. -/
theorem exec_loopRel8_eq (s : State) (rel : Byte) :
    exec (.loopRel8 rel) s = .next ((s.setReg .ecx (s.reg .ecx - 1)).jump
      (if s.reg .ecx = 1 then s.ip else s.ip + rel.signExtend 32)) := by
  have hzero : s.reg .ecx - 1 = 0 ↔ s.reg .ecx = 1 := sub_eq_zero
  refine congrArg Host.Outcome.next ?_
  simp only [hzero]
  split <;> rfl

/-! ### CALL and RET (R185, R189) -/

/-- CALL is a push of the next address and a jump to its target. -/
theorem exec_callRel_eq_next {s t : State} {rel : Word} :
    exec (.callRel rel) s = .next t ↔
      ∃ u, push s.ip s = .ok u ∧ t = u.jump (masked s (s.ip + displacement s rel)) := by
  refine finish_eq_next.trans (bind_eq_ok.trans (exists_congr fun u => and_congr_right fun hu => ?_))
  have hmask : masked u (s.targetS rel) = masked s (s.ip + displacement s rel) := by
    rw [push_frame hu, targetS_eq]
    rfl
  rw [← hmask, ← jumpS_eq_jump_masked, eq_comm (a := t)]
  exact ⟨Except.ok.inj, congrArg Except.ok⟩

/-- RET from a state that can pop jumps to the value popped. -/
theorem exec_ret_of_pop {s t : State} {v : Word} (h : pop s = .ok (v, t)) : exec .ret s = .next (t.jump v) :=
  finish_eq_next.2 (bind_eq_ok.2 ⟨(v, t), h, rfl⟩)

end Sys2Proof.Machine

namespace Sys2Proof.Proofs

open Sys2Proof.Machine Sys2Proof.Claims

/-- Settles O39: the count is written to the whole slot, whatever the latch. -/
theorem loopDecrementsEcxAndJumps : Obligations.LoopDecrementsEcxAndJumps := by
  intro s rel
  exact ⟨_, exec_loopRel8_eq s rel, State.reg_setReg_self s .ecx _, fun _ hq => State.reg_setReg_of_ne s _ hq, rfl, rfl⟩

/-- Settles O40: the push succeeds and leaves IP for the jump to write. -/
theorem callPushesTheNextAddressAndJumps : Obligations.CallPushesTheNextAddressAndJumps := by
  intro s rel hm hcan
  obtain ⟨u, hu, hpushed⟩ := push_of_canPush hm hcan s.ip
  refine ⟨_, exec_callRel_eq_next.2 ⟨u, hu, rfl⟩, ?_, rfl⟩
  have hip : u.ip = s.ip := by rw [push_frame hu]
  have hback : { u.jump (masked s (s.ip + displacement s rel)) with ip := s.ip } = u := by rw [← hip]; rfl
  rwa [hback]

/-- Settles O42: the pop succeeds, and IP takes its value. -/
theorem retPopsIp : Obligations.RetPopsIp := by
  intro s hin
  obtain ⟨v, hpop, hv⟩ := pop_of_slotInside hin
  exact ⟨_, exec_ret_of_pop hpop, hv, State.reg_setReg_self s .esp _, fun _ hq => State.reg_setReg_of_ne s _ hq, rfl⟩

/-- Settles O43: CALL's push is undone by RET's pop, from any IP. -/
theorem retReturnsAfterTheCall : Obligations.RetReturnsAfterTheCall := by
  intro s t rel ip hm hcall
  obtain ⟨u, hu, rfl⟩ := exec_callRel_eq_next.1 hcall
  have hpop := pop_jump ip (pop_of_push hm hu)
  exact ⟨_, exec_ret_of_pop hpop, trunc_width_eq_masked s s.ip, rfl⟩

/-- Settles O38: each jump on either value of ZF. -/
theorem conditionalJumpsFollowZf : Obligations.ConditionalJumpsFollowZf := by
  intro s rel
  refine ⟨congrArg Host.Outcome.next ?_, congrArg Host.Outcome.next ?_⟩
  · split <;> rfl
  · split <;> rfl

/-- Settles O41: both forms jump to their target, masked. -/
theorem jumpsWriteIpAlone : Obligations.JumpsWriteIpAlone :=
  fun s =>
    ⟨fun rel => congrArg Host.Outcome.next ((jumpS_eq_jump_masked s _).trans (by rw [targetS_eq]; rfl)),
      fun rel => congrArg Host.Outcome.next (jumpS_eq_jump_masked s (s.target8 rel))⟩

end Sys2Proof.Proofs
end

section
/-! Proofs of the statements on 43_stack.md: what PUSH stores and POP loads (R202 to R205), what PUSHA and POPA do slot
by slot (R206, R207), and where a stack access past the store fails (R252). -/

namespace Sys2Proof.Machine

open Sys2Proof.Claims

/-! ### Slots of the stack (R200, R201) -/

theorem slotBelow_zero (s : State) : slotBelow s 0 = s.reg .esp := by simp [slotBelow]

theorem slotBelow_one (s : State) : slotBelow s 1 = s.reg .esp - s.stackStep := by
  rw [slotBelow, Nat.one_mul, State.stackStep]

theorem slotAbove_zero (s : State) : slotAbove s 0 = s.reg .esp := by simp [slotAbove]

theorem slotAbove_one (s : State) : slotAbove s 1 = s.reg .esp + s.stackStep := by
  rw [slotAbove, Nat.one_mul, State.stackStep]

theorem toNat_stackStep (s : State) : s.stackStep.toNat = s.width.bytes := by
  have := s.width.bytes_le
  exact (BitVec.toNat_ofNat _ _).trans (Nat.mod_eq_of_lt (by omega))

/-- `n` bytes from `a` and `n` bytes from `d` below `a` do not meet, whether or not the subtraction wraps. -/
theorem toNat_sub_ofNat_apart (a : Word) {n d : Nat} (hn : 0 < n) (hd : n ≤ d) (hwrap : d + n ≤ 2 ^ 32) :
    (a - BitVec.ofNat 32 d).toNat + n ≤ a.toNat ∨ a.toNat + n ≤ (a - BitVec.ofNat 32 d).toNat := by
  rw [BitVec.toNat_sub, BitVec.toNat_ofNat, Nat.mod_eq_of_lt (show d < 2 ^ 32 by omega)]
  omega

/-- A slot up to eight steps below ESP does not meet the slot at ESP. -/
theorem slotBelow_apart (s : State) {k : Nat} (hpos : 0 < k) (hk : k ≤ 8) :
    (slotBelow s k).toNat + s.width.bytes ≤ (s.reg .esp).toNat ∨
      (s.reg .esp).toNat + s.width.bytes ≤ (slotBelow s k).toNat := by
  have hbytes := s.width.bytes_le
  have hmul := Nat.mul_le_mul hk hbytes
  exact toNat_sub_ofNat_apart _ s.width.bytes_pos (Nat.le_mul_of_pos_left _ hpos) (by omega)

/-! ### A stack access past the store (R252) -/

theorem push_failsPastEnd {s : State} {v : Word} : FailsPastEnd s (slotBelow s 1) s.width (push v s) := by
  rw [slotBelow_one]
  exact memWrite_failsPastEnd.bind (by nofun)

theorem pop_failsPastEnd {s : State} : FailsPastEnd s (s.reg .esp) s.width (pop s) :=
  memRead_failsPastEnd.bind (by nofun)

theorem FailsPastEnd.eq_error {α : Type} {s : State} {a : Word} {x : Except Fault α}
    (hx : FailsPastEnd s a s.width x) (h : ¬ SlotInside s a) : x = .error (.outOfBounds a) :=
  (hx _).2 ⟨Nat.lt_of_not_le h, rfl⟩

/-- An instruction whose stack access leaves the store fails at the slot, if nothing after the access can fail. -/
theorem FailsPastEnd.finish_bind_eq_fault {α : Type} {s : State} {a : Word} {x : Except Fault α}
    {f : α → Except Fault State} (hx : FailsPastEnd s a s.width x) (h : ¬ SlotInside s a) :
    finish (x >>= f) = .fault (.outOfBounds a) := by
  rw [hx.eq_error h]
  rfl

/-! ### What a push stores (R202 to R205) -/

theorem two_pow_bits_eq (w : Width) : 2 ^ bits w = 256 ^ w.bytes := Nat.pow_mul 2 8 w.bytes

/-- The low bytes of a value do not see what lies above them. -/
theorem leBytes_mod (n v : Nat) : leBytes n (v % 256 ^ n) = leBytes n v := by
  simpa [leNat_leBytes] using leBytes_leNat (leBytes n v)

/-- What is stored depends on the value modulo what the bytes can hold. -/
theorem stored_congr {s t : State} {a n v v' : Nat} (h : Stored s t a n v) (hv : v % 256 ^ n = v' % 256 ^ n) :
    Stored s t a n v' := by
  obtain ⟨hin, hout⟩ := h
  refine ⟨fun k hk => ?_, hout⟩
  have hbytes : leBytes n v = leBytes n v' := by rw [← leBytes_mod n v, hv, leBytes_mod]
  rw [hin k hk, ← getD_leBytes n v k hk, hbytes, getD_leBytes n v' k hk]

/-- PUSH of a value that agrees with `n` modulo the operand size, where the slot lies inside the store. -/
theorem finish_push_of_canPush {s : State} {v : Word} {n : Nat} (hm : s.mem.wf) (h : CanPush s)
    (hv : v.toNat % 2 ^ bits s.width = n % 2 ^ bits s.width) :
    ∃ t, finish (push v s) = .next t ∧ Pushed s t n := by
  obtain ⟨t, ht, hesp, hreg, hstored, hframe⟩ := push_of_canPush hm h v
  rw [two_pow_bits_eq] at hv
  exact ⟨t, finish_eq_next.2 ht, hesp, hreg, stored_congr hstored hv, hframe⟩

theorem State.wideRef_start (s : State) (r : Reg) : (s.wideRef r).start = 0 := by
  unfold State.wideRef
  split <;> rfl

/-- The view that the operand size selects is the slot, cut to that size. -/
theorem State.get_wideRef (s : State) (r : Reg) : s.get (s.wideRef r) = s.width.trunc (s.reg r) := by
  rw [s.get_eq_trunc, s.wideRef_start, s.wideRef_width, s.wideRef_slot, BitVec.ushiftRight_zero]

/-- What PUSH pushes for a register: its slot, or for ESP by ESP_PUSH_VALUE the lowered one, cut to the operand size
(R202). -/
theorem pushValue_eq_trunc (s : State) (r : Reg) : s.pushValue r = s.width.trunc
    (if r = .esp ∧ s.cfg.espPushValue = .after then s.reg .esp - s.stackStep else s.reg r) := by
  unfold State.pushValue
  split
  · rfl
  · exact s.get_wideRef r

/-! ### What a pop loads (R203) -/

theorem exec_popR_of_pop {s t : State} {v : Word} (r : Reg) (h : pop s = .ok (v, t)) :
    exec (.popR r) s = .next (t.popInto r v) :=
  finish_eq_next.2 (bind_eq_ok.2 ⟨(v, t), h, rfl⟩)

/-- POP's write is one view's, of the popped value or, by POP_ESP_RESULT, that value plus the step. -/
theorem wroteView_popInto (s : State) (r : Reg) (v : Word) : WroteView s (s.popInto r v) (s.wideRef r)
    (v.toNat + if r = .esp ∧ s.cfg.popEspResult = .poppedPlusStep then s.width.bytes else 0) := by
  unfold State.popInto
  split
  · next h =>
    obtain ⟨rfl, -⟩ := h
    refine wroteView_set ?_
    rw [s.wideRef_width, ← toNat_trunc_eq_mod, toNat_trunc_add, toNat_stackStep]
  · exact wroteView_set rfl

/-- A view written with the slot it shows, cut to the operand size, changes nothing. -/
theorem set_wideRef_trunc_reg (s : State) (r : Reg) : s.set (s.wideRef r) (s.width.trunc (s.reg r)) = s := by
  rw [← s.get_wideRef, s.set_get_self]

/-! ### One push of PUSHA (R206) -/

section
variable {s u : State} {v : Word}

theorem exists_push_eq_ok (h : SlotInside s (slotBelow s 1)) (v : Word) : ∃ u, push v s = .ok u :=
  ⟨_, push_eq_ok.2 ⟨slotBelow_one s ▸ h, rfl⟩⟩

theorem width_of_push (h : push v s = .ok u) : u.width = s.width := by
  rw [push_frame h]
  rfl

theorem cfg_of_push (h : push v s = .ok u) : u.cfg = s.cfg := by rw [push_frame h]

theorem mem_wf_of_push (hm : s.mem.wf) (h : push v s = .ok u) : u.mem.wf := by
  rw [(push_eq_ok.1 h).2]
  exact Memory.writeBytes_wf hm _ _

theorem slotInside_iff_of_push (h : push v s = .ok u) (a : Word) : SlotInside u a ↔ SlotInside s a := by
  rw [SlotInside, width_of_push h, cfg_of_push h, SlotInside]

theorem esp_of_push (h : push v s = .ok u) : u.reg .esp = slotBelow s 1 := by
  rw [(push_eq_ok.1 h).2, slotBelow_one]
  exact Regs.get_set_self s.regs .esp _

theorem reg_of_push (h : push v s = .ok u) {q : Reg} (hq : q ≠ .esp) : u.reg q = s.reg q := by
  rw [(push_eq_ok.1 h).2]
  exact Regs.get_set_of_ne s.regs _ hq

/-- The slots below ESP after a push are those below it before the push, but the first. -/
theorem slotBelow_of_push (h : push v s = .ok u) (k : Nat) : slotBelow u k = slotBelow s (k + 1) := by
  rw [slotBelow, esp_of_push h, width_of_push h, slotBelow, slotBelow, sub_sub, ← BitVec.ofNat_add, ← Nat.add_mul,
    Nat.add_comm 1 k]

/-- A push changes no byte outside its slot. -/
theorem read_of_push (hm : s.mem.wf) (h : push v s = .ok u) {x : Nat}
    (hx : x < (slotBelow s 1).toNat ∨ (slotBelow s 1).toNat + s.width.bytes ≤ x) : u.mem.read x = s.mem.read x := by
  rw [slotBelow_one] at hx
  rw [(push_eq_ok.1 h).2]
  exact (stored_writeBytes_leBytes hm _ _ _).2 x hx

/-- The slot a push wrote holds the value pushed, cut to the operand size. -/
theorem storeValue_of_push (hm : s.mem.wf) (h : push v s = .ok u) :
    storeValue u.mem (slotBelow s 1).toNat s.width.bytes = (s.width.trunc v).toNat := by
  rw [← toNat_leWord_bytes_eq_storeValue, slotBelow_one, (push_eq_ok.1 h).2, leWord_bytes_writeBytes hm]

end

/-- A value in the store depends on its own bytes. -/
theorem storeValue_congr {m m' : Memory} {a n : Nat} (h : ∀ x, a ≤ x → x < a + n → m.read x = m'.read x) :
    storeValue m a n = storeValue m' a n :=
  (leNat_bytes m a n).symm.trans ((congrArg leNat (Memory.bytes_congr h)).trans (leNat_bytes m' a n))

/-- What PUSHA stores for a register `k` steps below its first ESP `esp0`, before cutting it to the operand size: for
ESP, ESP_PUSH_VALUE selects `esp0` or the slot's own address (R206, D17). -/
def pushaWord (s : State) (esp0 : Word) (r : Reg) (k : Nat) : Word :=
  if r = .esp then (if s.cfg.espPushValue = .after then slotBelow s k else esp0) else s.reg r

theorem pushaValue_eq_trunc (s : State) (esp0 : Word) (r : Reg) :
    s.pushaValue esp0 r = s.width.trunc (pushaWord s esp0 r 1) := by
  unfold State.pushaValue pushaWord
  split
  · cases s.cfg.espPushValue with
    | before => rfl
    | after => rw [if_pos rfl, slotBelow_one]
  · exact s.get_wideRef r

theorem pushaWord_of_push {s u : State} {v : Word} (h : push v s = .ok u) (esp0 : Word) (r : Reg) (k : Nat) :
    pushaWord u esp0 r k = pushaWord s esp0 r (k + 1) := by
  unfold pushaWord
  split
  · rw [cfg_of_push h, slotBelow_of_push h]
  · exact reg_of_push h ‹_›

/-! ### The pushes of PUSHA -/

/-- The pushes succeed exactly when every slot lies inside the store. -/
theorem exists_pushAll_eq_ok_iff {esp0 : Word} {rs : List Reg} {s : State} :
    (∃ t, pushAll esp0 rs s = .ok t) ↔ ∀ k < rs.length, SlotInside s (slotBelow s (k + 1)) := by
  induction rs generalizing s with
  | nil => exact ⟨fun _ k hk => absurd hk (Nat.not_lt_zero k), fun _ => ⟨s, rfl⟩⟩
  | cons r rs ih =>
    rw [List.length_cons, Nat.forall_lt_succ_left']
    have hstep {u : State} (hu : push (s.pushaValue esp0 r) s = .ok u) :
        (∃ t, pushAll esp0 rs u = .ok t) ↔ ∀ k < rs.length, SlotInside s (slotBelow s (k + 1 + 1)) := by
      simp only [ih, slotInside_iff_of_push hu, slotBelow_of_push hu]
    constructor
    · rintro ⟨t, ht⟩
      obtain ⟨u, hu, hrest⟩ := bind_eq_ok.1 ht
      exact ⟨slotBelow_one s ▸ (push_eq_ok.1 hu).1, (hstep hu).1 ⟨t, hrest⟩⟩
    · rintro ⟨hin, hrest⟩
      obtain ⟨u, hu⟩ := exists_push_eq_ok hin (s.pushaValue esp0 r)
      obtain ⟨t, ht⟩ := (hstep hu).2 hrest
      exact ⟨t, bind_eq_ok.2 ⟨_, hu, ht⟩⟩

/-- The first slot outside the store is where the pushes fail. -/
theorem pushAll_eq_error {esp0 : Word} {rs : List Reg} {s : State} {k : Nat} (hk : k < rs.length)
    (hin : ∀ j < k, SlotInside s (slotBelow s (j + 1))) (hout : ¬ SlotInside s (slotBelow s (k + 1))) :
    pushAll esp0 rs s = .error (.outOfBounds (slotBelow s (k + 1))) := by
  induction rs generalizing s k with
  | nil => exact absurd hk (Nat.not_lt_zero k)
  | cons r rs ih =>
    cases k with
    | zero => rw [pushAll, push_failsPastEnd.eq_error hout, error_bind]
    | succ k =>
      obtain ⟨u, hu⟩ := exists_push_eq_ok (hin 0 k.succ_pos) (s.pushaValue esp0 r)
      have hslot := slotBelow_of_push hu
      have hinside := slotInside_iff_of_push hu
      rw [pushAll, hu, ok_bind, ← hslot]
      refine ih (Nat.lt_of_succ_lt_succ hk) (fun j hj => ?_) ?_
      · rw [hinside, hslot]
        exact hin (j + 1) (Nat.succ_lt_succ hj)
      · rwa [hinside, hslot]

section
variable {esp0 : Word} {rs : List Reg} {s t : State}

/-- The pushes lower ESP by one step each. -/
theorem esp_of_pushAll (h : pushAll esp0 rs s = .ok t) : t.reg .esp = slotBelow s rs.length := by
  induction rs generalizing s with
  | nil =>
    obtain rfl := Except.ok.inj h
    exact (slotBelow_zero s).symm
  | cons r rs ih =>
    obtain ⟨u, hu, hrest⟩ := bind_eq_ok.1 h
    rw [ih hrest, slotBelow_of_push hu, List.length_cons]

theorem reg_of_pushAll (h : pushAll esp0 rs s = .ok t) {q : Reg} (hq : q ≠ .esp) : t.reg q = s.reg q :=
  (pushAll_changesOnly (fl := false) (ip := false) (List.mem_singleton_self _) h).reg_eq q (by simpa using hq)

/-- The address lies in none of the `n` slots below ESP. -/
def OutsideSlotsBelow (s : State) (n x : Nat) : Prop :=
  ∀ k < n, x < (slotBelow s (k + 1)).toNat ∨ (slotBelow s (k + 1)).toNat + s.width.bytes ≤ x

theorem OutsideSlotsBelow.of_push {u : State} {v : Word} {n x : Nat} (h : OutsideSlotsBelow s (n + 1) x)
    (hu : push v s = .ok u) : OutsideSlotsBelow u n x := by
  intro k hk
  rw [slotBelow_of_push hu, width_of_push hu]
  exact h (k + 1) (Nat.succ_lt_succ hk)

/-- The pushes change no byte outside their slots. -/
theorem read_of_pushAll (hm : s.mem.wf) (h : pushAll esp0 rs s = .ok t) {x : Nat}
    (hx : OutsideSlotsBelow s rs.length x) : t.mem.read x = s.mem.read x := by
  induction rs generalizing s with
  | nil =>
    obtain rfl := Except.ok.inj h
    rfl
  | cons r rs ih =>
    obtain ⟨u, hu, hrest⟩ := bind_eq_ok.1 h
    rw [ih (mem_wf_of_push hm hu) hrest (hx.of_push hu), read_of_push hm hu (hx 0 rs.length.succ_pos)]

/-- Eight pushes or fewer leave the slot at ESP as it was. -/
theorem storeValue_esp_of_pushAll (hm : s.mem.wf) (h : pushAll esp0 rs s = .ok t) (hlen : rs.length ≤ 8) :
    storeValue t.mem (s.reg .esp).toNat s.width.bytes = storeValue s.mem (s.reg .esp).toNat s.width.bytes := by
  refine storeValue_congr fun x hlow hhigh => read_of_pushAll hm h fun k hk => ?_
  have := slotBelow_apart s (k := k + 1) k.succ_pos (by omega)
  omega

/-- Each slot holds the word of its own register, cut to the operand size: the later pushes do not reach it. -/
theorem storeValue_of_pushAll (hm : s.mem.wf) (h : pushAll esp0 rs s = .ok t) (hlen : rs.length ≤ 8) {k : Nat}
    {r : Reg} (hr : rs[k]? = some r) : storeValue t.mem (slotBelow s (k + 1)).toNat s.width.bytes =
      (s.width.trunc (pushaWord s esp0 r (k + 1))).toNat := by
  induction rs generalizing s k with
  | nil => cases hr
  | cons q rs ih =>
    obtain ⟨u, hu, hrest⟩ := bind_eq_ok.1 h
    have hmu := mem_wf_of_push hm hu
    have hlen' : rs.length ≤ 8 := Nat.le_of_succ_le hlen
    cases k with
    | zero =>
      obtain rfl : q = r := Option.some.inj hr
      have hkept := storeValue_esp_of_pushAll hmu hrest hlen'
      rw [esp_of_push hu, width_of_push hu] at hkept
      rw [hkept, storeValue_of_push hm hu, pushaValue_eq_trunc, Width.trunc_trunc]
    | succ k =>
      have hslot := ih hmu hrest hlen' hr
      rwa [slotBelow_of_push hu, width_of_push hu, pushaWord_of_push hu] at hslot

end

/-! ### One pop of POPA (R207, D19) -/

/-- The word at ESP, of the operand size. -/
def wordAtEsp (s : State) : Word := leWord (s.mem.bytes (s.reg .esp).toNat s.width.bytes)

/-- The state after POPA's pop for `r`: ESP raised by the step and, unless `r` is ESP, the view of `r` written. -/
def popaSlot (s : State) (r : Reg) : State :=
  let t := s.setReg .esp (s.reg .esp + s.stackStep)
  if r = .esp then t else t.set (s.wideRef r) (wordAtEsp s)

theorem popAll_cons_of_slotInside {r : Reg} {rs : List Reg} {s : State} (h : SlotInside s (s.reg .esp)) :
    popAll (r :: rs) s = popAll rs (popaSlot s r) := by
  rw [popAll, pop_eq_ok.2 ⟨h, rfl, rfl⟩]
  rfl

section
variable (s : State) (r : Reg)

theorem popaSlot_frame : popaSlot s r = { s with regs := (popaSlot s r).regs } := by
  unfold popaSlot
  dsimp only
  split
  · rfl
  · exact State.set_eq _ _ _

theorem width_popaSlot : (popaSlot s r).width = s.width := by
  rw [popaSlot_frame]
  rfl

theorem wideRef_popaSlot (q : Reg) : (popaSlot s r).wideRef q = s.wideRef q := by
  rw [popaSlot_frame]
  rfl

theorem slotInside_popaSlot_iff (a : Word) : SlotInside (popaSlot s r) a ↔ SlotInside s a := by
  rw [popaSlot_frame]
  rfl

theorem mem_popaSlot : (popaSlot s r).mem = s.mem := by rw [popaSlot_frame]

theorem esp_popaSlot : (popaSlot s r).reg .esp = slotAbove s 1 := by
  rw [slotAbove_one]
  unfold popaSlot
  dsimp only
  split
  · exact State.reg_setReg_self s .esp _
  · next hr =>
    rw [State.reg_set_of_ne _ _ _ (by rw [s.wideRef_slot]; exact Ne.symm hr), State.reg_setReg_self]

theorem reg_popaSlot_of_ne {q : Reg} (hq : q ≠ .esp) (hne : q ≠ r) : (popaSlot s r).reg q = s.reg q := by
  unfold popaSlot
  dsimp only
  split
  · exact State.reg_setReg_of_ne s _ hq
  · rw [State.reg_set_of_ne _ _ _ (by rwa [s.wideRef_slot]), State.reg_setReg_of_ne s _ hq]

/-- The slots above ESP after a pop are those above it before the pop, but the first. -/
theorem slotAbove_popaSlot (k : Nat) : slotAbove (popaSlot s r) k = slotAbove s (k + 1) := by
  rw [slotAbove, esp_popaSlot, width_popaSlot, slotAbove, slotAbove, add_assoc, ← BitVec.ofNat_add, ← Nat.add_mul,
    Nat.add_comm 1 k]

end

/-! ### The pops of POPA -/

/-- Where every slot lies inside the store, the pops succeed one after the other. -/
theorem popAll_eq_foldl {rs : List Reg} {s : State} (h : ∀ k < rs.length, SlotInside s (slotAbove s k)) :
    popAll rs s = .ok (rs.foldl popaSlot s) := by
  induction rs generalizing s with
  | nil => rfl
  | cons r rs ih =>
    rw [popAll_cons_of_slotInside (slotAbove_zero s ▸ h 0 rs.length.succ_pos)]
    refine ih fun k hk => ?_
    rw [slotInside_popaSlot_iff, slotAbove_popaSlot]
    exact h (k + 1) (Nat.succ_lt_succ hk)

/-- The first slot outside the store is where the pops fail. -/
theorem popAll_eq_error {rs : List Reg} {s : State} {k : Nat} (hk : k < rs.length)
    (hin : ∀ j < k, SlotInside s (slotAbove s j)) (hout : ¬ SlotInside s (slotAbove s k)) :
    popAll rs s = .error (.outOfBounds (slotAbove s k)) := by
  induction rs generalizing s k with
  | nil => exact absurd hk (Nat.not_lt_zero k)
  | cons r rs ih =>
    cases k with
    | zero =>
      rw [slotAbove_zero] at hout ⊢
      rw [popAll, pop_failsPastEnd.eq_error hout, error_bind]
    | succ k =>
      rw [popAll_cons_of_slotInside (slotAbove_zero s ▸ hin 0 k.succ_pos), ← slotAbove_popaSlot s r]
      refine ih (Nat.lt_of_succ_lt_succ hk) (fun j hj => ?_) ?_
      · rw [slotInside_popaSlot_iff, slotAbove_popaSlot]
        exact hin (j + 1) (Nat.succ_lt_succ hj)
      · rwa [slotInside_popaSlot_iff, slotAbove_popaSlot]

/-- The pops raise ESP by one step each. -/
theorem esp_foldl_popaSlot (rs : List Reg) (s : State) :
    (rs.foldl popaSlot s).reg .esp = slotAbove s rs.length := by
  induction rs generalizing s with
  | nil => exact (slotAbove_zero s).symm
  | cons r rs ih => rw [List.foldl_cons, ih, slotAbove_popaSlot, List.length_cons]

/-- The pops leave a register that is not among theirs. -/
theorem reg_foldl_popaSlot_of_not_mem {rs : List Reg} (s : State) {q : Reg} (hq : q ≠ .esp) (hmem : q ∉ rs) :
    (rs.foldl popaSlot s).reg q = s.reg q := by
  induction rs generalizing s with
  | nil => rfl
  | cons r rs ih =>
    obtain ⟨hne, hrest⟩ := List.ne_and_not_mem_of_not_mem_cons hmem
    rw [List.foldl_cons, ih _ hrest, reg_popaSlot_of_ne s r hq hne]

/-- `t` has the view of `r` loaded from the slot `a` of `s`; the other bits of `r` are as in `s`. -/
def Loaded (s t : State) (r : Reg) (a : Word) : Prop :=
  (t.get (s.wideRef r)).toNat = storeValue s.mem a.toNat s.width.bytes ∧
  ∀ i, bits s.width ≤ i → (t.reg r).getLsbD i = (s.reg r).getLsbD i

/-- A pop loads its own register. -/
theorem loaded_popaSlot (s : State) {r : Reg} (hr : r ≠ .esp) : Loaded s (popaSlot s r) r (slotAbove s 0) := by
  have hwrote := wroteView_set (s := s.setReg .esp (s.reg .esp + s.stackStep)) (r := s.wideRef r) (v := wordAtEsp s) rfl
  obtain ⟨hview, hbits, -, -⟩ := hwrote
  rw [popaSlot, if_neg hr, slotAbove_zero]
  rw [s.wideRef_width] at hview hbits
  refine ⟨?_, fun i hi => ?_⟩
  · rw [hview, wordAtEsp, toNat_leWord_bytes_eq_storeValue, Nat.mod_eq_of_lt (storeValue_lt _ _ _)]
  · have hbit := hbits i
    rw [s.wideRef_slot, s.wideRef_start, State.reg_setReg_of_ne s _ hr] at hbit
    exact hbit (by omega)

/-- What was loaded into `r` is there as long as `r` is not written. -/
theorem Loaded.of_reg_eq {s t u : State} {r : Reg} {a : Word} (h : Loaded s t r a) (hreg : u.reg r = t.reg r) :
    Loaded s u r a := by
  obtain ⟨hview, hbits⟩ := h
  rw [State.get_eq_trunc, s.wideRef_slot] at hview
  rw [Loaded, State.get_eq_trunc, s.wideRef_slot, hreg]
  exact ⟨hview, hbits⟩

/-- A pop changes neither the store nor another register, so that a load after it loads from the state before it. -/
theorem Loaded.of_popaSlot {s t : State} {q r : Reg} {a : Word} (h : Loaded (popaSlot s q) t r a) (hr : r ≠ .esp)
    (hne : r ≠ q) : Loaded s t r a := by
  rwa [Loaded, wideRef_popaSlot, mem_popaSlot, width_popaSlot, reg_popaSlot_of_ne s q hr hne] at h

/-- The pops load each of their registers but ESP from its own slot, if no register comes twice. -/
theorem loaded_foldl_popaSlot {rs : List Reg} (s : State) (hnodup : rs.Nodup) {k : Nat} {r : Reg}
    (hk : rs[k]? = some r) (hr : r ≠ .esp) : Loaded s (rs.foldl popaSlot s) r (slotAbove s k) := by
  induction rs generalizing s k with
  | nil => cases hk
  | cons q rs ih =>
    obtain ⟨hq, hrest⟩ := List.nodup_cons.1 hnodup
    cases k with
    | zero =>
      obtain rfl : q = r := Option.some.inj hk
      exact (loaded_popaSlot s hr).of_reg_eq (reg_foldl_popaSlot_of_not_mem _ hr hq)
    | succ k =>
      rw [List.getElem?_cons_succ] at hk
      have hne : r ≠ q := fun h => hq (h ▸ List.mem_of_getElem? hk)
      exact slotAbove_popaSlot s q k ▸ (ih (popaSlot s q) hrest hk).of_popaSlot hr hne

/-! ### POPA after PUSHA -/

/-- The slots above a lowered ESP are those below the ESP before. -/
theorem slotAbove_of_esp_eq {s t : State} {n k : Nat} (hesp : t.reg .esp = slotBelow s n) (hw : t.width = s.width)
    (hk : k ≤ n) : slotAbove t k = slotBelow s (n - k) := by
  obtain ⟨m, rfl⟩ := Nat.exists_eq_add_of_le' hk
  rw [slotAbove, hesp, hw, slotBelow, slotBelow, Nat.add_sub_cancel, Nat.add_mul, BitVec.ofNat_add,
    sub_add_eq_sub_sub, sub_add_cancel]

/-- A word is known from its low part and its other bits. -/
theorem eq_of_trunc_eq {w : Width} {a b : Word} (hlow : w.trunc a = w.trunc b)
    (hhigh : ∀ i, bits w ≤ i → a.getLsbD i = b.getLsbD i) : a = b := by
  apply BitVec.eq_of_getLsbD_eq
  intro i _
  by_cases hi : i < bits w
  · have hbit := congrArg (fun v => v.toNat.testBit i) hlow
    simpa only [toNat_trunc_eq_mod, Nat.testBit_mod_two_pow, hi, decide_true, Bool.true_and, BitVec.testBit_toNat]
      using hbit
  · exact hhigh i (Nat.le_of_not_lt hi)

/-- A register loaded from a slot that holds its own low part is as before. -/
theorem Loaded.reg_eq {s t : State} {r : Reg} {a : Word} (h : Loaded s t r a)
    (hv : storeValue s.mem a.toNat s.width.bytes = (s.width.trunc (s.reg r)).toNat) : t.reg r = s.reg r := by
  obtain ⟨hview, hbits⟩ := h
  rw [State.get_eq_trunc, s.wideRef_slot, s.wideRef_start, s.wideRef_width, BitVec.ushiftRight_zero, hv] at hview
  exact eq_of_trunc_eq (BitVec.eq_of_toNat_eq hview) hbits

theorem popaOrder_nodup : popaOrder.Nodup := by decide

theorem pushaOrder_nodup : pushaOrder.Nodup := by decide

/-- Each register has its slot in both orders, which are each other's reverse. -/
theorem exists_popaOrder_getElem? (r : Reg) : ∃ k < 8, popaOrder[k]? = some r ∧ pushaOrder[7 - k]? = some r := by
  cases r with
  | edi => exact ⟨0, by decide⟩
  | esi => exact ⟨1, by decide⟩
  | ebp => exact ⟨2, by decide⟩
  | esp => exact ⟨3, by decide⟩
  | ebx => exact ⟨4, by decide⟩
  | edx => exact ⟨5, by decide⟩
  | ecx => exact ⟨6, by decide⟩
  | eax => exact ⟨7, by decide⟩

end Sys2Proof.Machine

namespace Sys2Proof.Proofs

open Sys2Proof.Machine Sys2Proof.Claims

/-- Settles O44: each form is one push, of a value that is right modulo the operand size. -/
theorem pushStoresBelowEsp : Obligations.PushStoresBelowEsp := by
  intro s hm hcan
  refine ⟨fun r => finish_push_of_canPush hm hcan ?_, fun imm => finish_push_of_canPush hm hcan rfl,
    fun imm => finish_push_of_canPush hm hcan (by rw [toNat_sextImm])⟩
  rw [pushValue_eq_trunc, toNat_trunc_eq_mod, Nat.mod_mod, State.stackStep]
  split <;> rfl

/-- Settles O45: every form is its stack access and nothing after it that could fail; PUSHA and POPA are eight. -/
theorem stackAccessesPastTheStoreFail : Obligations.StackAccessesPastTheStoreFail := by
  intro s
  refine ⟨fun hout => ?_, fun hout => ?_, fun k hpos hk hin hout => ?_, fun k hk hin hout => ?_⟩
  · have hpush (v : Word) : finish (push v s) = .fault (.outOfBounds (slotBelow s 1)) :=
      finish_eq_fault.2 (push_failsPastEnd.eq_error hout)
    exact ⟨fun r => hpush (s.pushValue r), hpush, fun imm => hpush (sextImm s.width imm),
      fun _ => push_failsPastEnd.finish_bind_eq_fault hout⟩
  · exact ⟨fun _ => pop_failsPastEnd.finish_bind_eq_fault hout, pop_failsPastEnd.finish_bind_eq_fault hout⟩
  · obtain ⟨k, rfl⟩ := Nat.exists_eq_add_of_le' hpos
    exact finish_eq_fault.2 (pushAll_eq_error hk (fun j hj => hin (j + 1) (by omega) (by omega)) hout)
  · exact finish_eq_fault.2 (popAll_eq_error hk hin hout)

/-- Settles O46: the pop succeeds, and POP's write follows it. -/
theorem popLoadsFromEsp : Obligations.PopLoadsFromEsp := by
  intro s r hin
  obtain ⟨v, hpop, hv⟩ := pop_of_slotInside hin
  dsimp only
  rw [← hv]
  exact ⟨_, exec_popR_of_pop r hpop, wroteView_popInto _ r v⟩

/-- Settles O47: the pop answers the register's own value and the registers before the push, and writes it back. -/
theorem pushThenPopRestores : Obligations.PushThenPopRestores := by
  intro s t r hm hesp hpush
  have hpop := pop_of_push hm (finish_eq_next.1 hpush)
  have hafter : ¬ (r = .esp ∧ s.cfg.espPushValue = .after) := fun ⟨hr, h⟩ => by simp [(hesp hr).1] at h
  have hplus : ¬ (r = .esp ∧ s.cfg.popEspResult = .poppedPlusStep) := fun ⟨hr, h⟩ => by simp [(hesp hr).2] at h
  rw [pushValue_eq_trunc, if_neg hafter, Width.trunc_trunc] at hpop
  refine ⟨_, exec_popR_of_pop r hpop, ?_⟩
  rw [State.popInto, if_neg hplus]
  exact (congrArg State.regs (set_wideRef_trunc_reg { s with mem := t.mem } r) :)

/-- Settles O48: the eight pushes succeed, each into its own slot, and ESP is the fifth of them. -/
theorem pushaStoresAllRegisters : Obligations.PushaStoresAllRegisters := by
  intro s hm _ hin
  obtain ⟨t, ht⟩ := exists_pushAll_eq_ok_iff (esp0 := s.reg .esp) (rs := pushaOrder).2
    fun k hk => hin (k + 1) k.succ_pos hk
  refine ⟨t, finish_eq_next.2 ht, fun k r hr => ?_,
    fun x hx => read_of_pushAll hm ht fun k hk => hx (k + 1) k.succ_pos hk,
    esp_of_pushAll ht, fun _ hq => reg_of_pushAll ht hq, pushAll_frame ht⟩
  have hesp : r = .esp → k = 4 := by
    rintro rfl
    exact ((List.getElem?_inj (i := 4) (by decide) pushaOrder_nodup).1 hr.symm).symm
  rw [storeValue_of_pushAll hm ht le_rfl hr, toNat_trunc_eq_mod, pushaWord]
  by_cases hsp : r = .esp
  · simp [hsp, hesp hsp]
  · simp [hsp]

/-- Settles O49: the eight pops succeed, each from its own slot. -/
theorem popaLoadsAllRegistersButEsp : Obligations.PopaLoadsAllRegistersButEsp := by
  intro s hin
  have hpop : popAll popaOrder s = .ok (popaOrder.foldl popaSlot s) := popAll_eq_foldl hin
  exact ⟨_, finish_eq_next.2 hpop, fun k r hk hr => loaded_foldl_popaSlot s popaOrder_nodup hk hr,
    esp_foldl_popaSlot popaOrder s, popAll_frame hpop⟩

/-- Settles O50: POPA's slots are PUSHA's in reverse, and each register is loaded from the slot it was stored in. -/
theorem pushaThenPopaRestores : Obligations.PushaThenPopaRestores := by
  intro s t hm _ h
  have hpush : pushAll (s.reg .esp) pushaOrder s = .ok t := finish_eq_next.1 h
  have hframe := pushAll_frame hpush
  have hw : t.width = s.width := by rw [hframe]; rfl
  have hcfg : t.cfg = s.cfg := by rw [hframe]
  have hslot {k : Nat} (hk : k < 8) : slotAbove t k = slotBelow s (7 - k + 1) :=
    (slotAbove_of_esp_eq (esp_of_pushAll hpush) hw (Nat.le_of_lt hk)).trans
      (congrArg (slotBelow s) (show 8 - k = 7 - k + 1 by omega))
  have hin := exists_pushAll_eq_ok_iff.1 ⟨t, hpush⟩
  have hpop : popAll popaOrder t = .ok (popaOrder.foldl popaSlot t) := by
    refine popAll_eq_foldl fun k hk => ?_
    rw [hslot hk, SlotInside, hw, hcfg]
    exact hin (7 - k) (Nat.lt_succ_of_le (Nat.sub_le 7 k))
  refine ⟨_, finish_eq_next.2 hpop, Regs.ext_get fun r => ?_⟩
  by_cases hr : r = .esp
  · subst hr
    exact (esp_foldl_popaSlot popaOrder t).trans
      ((slotAbove_of_esp_eq (esp_of_pushAll hpush) hw (Nat.le_refl 8)).trans (slotBelow_zero s))
  · obtain ⟨k, hk, hpopa, hpusha⟩ := exists_popaOrder_getElem? r
    have hsaved := storeValue_of_pushAll hm hpush le_rfl hpusha
    rw [pushaWord, if_neg hr, ← hslot hk, ← hw, ← reg_of_pushAll hpush hr] at hsaved
    exact ((loaded_foldl_popaSlot t popaOrder_nodup hpopa hr).reg_eq hsaved).trans (reg_of_pushAll hpush hr)

end Sys2Proof.Proofs
end

section
/-! Proofs of the statements on 44_system.md: which encodings fail as unimplemented (R231, R84, R160), what NOP and HLT
do (R220, R221), which syscall INT 80 performs (R222, R223, R228), and what each syscall does (R225 to R227, R230). -/

namespace Sys2Proof

open Sys2Proof.Machine (ok_bind error_bind)
open Sys2Proof.Claims

/-! ### Encodings without a row (R231, R84, R160) -/

theorem byte_mem_tableOpcodes (op : Op) : op.byte ∈ tableOpcodes := by
  cases op with
  | add d w | group1 d w | mov d w => cases d <;> cases w <;> decide
  | jcc b | movRmImm b => cases b <;> decide
  | inc r | dec r | push r | pop r | movImm8 r | movImm r => cases r <;> decide
  | _ => decide

theorem opOf_eq_none {b : Byte} (h : b ∉ tableOpcodes) : opOf b = none := by
  cases hop : opOf b with
  | none => rfl
  | some op => exact absurd (eq_byte_of_opOf hop ▸ byte_mem_tableOpcodes op) h

theorem subOpOf_eq_none {i : BitVec 3} (h : i ∉ [(0 : BitVec 3), 5, 7]) : subOpOf i = none := by
  cases hop : subOpOf i with
  | none => rfl
  | some op =>
    have hsel : op.sel ∈ [(0 : BitVec 3), 5, 7] := by cases op <;> decide
    exact absurd (eq_sel_of_subOpOf hop ▸ hsel) h

/-- The group 80-83 has one opcode byte for each pair of sub-variant bits. -/
theorem exists_eq_group1_byte {b : Byte} (h : b ∈ [(0x80 : Byte), 0x81, 0x82, 0x83]) :
    ∃ s w, b = (Op.group1 s w).byte := by
  simp only [List.mem_cons, List.not_mem_nil, or_false] at h
  obtain rfl | rfl | rfl | rfl := h
  · exact ⟨false, false, rfl⟩
  · exact ⟨false, true, rfl⟩
  · exact ⟨true, false, rfl⟩
  · exact ⟨true, true, rfl⟩

theorem exists_eq_movRmImm_byte {b : Byte} (h : b ∈ [(0xC6 : Byte), 0xC7]) : ∃ w, b = (Op.movRmImm w).byte := by
  simp only [List.mem_cons, List.not_mem_nil, or_false] at h
  obtain rfl | rfl := h
  · exact ⟨false, rfl⟩
  · exact ⟨true, rfl⟩

/-- `b` is an opcode of the table and `m` a ModRM byte whose middle field selects no row of it. -/
def UndefinedModRM (b m : Byte) : Prop :=
  (b ∈ [(0x80 : Byte), 0x81, 0x82, 0x83] ∧ fieldMid m ∉ [(0 : BitVec 3), 5, 7]) ∨
    (b ∈ [(0xC6 : Byte), 0xC7] ∧ fieldMid m ≠ 0)

section
variable {f : Fetch} {ip : Word} {b m : Byte} {bs : List Byte} {e : DecodeError}

theorem decodeOpcode_of_not_mem_tableOpcodes (o16 : Bool) (h : b ∉ tableOpcodes) :
    decodeOpcode o16 b f ip = .error (.unimplemented b) := by
  rw [decodeOpcode, opOf_eq_none h]

/-- The middle field is checked once ModRM is fetched, before any byte after it. -/
theorem decodeOpcode_of_undefinedModRM (o16 : Bool) (hund : UndefinedModRM b m) (h : Supplies f ip (m :: bs)) :
    decodeOpcode o16 b f ip = .error (.unimplemented b) := by
  have hm := fetchByte_supplied h none
  obtain ⟨hb, hreg⟩ | ⟨hb, hreg⟩ := hund
  · obtain ⟨s, w, rfl⟩ := exists_eq_group1_byte hb
    rw [decodeOpcode_byte, decodeOp, decodeGroup1, hm, ok_bind]
    simp only [subOpOf_eq_none hreg]
  · obtain ⟨w, rfl⟩ := exists_eq_movRmImm_byte hb
    rw [decodeOpcode_byte, decodeOp, decodeMovRmImm, hm, ok_bind]
    exact if_neg hreg

theorem UndefinedModRM.ne_66 (h : UndefinedModRM b m) : b ≠ 0x66 := by
  obtain ⟨hb, -⟩ | ⟨hb, -⟩ := h
  · obtain ⟨s, w, rfl⟩ := exists_eq_group1_byte hb
    exact byte_ne_66 _
  · obtain ⟨w, rfl⟩ := exists_eq_movRmImm_byte hb
    exact byte_ne_66 _

theorem decode_eq_error (hb : b ≠ 0x66) (h : Supplies f ip (b :: bs))
    (hop : decodeOpcode false b f (ip + 1) = .error e) : decode f ip = .error e := by
  rw [decode, fetchByte_supplied h, ok_bind]
  exact (if_neg hb).trans hop

theorem decode_prefixed_eq_error (h : Supplies f ip (0x66 :: b :: bs))
    (hop : decodeOpcode true b f (ip + 1 + 1) = .error e) : decode f ip = .error e := by
  simp only [decode, fetchByte_supplied h, fetchByte_supplied h.tail, ok_bind, if_true, hop, error_bind]

end

end Sys2Proof

namespace Sys2Proof.Machine

open Sys2Proof.Claims

theorem step_of_decode_unimplemented {s : State} {b : Byte} (hs : s.status = .running)
    (h : decode s.fetch s.ip = .error (.unimplemented b)) : step s = .fault (.unimplementedOpcode b) :=
  step_of_decodeHere_error hs h

/-! ### Block accesses (20_memory.md R55, R56) -/

/-- A sequence whose first part fails, fails. -/
theorem bind_eq_error_of_left {ε α β : Type} {x : Except ε α} {f : α → Except ε β} {e : ε} (h : x = .error e) :
    x >>= f = .error e := by rw [h, error_bind]

theorem blockRead_eq_error {s : State} {a : Word} {n : Nat} {r : Fault} :
    blockRead s a n = .error r ↔ (n ≠ 0 ∧ s.cfg.memSize < a.toNat + n) ∧ r = .outOfBounds a := by
  simp only [blockRead, raise, State.inBounds_iff]
  split
  · exact ⟨nofun, fun ⟨hpast, _⟩ => by omega⟩
  · exact ⟨fun h => ⟨by omega, (Except.error.inj h).symm⟩, fun ⟨_, hr⟩ => hr ▸ rfl⟩

theorem blockWrite_eq_error {s : State} {a : Word} {bs : List Byte} {r : Fault} :
    blockWrite a bs s = .error r ↔ (bs ≠ [] ∧ s.cfg.memSize < a.toNat + bs.length) ∧ r = .outOfBounds a := by
  simp only [blockWrite, raise, State.inBounds_iff, ← List.length_eq_zero_iff, ne_eq]
  split
  · exact ⟨nofun, fun ⟨hpast, _⟩ => by omega⟩
  · exact ⟨fun h => ⟨by omega, (Except.error.inj h).symm⟩, fun ⟨_, hr⟩ => hr ▸ rfl⟩

theorem Memory.bytes_eq_map_range (m : Memory) (a n : Nat) :
    m.bytes a n = (List.range n).map fun k => m.read (a + k) := by
  refine List.ext_getElem (by simp) fun k hk hk' => ?_
  have hbyte := Memory.getD_bytes m a n k (by simpa using hk)
  rw [List.getD_eq_getElem _ _ hk] at hbyte
  simpa using hbyte

/-! ### The syscall selected (R222, R223, R228) -/

theorem exec_intImm8_80 (s : State) : exec (.intImm8 0x80) s = finish (syscall s) := rfl

theorem exec_intImm8_of_ne {id : Byte} (h : id ≠ 0x80) (s : State) :
    exec (.intImm8 id) s = .fault (.unimplementedInterrupt id) :=
  congrArg finish (if_neg h)

section
variable {s : State}

theorem syscall_of_eax_eq_one (h : s.reg .eax = 1) : syscall s = sysExit s := if_pos h

theorem syscall_of_eax_eq_three (h : s.reg .eax = 3) (hread : s.cfg.hasReadSyscall = true) :
    syscall s = sysRead s := by
  simp [syscall, h, hread]

theorem syscall_of_eax_eq_four (h : s.reg .eax = 4) : syscall s = sysWrite s := by
  simp [syscall, h]

theorem syscall_of_unknown (h1 : s.reg .eax ≠ 1) (h4 : s.reg .eax ≠ 4)
    (h3 : s.reg .eax ≠ 3 ∨ s.cfg.hasReadSyscall = false) : syscall s = .error (.unknownSyscall (s.reg .eax)) := by
  have hread : ¬ (s.reg .eax = 3 ∧ s.cfg.hasReadSyscall = true) := fun ⟨heax, hr⟩ => by simp [heax, hr] at h3
  rw [syscall, if_neg h1, if_neg hread, if_neg h4]
  rfl

/-! ### Reading and writing (R226, R227) -/

theorem sysWrite_eq_error_of_past (hne : s.reg .edx ≠ 0)
    (hpast : s.cfg.memSize < (s.reg .ecx).toNat + (s.reg .edx).toNat) :
    sysWrite s = .error (.outOfBounds (s.reg .ecx)) := by
  have hlen : (s.reg .edx).toNat ≠ 0 := fun h => hne (BitVec.eq_of_toNat_eq h)
  exact bind_eq_error_of_left (blockRead_eq_error.2 ⟨⟨hlen, hpast⟩, rfl⟩)

/-- The next answer and what is left of the input, an empty input being at its end (log 10). -/
theorem inLine_eq {answer : HostLine} {rest : List HostLine}
    (h : s.input = answer :: rest ∨ (s.input = [] ∧ answer = .eof ∧ rest = [])) :
    s.inLine = (answer, { s with input := rest }) := by
  obtain hinput | ⟨hinput, rfl, rfl⟩ := h
  · simp only [State.inLine, hinput]
  · simp only [State.inLine, hinput]
    rw [← hinput]

/-- A read is a block write of the answer's bytes in the state past that answer, and a draw of EAX. -/
theorem sysRead_of_inLine {answer : HostLine} {u : State} (h : s.inLine = (answer, u)) :
    sysRead s = blockWrite (s.reg .ecx) (readBytes answer (s.reg .edx).toNat) u >>= fun t => pure t.drawEax := by
  rw [sysRead, h]

end

/-! ### The file descriptor (R224) -/

/-- The draw of EAX commutes with a write of EBX. -/
theorem drawEax_setReg_ebx (s : State) (fd : Word) : (s.setReg .ebx fd).drawEax = s.drawEax.setReg .ebx fd := rfl

theorem inLine_setReg (s : State) (r : Reg) (v : Word) :
    (s.setReg r v).inLine = (s.inLine.1, s.inLine.2.setReg r v) := by
  simp only [State.inLine, State.setReg_input]
  cases s.input <;> rfl

theorem sysRead_setReg_ebx {s t : State} (fd : Word) (h : sysRead s = .ok t) :
    sysRead (s.setReg .ebx fd) = .ok (t.setReg .ebx fd) := by
  obtain ⟨u, hu, rfl⟩ := sysRead_eq_ok.1 h
  obtain ⟨hin, rfl⟩ := blockWrite_eq_ok.1 hu
  refine sysRead_eq_ok.2 ⟨_, ?_, (drawEax_setReg_ebx _ fd).symm⟩
  rw [inLine_setReg]
  exact blockWrite_eq_ok.2 ⟨hin, rfl⟩

theorem sysWrite_setReg_ebx {s t : State} (fd : Word) (h : sysWrite s = .ok t) :
    sysWrite (s.setReg .ebx fd) = .ok (t.setReg .ebx fd) := by
  obtain ⟨hin, rfl⟩ := sysWrite_eq_ok.1 h
  exact sysWrite_eq_ok.2 ⟨hin, rfl⟩

end Sys2Proof.Machine

namespace Sys2Proof.Proofs

open Sys2Proof.Machine Sys2Proof.Claims

/-- Settles O8: dispatch fails on the opcode byte, or its handler on ModRM, with no fetch of a byte that follows. -/
theorem undefinedEncodingsAreUnimplemented : Obligations.UndefinedEncodingsAreUnimplemented := by
  intro s b m hs hsize
  refine ⟨fun hb => ⟨fun hne h => ?_, fun h => ?_⟩, fun (hund : UndefinedModRM b m) h => ?_⟩
  · exact step_of_decode_unimplemented hs
      (decode_eq_error hne (supplies_of_holds hsize h) (decodeOpcode_of_not_mem_tableOpcodes false hb))
  · exact step_of_decode_unimplemented hs
      (decode_prefixed_eq_error (supplies_of_holds hsize h) (decodeOpcode_of_not_mem_tableOpcodes true hb))
  · obtain h | h := h
    · have hsup := supplies_of_holds hsize h
      exact step_of_decode_unimplemented hs
        (decode_eq_error hund.ne_66 hsup (decodeOpcode_of_undefinedModRM false hund hsup.tail))
    · have hsup := supplies_of_holds hsize h
      exact step_of_decode_unimplemented hs
        (decode_prefixed_eq_error hsup (decodeOpcode_of_undefinedModRM true hund hsup.tail.tail))

/-- Settles O52: by the equations of the syscall dispatch. -/
theorem intSelectsTheSyscall : Obligations.IntSelectsTheSyscall := by
  intro s
  refine ⟨fun id hid => exec_intImm8_of_ne hid s, fun h1 h4 h3 => ?_, fun h1 => ?_⟩
  · rw [exec_intImm8_80, syscall_of_unknown h1 h4 h3, finish_error]
  · rw [exec_intImm8_80, syscall_of_eax_eq_one h1]
    rfl

/-- Settles O53: the block read succeeds exactly when the range is empty or inside the store. -/
theorem writeSyscallOutputsTheBytes : Obligations.WriteSyscallOutputsTheBytes := by
  intro s heax
  rw [exec_intImm8_80, syscall_of_eax_eq_four heax]
  refine ⟨fun hin => ?_, fun hne hpast => finish_eq_fault.2 (sysWrite_eq_error_of_past hne hpast)⟩
  have hlen : (s.reg .edx).toNat = 0 ∨ (s.reg .ecx).toNat + (s.reg .edx).toNat ≤ s.cfg.memSize :=
    hin.imp_left (congrArg BitVec.toNat)
  refine ⟨_, finish_eq_next.2 (sysWrite_eq_ok.2 ⟨hlen, rfl⟩), ?_, fun q hq => drawEax_reg_of_ne _ hq, rfl⟩
  rw [State.drawEax_output, State.out_output, Memory.bytes_eq_map_range]

/-- Settles O54: the block write of the answer's bytes succeeds exactly when there are none or they fit the store. -/
theorem readSyscallStoresTheLine : Obligations.ReadSyscallStoresTheLine := by
  intro s answer rest bytes hm heax hread hinput hbytes
  have hline : bytes = readBytes answer (s.reg .edx).toNat := hbytes.trans (by cases answer <;> rfl)
  rw [exec_intImm8_80, syscall_of_eax_eq_three heax hread, sysRead_of_inLine (inLine_eq hinput), ← hline]
  refine ⟨fun hin => ?_, fun hne hpast => ?_⟩
  · have hwrite := (blockWrite_eq_ok (s := { s with input := rest })).2
      ⟨hin.imp_left (congrArg List.length), rfl⟩
    refine ⟨_, finish_eq_next.2 (bind_eq_ok.2 ⟨_, hwrite, rfl⟩), fun k hk => ?_, fun x hx => ?_, rfl,
      fun q hq => drawEax_reg_of_ne _ hq, rfl⟩
    · rw [State.drawEax_mem, Memory.read_writeBytes hm, if_pos (by omega), Nat.add_sub_cancel_left]
    · rw [State.drawEax_mem, Memory.read_writeBytes hm, if_neg (by omega)]
  · exact finish_eq_fault.2 (bind_eq_error_of_left (blockWrite_eq_error.2 ⟨⟨hne, hpast⟩, rfl⟩))

/-- Settles O55: neither syscall reads EBX, and the draw is the same one. -/
theorem fileDescriptorIsIgnored : Obligations.FileDescriptorIsIgnored := by
  intro s t fd heax h
  change exec (.intImm8 0x80) (s.setReg .ebx fd) = .next (t.setReg .ebx fd)
  rw [exec_intImm8_80] at h ⊢
  rw [finish_eq_next] at h ⊢
  have heax' : (s.setReg .ebx fd).reg .eax = s.reg .eax := rfl
  obtain h3 | h4 := heax
  · cases hread : s.cfg.hasReadSyscall with
    | false =>
      rw [syscall_of_unknown (by simp [h3]) (by simp [h3]) (.inr hread)] at h
      cases h
    | true =>
      rw [syscall_of_eax_eq_three h3 hread] at h
      rw [syscall_of_eax_eq_three (heax'.trans h3) hread]
      exact sysRead_setReg_ebx fd h
  · rw [syscall_of_eax_eq_four h4] at h
    rw [syscall_of_eax_eq_four (heax'.trans h4)]
    exact sysWrite_setReg_ebx fd h

/-- Settles O51: NOP's meaning answers the state itself, HLT's the state with its status. -/
theorem nopContinuesAndHltHalts : Obligations.NopContinuesAndHltHalts := fun _ => ⟨rfl, rfl⟩

end Sys2Proof.Proofs
end

section
/-! Proofs of the statements on 60_exceptions.md: for which reasons a step fails (R250, R251), which of two failures
comes first in 81 /0 (R255, R147), and which instructions stop the run or reach the host (R264, R229, R40). -/

namespace Sys2Proof

open Sys2Proof.Machine (ok_bind error_bind)

/-! ### The group 81 whose immediate cannot be fetched (R147) -/

section
variable {f : Fetch} {ip : Word} {op : SubOp} {rm : RM Reg}

/-- The r/m operand's bytes are fetched, and the error at the immediate names the operand read before it. -/
theorem decodeGroup1_rmImm_eq_error {o16 : Bool} {b : Byte} (hwf : rm.wf = true)
    (h : Supplies f ip (rm.encode Reg.sel op.sel))
    (himm : f (ip + BitVec.ofNat 32 (rm.encode Reg.sel op.sel).length) (immWidth o16) = none) :
    decodeGroup1 o16 false true b f ip = .error (.outOfBounds
      (ip + BitVec.ofNat 32 (rm.encode Reg.sel op.sel).length) (rm.firstRead (immWidth o16))) := by
  obtain ⟨m, hm, hreg, hrm⟩ := decodeRm_supplied (rest := []) Reg.ofSel_sel hwf (by rwa [List.append_nil])
  simp only [decodeGroup1, hm, ok_bind, hreg, subOpOf_sel, hrm, Bool.false_eq_true, if_false, if_true, fetchAt, himm,
    error_bind]

theorem decode_rmImm_eq_error (hwf : rm.wf = true)
    (h : Supplies f ip ((Op.group1 false true).byte :: rm.encode Reg.sel op.sel))
    (himm : f (ip + BitVec.ofNat 32 ((rm.encode Reg.sel op.sel).length + 1)) .w32 = none) :
    decode f ip = .error (.outOfBounds
      (ip + BitVec.ofNat 32 ((rm.encode Reg.sel op.sel).length + 1)) (rm.firstRead .w32)) := by
  rw [← add_one_add_ofNat] at himm ⊢
  refine decode_eq_error (byte_ne_66 _) h ?_
  rw [decodeOpcode_byte]
  exact decodeGroup1_rmImm_eq_error (o16 := false) hwf h.tail himm

end

end Sys2Proof

namespace Sys2Proof.Machine

open Host (Outcome)
open Sys2Proof.Claims

/-- Of a read operand and the fetch after it, the operand's failure is the one raised (R255). -/
theorem decodeFault_firstRead (s : State) (a : Word) (m : Addr) (w : Width) :
    s.decodeFault (.outOfBounds a (some (m, w))) =
      .outOfBounds (if s.cfg.memSize < (s.resolve m).toNat + w.bytes then s.resolve m else a) := by
  simp only [State.decodeFault]
  split
  · next r hread =>
    obtain ⟨hpast, rfl⟩ := memRead_eq_error.1 hread
    rw [if_pos hpast]
  · next v hread => rw [if_neg (Nat.not_lt.2 (memRead_eq_ok.1 hread).1)]

/-! ### The four reasons (R250, R251) -/

/-- The failure is one that R251 numbers. -/
def Fault.Numbered (r : Fault) : Prop :=
  r.code = some 1 ∨ r.code = some 2 ∨ r.code = some 3 ∨ r.code = some 4

theorem numbered_outOfBounds (a : Word) : (Fault.outOfBounds a).Numbered := .inl rfl

theorem numbered_unimplementedOpcode (b : Byte) : (Fault.unimplementedOpcode b).Numbered := .inr (.inl rfl)

theorem numbered_unimplementedInterrupt (id : Byte) : (Fault.unimplementedInterrupt id).Numbered :=
  .inr (.inr (.inl rfl))

theorem numbered_unknownSyscall (eax : Word) : (Fault.unknownSyscall eax).Numbered := .inr (.inr (.inr rfl))

/-- Where the operation fails, its failure is numbered. -/
def FailsNumbered {α : Type} (x : Except Fault α) : Prop := ∀ r, x = .error r → r.Numbered

section
variable {α β : Type} {s : State} {l : Loc} {w : Width} {v : Word}

theorem failsNumbered_ok (a : α) : FailsNumbered (.ok a) := nofun

theorem failsNumbered_raise {r : Fault} (h : r.Numbered) : FailsNumbered (raise r : Except Fault α) :=
  fun _ hx => Except.error.inj hx ▸ h

theorem FailsNumbered.bind {x : Except Fault α} {f : α → Except Fault β} (hx : FailsNumbered x)
    (hf : ∀ a, FailsNumbered (f a)) : FailsNumbered (x >>= f) := by
  cases x with
  | ok a => exact hf a
  | error e => exact failsNumbered_raise (hx e rfl)

theorem FailsPastEnd.failsNumbered {a : Word} {x : Except Fault α} (h : FailsPastEnd s a w x) : FailsNumbered x :=
  fun r hr => ((h r).1 hr).2 ▸ numbered_outOfBounds a

theorem readLoc_failsNumbered : FailsNumbered (readLoc s l w) := by
  cases l with
  | reg r => exact failsNumbered_ok _
  | mem a => exact memRead_failsPastEnd.failsNumbered

theorem writeLoc_failsNumbered : FailsNumbered (writeLoc l w v s) := by
  cases l with
  | reg r => exact failsNumbered_ok _
  | mem a => exact memWrite_failsPastEnd.failsNumbered

theorem push_failsNumbered : FailsNumbered (push v s) := push_failsPastEnd.failsNumbered

theorem pop_failsNumbered : FailsNumbered (pop s) := pop_failsPastEnd.failsNumbered

theorem pushAll_failsNumbered {esp0 : Word} {rs : List Reg} : FailsNumbered (pushAll esp0 rs s) := by
  induction rs generalizing s with
  | nil => exact failsNumbered_ok s
  | cons r rs ih => exact push_failsNumbered.bind fun _ => ih

theorem popAll_failsNumbered {rs : List Reg} : FailsNumbered (popAll rs s) := by
  induction rs generalizing s with
  | nil => exact failsNumbered_ok s
  | cons r rs ih => exact pop_failsNumbered.bind fun _ => ih

theorem movToReg_failsNumbered {ref : RegRef} : FailsNumbered (movToReg ref l w s) :=
  readLoc_failsNumbered.bind fun _ => failsNumbered_ok _

theorem addToLoc_failsNumbered {ref : RegRef} : FailsNumbered (addToLoc l w ref s) :=
  readLoc_failsNumbered.bind fun _ => writeLoc_failsNumbered.bind fun _ => failsNumbered_ok _

theorem addToReg_failsNumbered {ref : RegRef} : FailsNumbered (addToReg ref l w s) :=
  readLoc_failsNumbered.bind fun _ => failsNumbered_ok _

theorem group1_failsNumbered {alu : Width → Word → Word → Word × Bool} {imm : Word} :
    FailsNumbered (group1 alu l w imm s) :=
  readLoc_failsNumbered.bind fun _ => writeLoc_failsNumbered.bind fun _ => failsNumbered_ok _

theorem sysRead_failsNumbered : FailsNumbered (sysRead s) :=
  FailsNumbered.bind (fun _ hr => (blockWrite_eq_error.1 hr).2 ▸ numbered_outOfBounds _) fun _ => failsNumbered_ok _

theorem sysWrite_failsNumbered : FailsNumbered (sysWrite s) :=
  FailsNumbered.bind (fun _ hr => (blockRead_eq_error.1 hr).2 ▸ numbered_outOfBounds _) fun _ => failsNumbered_ok _

theorem syscall_failsNumbered : FailsNumbered (syscall s) := by
  unfold syscall
  split
  · exact failsNumbered_ok _
  · split
    · exact sysRead_failsNumbered
    · split
      · exact sysWrite_failsNumbered
      · exact failsNumbered_raise (numbered_unknownSyscall _)

end

/-- The outcome is a next state or a numbered failure. -/
def EndsNumbered : Outcome State Fault Refusal → Prop
  | .next _ => True
  | .fault r => r.Numbered
  | .refused _ => False

theorem FailsNumbered.finish {x : Except Fault State} (h : FailsNumbered x) : EndsNumbered (finish x) := by
  cases x with
  | ok t => trivial
  | error r => exact h r rfl

theorem EndsNumbered.clearLatch {o : Outcome State Fault Refusal} (h : EndsNumbered o) :
    EndsNumbered (clearLatch o) := by
  cases o with
  | next t => trivial
  | fault r => exact h
  | refused r => exact h

theorem exec_endsNumbered_of_ne_o16 {i : Instr} (hi : ∀ j, i ≠ .o16 j) (s : State) : EndsNumbered (exec i s) := by
  cases i with
  | o16 j => exact absurd rfl (hi j)
  | addRm8R8 | addRmR => exact addToLoc_failsNumbered.finish
  | addR8Rm8 | addRRm => exact addToReg_failsNumbered.finish
  | addRm8Imm8 | subRm8Imm8 | sub7Rm8Imm8 | addRmImm | subRmImm | sub7RmImm | addRm8Imm8s | subRm8Imm8s
  | sub7Rm8Imm8s | addRmImm8 | subRmImm8 | sub7RmImm8 => exact group1_failsNumbered.finish
  | movRm8R8 | movRmR | movRm8Imm8 | movRmImm => exact writeLoc_failsNumbered.finish
  | movR8Rm8 | movRRm => exact movToReg_failsNumbered.finish
  | pushR | pushImm | pushImm8 => exact push_failsNumbered.finish
  | pusha => exact pushAll_failsNumbered.finish
  | popa => exact popAll_failsNumbered.finish
  | callRel => exact (push_failsNumbered.bind fun _ => failsNumbered_ok _).finish
  | popR | ret => exact (pop_failsNumbered.bind fun _ => failsNumbered_ok _).finish
  | movR8Imm8 | movRImm | incR | decR | jz | jnz | loopRel8 | jmpRel | jmpRel8 | nop | hlt =>
    exact (failsNumbered_ok _).finish
  | intImm8 id =>
    by_cases hid : id = 0x80
    · rw [hid, exec_intImm8_80]
      exact syscall_failsNumbered.finish
    · rw [exec_intImm8_of_ne hid]
      exact numbered_unimplementedInterrupt id

/-- A prefixed instruction ends as its body does, and a body that is itself `o16` fails as unimplemented (R84). -/
theorem exec_endsNumbered (i : Instr) (s : State) : EndsNumbered (exec i s) := by
  by_cases hi : ∃ j, i = .o16 j
  · obtain ⟨j, rfl⟩ := hi
    by_cases hj : ∃ k, j = .o16 k
    · obtain ⟨k, rfl⟩ := hj
      exact numbered_unimplementedOpcode 0x66
    · rw [exec_o16_eq (not_exists.1 hj)]
      exact (exec_endsNumbered_of_ne_o16 (not_exists.1 hj) _).clearLatch
  · exact exec_endsNumbered_of_ne_o16 (not_exists.1 hi) s

theorem numbered_decodeFault (s : State) (e : DecodeError) : (s.decodeFault e).Numbered := by
  cases e with
  | unimplemented b => exact numbered_unimplementedOpcode b
  | outOfBounds a firstRead =>
    cases firstRead with
    | none => exact numbered_outOfBounds a
    | some p =>
      obtain ⟨m, w⟩ := p
      rw [decodeFault_firstRead]
      exact numbered_outOfBounds _

theorem step_endsNumbered {s : State} (hs : s.status = .running) : EndsNumbered (step s) := by
  cases hd : s.decodeHere with
  | ok p =>
    rw [step_of_decodeHere hs hd]
    exact exec_endsNumbered _ _
  | error e =>
    rw [step_of_decodeHere_error hs hd]
    exact numbered_decodeFault s e

/-! ### Stopping the run and reaching the host (R264, R229, R40) -/

/-- From `s` to `t` the status changes only if `stops` allows it, the host's output and input only if `host` does, and
the output only by appending. -/
structure HostFrame (stops host : Bool) (s t : State) : Prop where
  status_eq : stops = false → t.status = s.status
  host_eq : host = false → t.output = s.output ∧ t.input = s.input
  output_prefix : s.output <+: t.output

section
variable {stops host : Bool} {s t u : State}

/-- A change of registers, IP, flags, latch and memory alone neither stops the run nor reaches the host. -/
theorem HostFrame.of_eq {regs : Regs} {ip flags : Word} {o16 : Bool} {mem : Memory}
    (h : t = { s with regs := regs, ip := ip, flags := flags, o16 := o16, mem := mem }) : HostFrame stops host s t := by
  subst h
  exact ⟨fun _ => rfl, fun _ => ⟨rfl, rfl⟩, List.prefix_rfl⟩

theorem HostFrame.trans (h : HostFrame stops host s t) (h' : HostFrame stops host t u) :
    HostFrame stops host s u where
  status_eq hst := (h'.status_eq hst).trans (h.status_eq hst)
  host_eq hh := ⟨(h'.host_eq hh).1.trans (h.host_eq hh).1, (h'.host_eq hh).2.trans (h.host_eq hh).2⟩
  output_prefix := h.output_prefix.trans h'.output_prefix

theorem hostFrame_set (s : State) (r : RegRef) (v : Word) : HostFrame stops host s (s.set r v) :=
  .of_eq (s.set_eq r v)

theorem hostFrame_jump (s : State) (a : Word) : HostFrame stops host s (s.jump a) := .of_eq rfl

theorem hostFrame_ite_jump (h : HostFrame stops host s u) (c : Prop) [Decidable c] (a : Word) :
    HostFrame stops host s (if c then u.jump a else u) := by
  split
  · exact h.trans (hostFrame_jump u a)
  · exact h

/-- Only the write syscall outputs, and it appends (R227). -/
theorem output_prefix_of_syscall (h : syscall s = .ok t) : s.output <+: t.output := by
  unfold syscall at h
  split at h
  · rw [sysExit_eq_ok.1 h]
  · split at h
    · rw [sysRead_frame h]
    · split at h
      · rw [(sysWrite_eq_ok.1 h).2]
        exact List.prefix_append _ _
      · cases h

end

/-- Among the instructions that are not `o16`, only HLT and INT stop the run, and only INT reaches the host. -/
theorem exec_hostFrame_of_ne_o16 {i : Instr} {s t : State} (hi : ∀ j, i ≠ .o16 j) (h : exec i s = .next t) :
    HostFrame (mayStop i) (reachesHost i) s t := by
  cases i with
  | o16 j => exact absurd rfl (hi j)
  | addRm8R8 | addRmR => exact .of_eq (addToLoc_frame (finish_eq_next.1 h))
  | addR8Rm8 | addRRm => exact .of_eq (addToReg_frame (finish_eq_next.1 h))
  | addRm8Imm8 | subRm8Imm8 | sub7Rm8Imm8 | addRmImm | subRmImm | sub7RmImm | addRm8Imm8s | subRm8Imm8s
  | sub7Rm8Imm8s | addRmImm8 | subRmImm8 | sub7RmImm8 => exact .of_eq (group1_frame (finish_eq_next.1 h))
  | movRm8R8 | movRmR | movRm8Imm8 | movRmImm => exact .of_eq (writeLoc_frame (finish_eq_next.1 h))
  | movR8Rm8 | movRRm => exact .of_eq (movToReg_frame (finish_eq_next.1 h))
  | movR8Imm8 | movRImm | incR | decR =>
    obtain rfl := Except.ok.inj (finish_eq_next.1 h)
    exact hostFrame_set s _ _
  | pushR | pushImm | pushImm8 => exact .of_eq (push_frame (finish_eq_next.1 h))
  | pusha => exact .of_eq (pushAll_frame (finish_eq_next.1 h))
  | popa => exact .of_eq (popAll_frame (finish_eq_next.1 h))
  | popR r =>
    obtain ⟨⟨v, u⟩, hu, ht⟩ := bind_eq_ok.1 (finish_eq_next.1 h)
    obtain rfl := Except.ok.inj ht
    exact .trans (.of_eq (pop_frame hu)) (.of_eq (popInto_frame u r v))
  | ret =>
    obtain ⟨⟨v, u⟩, hu, ht⟩ := bind_eq_ok.1 (finish_eq_next.1 h)
    obtain rfl := Except.ok.inj ht
    exact .trans (.of_eq (pop_frame hu)) (hostFrame_jump u v)
  | callRel =>
    obtain ⟨u, hu, ht⟩ := bind_eq_ok.1 (finish_eq_next.1 h)
    obtain rfl := Except.ok.inj ht
    exact .trans (.of_eq (push_frame hu)) (hostFrame_jump u _)
  | jmpRel | jmpRel8 =>
    obtain rfl := Except.ok.inj (finish_eq_next.1 h)
    exact hostFrame_jump s _
  | jz =>
    obtain rfl := Except.ok.inj (finish_eq_next.1 h)
    exact hostFrame_ite_jump (.of_eq rfl) _ _
  | jnz =>
    obtain rfl := Except.ok.inj (finish_eq_next.1 h)
    rw [← ite_not]
    exact hostFrame_ite_jump (.of_eq rfl) _ _
  | loopRel8 =>
    obtain rfl := Except.ok.inj (finish_eq_next.1 h)
    rw [← ite_not]
    exact hostFrame_ite_jump (hostFrame_set s (.r32 .ecx) _) _ _
  | nop =>
    obtain rfl := Except.ok.inj (finish_eq_next.1 h)
    exact .of_eq rfl
  | hlt =>
    obtain rfl := Except.ok.inj (finish_eq_next.1 h)
    exact ⟨nofun, fun _ => ⟨rfl, rfl⟩, List.prefix_rfl⟩
  | intImm8 id =>
    have hx := finish_eq_next.1 h
    split at hx
    · exact ⟨nofun, nofun, output_prefix_of_syscall hx⟩
    · cases hx

/-- A prefixed instruction stops the run or reaches the host only as its body may. -/
theorem exec_hostFrame {i : Instr} {s t : State} (h : exec i s = .next t) :
    HostFrame (mayStop (body i)) (reachesHost (body i)) s t := by
  by_cases hi : ∃ j, i = .o16 j
  · obtain ⟨j, rfl⟩ := hi
    obtain ⟨hj, u, hu, rfl⟩ := exec_o16_eq_next h
    obtain ⟨hstatus, hhost, happend⟩ := exec_hostFrame_of_ne_o16 hj hu
    exact ⟨hstatus, hhost, happend⟩
  · rw [body_of_ne_o16 (not_exists.1 hi)]
    exact exec_hostFrame_of_ne_o16 (not_exists.1 hi) h

end Sys2Proof.Machine

namespace Sys2Proof.Proofs

open Sys2Proof.Machine Sys2Proof.Claims

/-- Settles O10: the store supplies the operand's bytes, the immediate's fetch fails, and the step raises the
operand's failure if it has one. -/
theorem operandReadFailsBeforeImmediateFetch : Obligations.OperandReadFailsBeforeImmediateFetch := by
  intro s a hs hsize h hroom hpast
  have hip : (s.ip + BitVec.ofNat 32 6).toNat = s.ip.toNat + 6 := by
    rw [BitVec.toNat_add, BitVec.toNat_ofNat]
    omega
  have himm : s.fetch (s.ip + BitVec.ofNat 32 6) .w32 = none :=
    State.fetch_eq_none (by rw [hip, Width.bytes]; omega)
  have hd : s.decodeHere = .error (.outOfBounds (s.ip + BitVec.ofNat 32 6) (some (.abs a, .w32))) :=
    decode_rmImm_eq_error (op := .add) (rm := .mem (.abs a)) rfl (supplies_of_holds hsize h) himm
  rw [step_of_decodeHere_error hs hd, decodeFault_firstRead]
  rfl

/-- Settles O11: a running step is a numbered failure of the decoder or an instruction's outcome. -/
theorem failuresAreTheFourReasons : Obligations.FailuresAreTheFourReasons := by
  intro s hs
  have hend := step_endsNumbered hs
  exact ⟨fun r h => (h ▸ hend : EndsNumbered (.fault r)), fun r h => (h ▸ hend : EndsNumbered (.refused r))⟩

/-- Settles O59: the frame of the body's meaning, prefixed or not. -/
theorem onlyHltAndIntStopAndOnlyIntReachesTheHost : Obligations.OnlyHltAndIntStopAndOnlyIntReachesTheHost := by
  intro i s t h
  obtain ⟨hstatus, hhost, bs, hout⟩ := exec_hostFrame h
  exact ⟨hstatus, hhost, bs, hout.symm⟩

end Sys2Proof.Proofs
end

section
/-! Proof of the statement on 70_reset_and_hazards.md: what a loaded segment leaves in the store (R281). -/

namespace Sys2Proof.Machine

/-! ### Loading a segment (R281, 20_memory.md R52) -/

/-- The segment's effect on the store: its footprint zeroed, then its file bytes written. -/
def Segment.image (g : Segment) (m : Memory) : Memory :=
  (m.writeBytes g.vaddr.toNat (List.replicate g.memsz 0)).writeBytes g.vaddr.toNat g.data

/-- Loading that succeeds fits both the footprint and the file bytes in the store, and changes only the store. -/
theorem loadSegment_eq_ok {g : Segment} {s t : State} :
    loadSegment g s = .ok t ↔
      (g.memsz = 0 ∨ g.vaddr.toNat + g.memsz ≤ s.cfg.memSize) ∧
      (g.data.length = 0 ∨ g.vaddr.toNat + g.data.length ≤ s.cfg.memSize) ∧
      t = { s with mem := g.image s.mem } := by
  simp only [loadSegment, blockClear, bind_eq_ok, blockWrite_eq_ok, List.length_replicate]
  constructor
  · rintro ⟨_, ⟨hclear, rfl⟩, hcopy, rfl⟩
    exact ⟨hclear, hcopy, rfl⟩
  · rintro ⟨hclear, hcopy, rfl⟩
    exact ⟨_, ⟨hclear, rfl⟩, hcopy, rfl⟩

/-- Zeroing a range makes its addresses read zero and changes no other. -/
theorem Memory.read_writeBytes_replicate_zero {m : Memory} (h : m.wf) (a n x : Nat) :
    (m.writeBytes a (List.replicate n 0)).read x = if a ≤ x ∧ x < a + n then 0 else m.read x := by
  rw [Memory.read_writeBytes h, List.length_replicate]
  split
  · next hin => exact List.getD_replicate _ (by omega)
  · rfl

/-- Each address holds the last thing written there: the file byte, else zero in the footprint, else what it held. -/
theorem Segment.read_image (g : Segment) {m : Memory} (h : m.wf) (x : Nat) :
    (g.image m).read x =
      if g.vaddr.toNat ≤ x ∧ x < g.vaddr.toNat + g.data.length then g.data.getD (x - g.vaddr.toNat) 0
      else if g.vaddr.toNat ≤ x ∧ x < g.vaddr.toNat + g.memsz then 0
      else m.read x := by
  rw [Segment.image, Memory.read_writeBytes (Memory.writeBytes_wf h _ _), Memory.read_writeBytes_replicate_zero h]

end Sys2Proof.Machine

namespace Sys2Proof.Proofs

open Sys2Proof.Machine Sys2Proof.Claims

/-- Settles O16: by what the store reads after the zero-fill and the copy, at a file byte, in the rest of the
footprint and outside it. -/
theorem loadedSegmentIsFileBytesThenZeros : Obligations.LoadedSegmentIsFileBytesThenZeros := by
  intro g s t hm hfits hload
  obtain ⟨-, -, rfl⟩ := loadSegment_eq_ok.1 hload
  refine ⟨fun k hk => ?_, fun k hdata hk => ?_, fun x hx => ?_, rfl⟩
  · rw [Segment.read_image g hm, if_pos (by omega), Nat.add_sub_cancel_left]
  · rw [Segment.read_image g hm, if_neg (by omega), if_pos (by omega)]
  · rw [Segment.read_image g hm, if_neg (by omega), if_neg (by omega)]

end Sys2Proof.Proofs
end
